-- ==== Sys2Proof/Word.lean ====
section
/-! DEFINITION. The word types of IORG-DEC (R8, R20, R92 of the spec): a byte, the register widths, the 40-bit command word. -/

namespace Sys2Proof

/-- A byte: 8 bits, an unsigned value 0 to 255 (R8). -/
abbrev Byte := BitVec 8

/-- A 1-bit register (R20). -/
abbrev Bit := BitVec 1

/-- A 16-bit register (R28, R29). -/
abbrev Half := BitVec 16

/-- A 32-bit register (R20). -/
abbrev Word := BitVec 32

/-- A 64-bit register: POS, the length registers, ST_ERRINFO (R21, R25 to R27, R35). -/
abbrev Long := BitVec 64

/-- A format K command word (R92). -/
abbrev CmdWord := BitVec 40

end Sys2Proof
end

