-- ==== Sys2Proof/Syntax.lean ====
section
/-! DEFINITION. The instructions of IORG-DEC: one constructor per row of spec/opcode_table.json (R93, R94). -/

namespace Sys2Proof

/-- The two operation formats of R90: F, the filter record in ZBUF; K, the command word of the host. -/
inductive Format where
  | f
  | k
  deriving DecidableEq, Repr

/-- The five filter types of R93. -/
inductive FilterType where
  | none
  | sub
  | up
  | average
  | paeth
  deriving DecidableEq, Repr

/-- The operation set. Format F constructors carry no operand: theirs are the sample bytes of the record in ZBUF (R91).
Of the format K commands, four use `arg` (R92); the others ignore it (R97). A number operand is below 2^32 (R107,
`Instr.wf`). -/
inductive Instr where
  /-- F_NONE, ft 0x00 (R185). -/
  | fNone
  /-- F_SUB, ft 0x01 (R186). -/
  | fSub
  /-- F_UP, ft 0x02 (R187). -/
  | fUp
  /-- F_AVG, ft 0x03 (R188). -/
  | fAvg
  /-- F_PAETH, ft 0x04 (R189). -/
  | fPaeth
  /-- NOP, op 0x00 (R230). -/
  | nop
  /-- SETFLIP, op 0x01 (R231): `flag` is `arg[0]`. -/
  | setflip (flag : Bit)
  /-- CLR, op 0x02 (R232). -/
  | clr
  /-- RD8, op 0x10 (R123). -/
  | rd8
  /-- RD16LE, op 0x11 (R124). -/
  | rd16le
  /-- RD32LE, op 0x12 (R125). -/
  | rd32le
  /-- RD32BE, op 0x13 (R126). -/
  | rd32be
  /-- SKIP, op 0x14 (R128): `arg` is a byte count. -/
  | skip (count : Nat)
  /-- SEEK, op 0x15 (R127): `arg` is an absolute byte offset. -/
  | seek (target : Nat)
  /-- PBMPF, op 0x20 (R141). -/
  | pbmpf
  /-- PBMPI, op 0x21 (R142). -/
  | pbmpi
  /-- PBMPC, op 0x22 (R143). -/
  | pbmpc
  /-- PIHDR, op 0x23 (R144). -/
  | pihdr
  /-- PCHUNK, op 0x24 (R145). -/
  | pchunk
  /-- BXROWS, op 0x30 (R163). -/
  | bxrows
  /-- BXSWAP, op 0x31 (R164). -/
  | bxswap
  /-- DECBMP, op 0x3F (R165). -/
  | decbmp
  /-- DFROW, op 0x40 (R195): `arg` is the row index. -/
  | dfrow (row : Nat)
  /-- DFRUN, op 0x41 (R196). -/
  | dfrun
  /-- CHUNKS, op 0x50 (R211). -/
  | chunks
  /-- INFLATE, op 0x51 (R213). -/
  | inflate
  /-- PXRUN, op 0x52 (R214). -/
  | pxrun
  /-- DECPNG, op 0x5F (R215). -/
  | decpng
  deriving DecidableEq, Repr

/-- The format an instruction is encoded in (R90). -/
def Instr.format : Instr → Format
  | .fNone | .fSub | .fUp | .fAvg | .fPaeth => .f
  | .nop | .setflip _ | .clr | .rd8 | .rd16le | .rd32le | .rd32be | .skip _ | .seek _
  | .pbmpf | .pbmpi | .pbmpc | .pihdr | .pchunk | .bxrows | .bxswap | .decbmp | .dfrow _ | .dfrun
  | .chunks | .inflate | .pxrun | .decpng => .k

end Sys2Proof
end

