-- ==== Sys2Proof/WellFormed.lean ====
section
/-! DEFINITION. Which terms of `Instr` are instructions: a number operand of SKIP, SEEK and DFROW is below 2^32
(R92, R107). -/

namespace Sys2Proof

/-- `arg` is a 32-bit unsigned operand (R92), "a number below 2^32" (R107). -/
def argFits (n : Nat) : Bool := decide (n < 2 ^ 32)

/-- An instruction is well formed when its operand fits the format's operand field. -/
def Instr.wf : Instr → Bool
  | .skip count => argFits count
  | .seek target => argFits target
  | .dfrow row => argFits row
  | .setflip _ => true
  | .fNone | .fSub | .fUp | .fAvg | .fPaeth | .nop | .clr | .rd8 | .rd16le | .rd32le | .rd32be
  | .pbmpf | .pbmpi | .pbmpc | .pihdr | .pchunk | .bxrows | .bxswap | .decbmp | .dfrun
  | .chunks | .inflate | .pxrun | .decpng => true

end Sys2Proof
end

