-- ==== Sys2Proof/Decode.lean ====
section
/-! DEFINITION. Decoding of both formats (R91 to R97), total on any bytes and rejecting by name, and after it the
encoder written from the same maps. -/

namespace Sys2Proof

/-- Why bytes are no instruction. -/
inductive DecodeError where
  /-- Fewer bytes than the format's length. -/
  | tooShort
  /-- A command word whose `op` is not in the map of R94 (R97). -/
  | illegalOp (op : Byte)
  /-- A filter-type byte 5 to 255 (R96). -/
  | reservedFilter (ft : Byte)
  deriving DecidableEq, Repr

/-- `op` = bits 7:0 of the command word (R92). -/
def opField (w : CmdWord) : Byte := w.extractLsb' 0 8

/-- `arg` = bits 39:8 of the command word (R92). -/
def argField (w : CmdWord) : Word := w.extractLsb' 8 32

/-- The format F opcode map (R93): the whole byte is the opcode. -/
def filterOf (ft : Byte) : Option FilterType :=
  match ft.toNat with
  | 0 => some .none
  | 1 => some .sub
  | 2 => some .up
  | 3 => some .average
  | 4 => some .paeth
  | _ => none

/-- The instruction a filter type stands for. -/
def FilterType.instr : FilterType → Instr
  | .none => .fNone
  | .sub => .fSub
  | .up => .fUp
  | .average => .fAvg
  | .paeth => .fPaeth

/-- Decode a filter-type byte (R93, R96). -/
def decodeRecord (ft : Byte) : Except DecodeError Instr :=
  match filterOf ft with
  | some f => .ok f.instr
  | none => .error (.reservedFilter ft)

/-- The format K opcode map (R94), from the two fields of the word. -/
def decodeOp (op : Byte) (arg : Word) : Except DecodeError Instr :=
  match op.toNat with
  | 0x00 => .ok .nop
  | 0x01 => .ok (.setflip (arg.extractLsb' 0 1))
  | 0x02 => .ok .clr
  | 0x10 => .ok .rd8
  | 0x11 => .ok .rd16le
  | 0x12 => .ok .rd32le
  | 0x13 => .ok .rd32be
  | 0x14 => .ok (.skip arg.toNat)
  | 0x15 => .ok (.seek arg.toNat)
  | 0x20 => .ok .pbmpf
  | 0x21 => .ok .pbmpi
  | 0x22 => .ok .pbmpc
  | 0x23 => .ok .pihdr
  | 0x24 => .ok .pchunk
  | 0x30 => .ok .bxrows
  | 0x31 => .ok .bxswap
  | 0x3F => .ok .decbmp
  | 0x40 => .ok (.dfrow arg.toNat)
  | 0x41 => .ok .dfrun
  | 0x50 => .ok .chunks
  | 0x51 => .ok .inflate
  | 0x52 => .ok .pxrun
  | 0x5F => .ok .decpng
  | _ => .error (.illegalOp op)

/-- Decode a command word (R92, R94, R97). -/
def decodeCommand (w : CmdWord) : Except DecodeError Instr := decodeOp (opField w) (argField w)

/-- A command word from its 5 bytes, least significant first (R92). -/
def commandOfBytes (b0 b1 b2 b3 b4 : Byte) : CmdWord := b4 ++ b3 ++ b2 ++ b1 ++ b0

/-- Decode the instruction at the front of a byte list and give back the rest. Of a filter record the rest begins with
its sample bytes (R91). -/
def decodeBytes : Format → List Byte → Except DecodeError (Instr × List Byte)
  | .f, ft :: rest =>
    match decodeRecord ft with
    | .ok i => .ok (i, rest)
    | .error e => .error e
  | .k, b0 :: b1 :: b2 :: b3 :: b4 :: rest =>
    match decodeCommand (commandOfBytes b0 b1 b2 b3 b4) with
    | .ok i => .ok (i, rest)
    | .error e => .error e
  | .f, [] => .error .tooShort
  | .k, [] => .error .tooShort
  | .k, [_] => .error .tooShort
  | .k, [_, _] => .error .tooShort
  | .k, [_, _, _] => .error .tooShort
  | .k, [_, _, _, _] => .error .tooShort

/-! ### The encoder -/

/-- The opcode byte of an instruction: `ft` of R93 for format F, `op` of R94 for format K. -/
def opcode : Instr → Byte
  | .fNone => 0x00
  | .fSub => 0x01
  | .fUp => 0x02
  | .fAvg => 0x03
  | .fPaeth => 0x04
  | .nop => 0x00
  | .setflip _ => 0x01
  | .clr => 0x02
  | .rd8 => 0x10
  | .rd16le => 0x11
  | .rd32le => 0x12
  | .rd32be => 0x13
  | .skip _ => 0x14
  | .seek _ => 0x15
  | .pbmpf => 0x20
  | .pbmpi => 0x21
  | .pbmpc => 0x22
  | .pihdr => 0x23
  | .pchunk => 0x24
  | .bxrows => 0x30
  | .bxswap => 0x31
  | .decbmp => 0x3F
  | .dfrow _ => 0x40
  | .dfrun => 0x41
  | .chunks => 0x50
  | .inflate => 0x51
  | .pxrun => 0x52
  | .decpng => 0x5F

/-- The operand field of an instruction, zero where it uses none (R92, R94). -/
def operand : Instr → Word
  | .setflip flag => flag.setWidth 32
  | .skip count => BitVec.ofNat 32 count
  | .seek target => BitVec.ofNat 32 target
  | .dfrow row => BitVec.ofNat 32 row
  | .fNone | .fSub | .fUp | .fAvg | .fPaeth | .nop | .clr | .rd8 | .rd16le | .rd32le | .rd32be
  | .pbmpf | .pbmpi | .pbmpc | .pihdr | .pchunk | .bxrows | .bxswap | .decbmp | .dfrun
  | .chunks | .inflate | .pxrun | .decpng => 0

/-- The command word of a format K instruction (R92): `op` in bits 7:0, `arg` in bits 39:8. -/
def encodeCommand (i : Instr) : CmdWord := operand i ++ opcode i

/-- The bytes of an instruction in increasing address order: one byte for a filter record's opcode (R91), five for a
command word, least significant first (R92). -/
def encode (i : Instr) : List Byte :=
  match i.format with
  | .f => [opcode i]
  | .k =>
    let w := encodeCommand i
    [w.extractLsb' 0 8, w.extractLsb' 8 8, w.extractLsb' 16 8, w.extractLsb' 24 8, w.extractLsb' 32 8]

/-! ### The table's numbering -/

/-- The format of a row of spec/opcode_table.json from its width: 8 bits is format F, 40 bits is format K. -/
def tableFormat (nbits : Nat) : Format := if nbits ≤ 8 then .f else .k

/-- The low five bytes of a number, least significant first. -/
def wordBytes (w : Nat) : List Byte :=
  [BitVec.ofNat 8 w, BitVec.ofNat 8 (w / 2 ^ 8), BitVec.ofNat 8 (w / 2 ^ 16), BitVec.ofNat 8 (w / 2 ^ 24),
    BitVec.ofNat 8 (w / 2 ^ 32)]

/-- The instruction the decoder reads from a row's bits, laid out as the hardware stores them. -/
def decodeTableWord (nbits w : Nat) : Option Instr :=
  match decodeBytes (tableFormat nbits) (wordBytes w) with
  | .ok (i, _) => some i
  | .error _ => none

end Sys2Proof
end

