-- ==== Sys2Proof/Config.lean ====
section
/-! DEFINITION. What an implementation fixes (R6): the FIXED parameters as constants, the OPEN ones as the plain record
`Params` that a state carries, and the two free values of the model, which have no body. -/

namespace Sys2Proof.Config

/-- `PNG_BPP`: bytes per pixel of a scanline record and the distance to the left neighbour (R6, FIXED). -/
abbrev pngBpp : Nat := 4

/-- `ALIGN`: BMP row alignment in bytes (R6, FIXED). -/
abbrev align : Nat := 4

/-- `FILE_HDR_BYTES` (R6, R102; general knowledge in the spec, G1: log entry 12). -/
abbrev fileHdrBytes : Nat := 14

/-- `INFO_HDR_BYTES` (R6, R103; general knowledge in the spec, G2: log entry 12). -/
abbrev infoHdrBytes : Nat := 40

/-- The parameters R6 marks OPEN, as plain data. A state carries them and no step changes them, so a claim about every
state is a claim about every value of them (log entry 8). -/
structure Params where
  /-- `ZBUF_CAP`, capacity in bytes of ZBUF. -/
  zbufCap : Nat
  /-- `SRC_CAP`, largest source length in bytes. -/
  srcCap : Nat
  /-- `CBUF_CAP`, capacity in bytes of CBUF. -/
  cbufCap : Nat
  /-- `PIX_CAP`, capacity in bytes of PIX. -/
  pixCap : Nat
  /-- `COLOUR_HDR_BYTES`, size of the BMP colour header, at least 20. -/
  colourHdrBytes : Nat
  /-- `PNG_SIG`, the 8 bytes that open a PNG source. -/
  pngSig : List Byte
  /-- `CT_RGBA`, the IHDR colour-type code of 4-channel RGBA. -/
  ctRgba : Byte
  /-- `IL_NONE`, the IHDR interlace code of a non-interlaced image. -/
  ilNone : Byte
  /-- `BmpCompOk`, as the list of the compression values it does NOT accept (log entry 10). -/
  bmpCompRefused : List Word
  /-- `Inflate`, on the inputs whose answer is given (`none` is `fail`); on every other input the answer is the free
  value `Config.inflate` (log entry 9). -/
  inflateTable : List (List Byte × Option (List Byte))
  deriving DecidableEq, Repr

/-- The defaults of R6. `BmpCompOk` accepts everything and no answer of `Inflate` is given. -/
def defaultParams : Params where
  zbufCap := 2 ^ 30
  srcCap := 2 ^ 32 - 1
  cbufCap := 2 ^ 32 - 1
  pixCap := 2 ^ 32 - 1
  colourHdrBytes := 84
  pngSig := [0x89, 0x50, 0x4E, 0x47, 0x0D, 0x0A, 0x1A, 0x0A]
  ctRgba := 6
  ilNone := 0
  bmpCompRefused := []
  inflateTable := []

/-- What R6 and the register widths of R20 ask of the parameters: every capacity fits its 64-bit length register, the
colour header holds its five fields, the signature has 8 bytes. DESIGN CHOICE (log entry 20): SRC_CAP has no smaller
limit, since R6 names none, although R22 derives `POS < 2^33`, which holds only where SRC_CAP is below 2^33. -/
abbrev Params.wf (p : Params) : Prop :=
  p.zbufCap < 2 ^ 64 ∧ p.srcCap < 2 ^ 64 ∧ p.cbufCap < 2 ^ 64 ∧ p.pixCap < 2 ^ 64 ∧
  20 ≤ p.colourHdrBytes ∧ p.pngSig.length = 8

/-- FREE VALUE. The inflate capability: a total function from a byte sequence to a byte sequence or `fail` (R212).
Nothing else is assumed of it (log entry 9). -/
opaque inflate : List Byte → Option (List Byte)

/-- FREE VALUE. What a byte holds that nothing wrote (R38, R40, R246): a function of the space, of how often its contents
became unspecified, and of the address (log entry 5). -/
opaque unspecifiedByte : Nat → Nat → Nat → Byte

end Sys2Proof.Config
end

