-- ==== Sys2Proof/Machine/State.lean ====
section
/-! DEFINITION. The state of IORG-DEC as plain data (spec/10_state.md R20 to R38), the reasons a step can stop, and the
state after reset. Register names are the spec's. -/

namespace Sys2Proof.Machine

/-! ### Buffers -/

/-- The four address spaces (R24 to R27). -/
inductive Space where
  | src
  | cbuf
  | zbuf
  | pix
  deriving DecidableEq, Repr

/-- Bytes by address, in one canonical form: addresses strictly rising (`Memory.wf`). An address that is not listed has
no value: nothing wrote it (R38, R40). -/
structure Memory where
  cells : List Host.Cell
  deriving DecidableEq, Repr

/-- The canonical form: the listed addresses rise strictly, so equal memories are equal lists. -/
abbrev Memory.wf (m : Memory) : Prop := m.cells.Pairwise fun x y => x.1 < y.1

/-- One address space: its bytes, its length register, and the model's own count of how often its contents became
unspecified, which the free value of an unlisted byte depends on (log entry 5). -/
structure Buffer where
  /-- The bytes. -/
  mem : Memory
  /-- The length register: SRC_LEN, CLEN, ZLEN or PIX_LEN. -/
  len : Long
  /-- The model's own field. -/
  gen : Nat
  deriving DecidableEq, Repr

/-! ### Registers, by unit -/

/-- The byte cursor (R21); its SRC_LEN is the length register of the SRC buffer. -/
structure Cursor where
  pos : Long
  srcValid : Bit
  val : Word
  deriving DecidableEq, Repr

/-- The BMP file header registers and the latched offset (R28). -/
structure BmpFile where
  bfType : Half
  bfSize : Word
  bfRes1 : Half
  bfRes2 : Half
  bfOffbits : Word
  declOff : Word
  deriving DecidableEq, Repr

/-- The BMP info header registers (R29); BI_WIDTH, BI_HEIGHT, BI_XPPM, BI_YPPM are read as two's complement. -/
structure BmpInfo where
  biSize : Word
  biWidth : Word
  biHeight : Word
  biPlanes : Half
  biBitcount : Half
  biCompression : Word
  biSizeimage : Word
  biXppm : Word
  biYppm : Word
  biClrused : Word
  biClrimportant : Word
  deriving DecidableEq, Repr

/-- The BMP colour header registers (R30). -/
structure BmpColour where
  bcRmask : Word
  bcGmask : Word
  bcBmask : Word
  bcAmask : Word
  bcCstype : Word
  deriving DecidableEq, Repr

/-- The PNG chunk registers (R31). -/
structure Chunk where
  chLen : Word
  chTag : Word
  chCrc : Word
  ihdrSeen : Bit
  deriving DecidableEq, Repr

/-- The PNG IHDR registers (R32). -/
structure Ihdr where
  ihWidth : Word
  ihHeight : Word
  ihDepth : Byte
  ihCtype : Byte
  ihComp : Byte
  ihFilter : Byte
  ihInterlace : Byte
  deriving DecidableEq, Repr

/-- The defilter registers (R33). -/
structure Defilter where
  dfW : Word
  dfH : Word
  dfY : Word
  dfFt : Byte
  deriving DecidableEq, Repr

/-- The status flags (R35); ST_STATE is 0 for IDLE and 1 for FAULTED, ST_ERR a code of R241. -/
structure Status where
  stState : Bit
  stDone : Bit
  stErr : BitVec 3
  stErrinfo : Long
  stWarnTopdown : Bit
  deriving DecidableEq, Repr

/-- The output registers (R36). -/
structure Output where
  outW : Word
  outH : Word
  deriving DecidableEq, Repr

/-- The name of every register of spec/10_state.md, for host reads, host writes and frames. -/
inductive Reg where
  | cfgFlip
  | pos | val | srcLen | srcValid
  | clen | zlen | pixLen
  | bfType | bfSize | bfRes1 | bfRes2 | bfOffbits | declOff
  | biSize | biWidth | biHeight | biPlanes | biBitcount | biCompression | biSizeimage | biXppm | biYppm
  | biClrused | biClrimportant
  | bcRmask | bcGmask | bcBmask | bcAmask | bcCstype
  | chLen | chTag | chCrc | ihdrSeen
  | ihWidth | ihHeight | ihDepth | ihCtype | ihComp | ihFilter | ihInterlace
  | dfW | dfH | dfY | dfFt
  | stState | stDone | stErr | stErrinfo | stWarnTopdown
  | outW | outH
  deriving DecidableEq, Repr

/-! ### The host's actions -/

/-- One action of the host, taken between commands (R7, R37). The list of those still to come is part of the state
(log entry 1). -/
inductive HostInput where
  /-- Issue a command word (R92). -/
  | command (word : CmdWord)
  /-- Write one byte of a buffer (R37 allows SRC and ZBUF). -/
  | writeByte (space : Space) (address : Nat) (value : Byte)
  /-- Write a register (R37 allows SRC_LEN, SRC_VALID, ZLEN, DF_W, DF_H). -/
  | writeReg (reg : Reg) (value : Nat)
  /-- Read one byte of a buffer (R37, R40). -/
  | readByte (space : Space) (address : Nat)
  /-- Reset the block (R270). -/
  | reset
  deriving DecidableEq, Repr

/-! ### The state -/

/-- Everything the spec gives the machine, then the model's own two fields. -/
structure State where
  cursor : Cursor
  src : Buffer
  cbuf : Buffer
  zbuf : Buffer
  pix : Buffer
  bmpFile : BmpFile
  bmpInfo : BmpInfo
  bmpColour : BmpColour
  chunk : Chunk
  ihdr : Ihdr
  defilter : Defilter
  /-- CFG_FLIP (R34). -/
  cfgFlip : Bit
  status : Status
  out : Output
  /-- The OPEN parameters of R6 (log entry 8). -/
  params : Config.Params
  /-- The host's actions still to come, oldest first (log entry 1). -/
  inputs : List HostInput
  deriving DecidableEq, Repr

/-- ST_STATE = FAULTED (R35). -/
abbrev State.faulted (s : State) : Prop := s.status.stState = 1#1

/-! ### Reasons to stop -/

/-- The model's faults. The five failure kinds of R241 are none of these: they are next states (R246). -/
inductive Fault where
  /-- Raised by a host byte write at an address at or beyond the capacity of SRC or ZBUF, which does not exist (R70).
  Safe: the machine stops (log entry 14). -/
  | noSuchAddress (space : Space) (address : Nat)
  deriving DecidableEq, Repr

/-- The model's refusals. -/
inductive Refusal where
  /-- Raised by an arm of `exec` that has no meaning yet. Safe. -/
  | notModelled (mnemonic : String)
  /-- Raised by `step` on a command word whose `op` is not in the map of R94: the command has no meaning (R97). Safe
  (log entry 4). -/
  | illegalCommand (op : Byte)
  /-- Raised by a host write to a register the host may not write (R37, U22). Safe (log entry 15). -/
  | notHostWritable (reg : Reg)
  /-- Raised by a host write of a value wider than the register (R20). Safe (log entry 15). -/
  | valueTooWide (reg : Reg)
  /-- Raised by a host byte write to CBUF or PIX (R37, U22). Safe (log entry 15). -/
  | bufferNotHostWritable (space : Space)
  /-- Raised by a host read of an unspecified byte (R40). Safe (log entry 16). -/
  | unspecifiedByte (space : Space) (address : Nat)
  deriving DecidableEq, Repr

/-! ### Reset -/

/-- A buffer that lists nothing and has length 0. -/
def Buffer.fresh (gen : Nat) : Buffer := { mem := { cells := [] }, len := 0, gen := gen }

/-- The machine after reset (R38, R270): every register 0, every buffer empty with unspecified contents. The parameters
are the defaults of R6, no host action is waiting (log entries 1, 5, 8). -/
def State.reset : State where
  cursor := { pos := 0, srcValid := 0, val := 0 }
  src := Buffer.fresh 0
  cbuf := Buffer.fresh 0
  zbuf := Buffer.fresh 0
  pix := Buffer.fresh 0
  bmpFile := { bfType := 0, bfSize := 0, bfRes1 := 0, bfRes2 := 0, bfOffbits := 0, declOff := 0 }
  bmpInfo :=
    { biSize := 0, biWidth := 0, biHeight := 0, biPlanes := 0, biBitcount := 0, biCompression := 0,
      biSizeimage := 0, biXppm := 0, biYppm := 0, biClrused := 0, biClrimportant := 0 }
  bmpColour := { bcRmask := 0, bcGmask := 0, bcBmask := 0, bcAmask := 0, bcCstype := 0 }
  chunk := { chLen := 0, chTag := 0, chCrc := 0, ihdrSeen := 0 }
  ihdr :=
    { ihWidth := 0, ihHeight := 0, ihDepth := 0, ihCtype := 0, ihComp := 0, ihFilter := 0, ihInterlace := 0 }
  defilter := { dfW := 0, dfH := 0, dfY := 0, dfFt := 0 }
  cfgFlip := 0
  status := { stState := 0, stDone := 0, stErr := 0, stErrinfo := 0, stWarnTopdown := 0 }
  out := { outW := 0, outH := 0 }
  params := Config.defaultParams
  inputs := []

end Sys2Proof.Machine
end

