-- ==== Sys2Proof/Machine/Flags.lean ====
section
/-! DEFINITION. The status flags (R35, R241): the failure kinds with their codes, and every update of the status register
group the spec gives. -/

namespace Sys2Proof.Machine

/-- The five failure kinds (R241). -/
inductive ErrKind where
  | unreadableSource
  | badSignature
  | unsupportedVariant
  | truncatedStream
  | decompressionFailure
  deriving DecidableEq, Repr

/-- The code written to ST_ERR (R241). -/
def ErrKind.code : ErrKind → BitVec 3
  | .unreadableSource => 1
  | .badSignature => 2
  | .unsupportedVariant => 3
  | .truncatedStream => 4
  | .decompressionFailure => 5

/-- The status after `raise K(info)` (R246): FAULTED, the code, `info mod 2^64`, no result. ST_WARN_TOPDOWN keeps its
value. -/
def Status.failed (k : ErrKind) (info : Nat) (f : Status) : Status :=
  { f with stState := 1, stErr := k.code, stErrinfo := BitVec.ofNat 64 info, stDone := 0 }

/-- The status after CLR (R232): every flag 0. -/
def Status.cleared (_f : Status) : Status :=
  { stState := 0, stDone := 0, stErr := 0, stErrinfo := 0, stWarnTopdown := 0 }

/-- The status at the start of DECPNG (R215 line 1). -/
def Status.starting (f : Status) : Status := { f with stDone := 0 }

/-- The status at the start of DECBMP (R165 line 1). -/
def Status.startingBmp (f : Status) : Status := { f with stDone := 0, stWarnTopdown := 0 }

/-- The status at the successful end of DECBMP and DECPNG (R35). -/
def Status.completed (f : Status) : Status := { f with stDone := 1 }

/-- The warning of a negative height (R162, R163): set only, never cleared here. -/
def Status.warned (height : Int) (f : Status) : Status :=
  if height < 0 then { f with stWarnTopdown := 1 } else f

end Sys2Proof.Machine
end

