-- ==== Sys2Proof/Machine/Ops.lean ====
section
/-! DEFINITION. The shared operations: memory and buffers, register access, byte order, the result of a command, the
failure entry (R246) and the return from it (R232), the cursor primitives (R121, R122), the host's accesses (R37). -/

namespace Sys2Proof.Machine

/-! ### Memory -/

/-- The byte listed at an address. -/
def lookupCells : List Host.Cell → Nat → Option Byte
  | [], _ => none
  | (k, v) :: rest, a => if a = k then some v else lookupCells rest a

/-- List a byte at an address, in place of the one listed there if there is one. -/
def insertCells : List Host.Cell → Nat → Byte → List Host.Cell
  | [], a, v => [(a, v)]
  | (k, w) :: rest, a, v =>
    if a < k then (a, v) :: (k, w) :: rest
    else if a = k then (a, v) :: rest
    else (k, w) :: insertCells rest a v

/-- The memory that lists nothing. -/
def Memory.empty : Memory := { cells := [] }

/-- The byte at an address, `none` where nothing wrote one. -/
def Memory.get? (m : Memory) (a : Nat) : Option Byte := lookupCells m.cells a

/-- Write one byte. -/
def Memory.write (m : Memory) (a : Nat) (v : Byte) : Memory := { cells := insertCells m.cells a v }

/-- Write a sequence of bytes from an address up (R9 `MemWrite`). -/
def Memory.writeBytes (m : Memory) (a : Nat) : List Byte → Memory
  | [] => m
  | v :: vs => (m.write a v).writeBytes (a + 1) vs

/-- Forget the bytes at and beyond an address. -/
def Memory.below (m : Memory) (n : Nat) : Memory := { cells := m.cells.filter fun c => decide (c.1 < n) }

/-! ### Buffers -/

/-- The number under which a space's free values are taken. -/
def Space.code : Space → Nat
  | .src => 0
  | .cbuf => 1
  | .zbuf => 2
  | .pix => 3

/-- Read one byte: what the latest write put there (R71), a free value where nothing wrote (R38, R40, log entry 5). -/
def Buffer.byte (sp : Space) (b : Buffer) (a : Nat) : Byte :=
  (b.mem.get? a).getD (Config.unspecifiedByte sp.code b.gen a)

/-- Read `n` bytes, lowest address first (R9 `MemRead`). -/
def Buffer.bytes (sp : Space) (b : Buffer) (a : Nat) : Nat → List Byte
  | 0 => []
  | n + 1 => b.byte sp a :: b.bytes sp (a + 1) n

/-- Write one byte. -/
def Buffer.write (b : Buffer) (a : Nat) (v : Byte) : Buffer := { b with mem := b.mem.write a v }

/-- Write a sequence of bytes (R9 `MemWrite`). -/
def Buffer.writeBytes (b : Buffer) (a : Nat) (vs : List Byte) : Buffer := { b with mem := b.mem.writeBytes a vs }

/-- The contents become unspecified, the length stays (R246, log entry 6). -/
def Buffer.forget (b : Buffer) : Buffer := { mem := Memory.empty, len := b.len, gen := b.gen + 1 }

/-- The length becomes 0, so every byte lies beyond it and is unspecified (R40, log entry 7). -/
def Buffer.emptied (b : Buffer) : Buffer := { mem := Memory.empty, len := 0, gen := b.gen + 1 }

/-- Write the length register, the contents as they are. -/
def Buffer.setLen (b : Buffer) (n : Nat) : Buffer := { b with len := BitVec.ofNat 64 n }

/-- The host writes a length register: where it falls, the bytes beyond it become unspecified (R40, log entry 7). -/
def Buffer.hostSetLen (b : Buffer) (n : Nat) : Buffer :=
  if n < b.len.toNat then { mem := b.mem.below n, len := BitVec.ofNat 64 n, gen := b.gen + 1 } else b.setLen n

/-- The buffer that holds exactly a byte sequence from address 0. -/
def Buffer.holding (b : Buffer) (vs : List Byte) : Buffer :=
  (b.emptied.writeBytes 0 vs).setLen vs.length

/-! ### State updates, one per register group -/

def State.setCursor (s : State) (x : Cursor) : State := { s with cursor := x }
def State.setSrc (s : State) (x : Buffer) : State := { s with src := x }
def State.setCbuf (s : State) (x : Buffer) : State := { s with cbuf := x }
def State.setZbuf (s : State) (x : Buffer) : State := { s with zbuf := x }
def State.setPix (s : State) (x : Buffer) : State := { s with pix := x }
def State.setBmpFile (s : State) (x : BmpFile) : State := { s with bmpFile := x }
def State.setBmpInfo (s : State) (x : BmpInfo) : State := { s with bmpInfo := x }
def State.setBmpColour (s : State) (x : BmpColour) : State := { s with bmpColour := x }
def State.setChunk (s : State) (x : Chunk) : State := { s with chunk := x }
def State.setIhdr (s : State) (x : Ihdr) : State := { s with ihdr := x }
def State.setDefilter (s : State) (x : Defilter) : State := { s with defilter := x }
def State.setCfgFlip (s : State) (x : Bit) : State := { s with cfgFlip := x }
def State.setStatus (s : State) (x : Status) : State := { s with status := x }
def State.setOut (s : State) (x : Output) : State := { s with out := x }
def State.setInputs (s : State) (x : List HostInput) : State := { s with inputs := x }

/-- Write POS (R9: `pc <- t`). -/
def State.setPos (s : State) (n : Nat) : State := s.setCursor { s.cursor with pos := BitVec.ofNat 64 n }

/-- Write VAL with a zero-extended value (R21). -/
def State.setVal (s : State) (n : Nat) : State := s.setCursor { s.cursor with val := BitVec.ofNat 32 n }

/-- The buffer of a space. -/
def State.buf (s : State) : Space → Buffer
  | .src => s.src
  | .cbuf => s.cbuf
  | .zbuf => s.zbuf
  | .pix => s.pix

/-- Read one byte of a space. -/
def State.byte (s : State) (sp : Space) (a : Nat) : Byte := (s.buf sp).byte sp a

/-- Read a register as an unsigned number (R9 `x[NAME]`, R20). -/
def State.reg (s : State) : Reg → Nat
  | .cfgFlip => s.cfgFlip.toNat
  | .pos => s.cursor.pos.toNat
  | .val => s.cursor.val.toNat
  | .srcLen => s.src.len.toNat
  | .srcValid => s.cursor.srcValid.toNat
  | .clen => s.cbuf.len.toNat
  | .zlen => s.zbuf.len.toNat
  | .pixLen => s.pix.len.toNat
  | .bfType => s.bmpFile.bfType.toNat
  | .bfSize => s.bmpFile.bfSize.toNat
  | .bfRes1 => s.bmpFile.bfRes1.toNat
  | .bfRes2 => s.bmpFile.bfRes2.toNat
  | .bfOffbits => s.bmpFile.bfOffbits.toNat
  | .declOff => s.bmpFile.declOff.toNat
  | .biSize => s.bmpInfo.biSize.toNat
  | .biWidth => s.bmpInfo.biWidth.toNat
  | .biHeight => s.bmpInfo.biHeight.toNat
  | .biPlanes => s.bmpInfo.biPlanes.toNat
  | .biBitcount => s.bmpInfo.biBitcount.toNat
  | .biCompression => s.bmpInfo.biCompression.toNat
  | .biSizeimage => s.bmpInfo.biSizeimage.toNat
  | .biXppm => s.bmpInfo.biXppm.toNat
  | .biYppm => s.bmpInfo.biYppm.toNat
  | .biClrused => s.bmpInfo.biClrused.toNat
  | .biClrimportant => s.bmpInfo.biClrimportant.toNat
  | .bcRmask => s.bmpColour.bcRmask.toNat
  | .bcGmask => s.bmpColour.bcGmask.toNat
  | .bcBmask => s.bmpColour.bcBmask.toNat
  | .bcAmask => s.bmpColour.bcAmask.toNat
  | .bcCstype => s.bmpColour.bcCstype.toNat
  | .chLen => s.chunk.chLen.toNat
  | .chTag => s.chunk.chTag.toNat
  | .chCrc => s.chunk.chCrc.toNat
  | .ihdrSeen => s.chunk.ihdrSeen.toNat
  | .ihWidth => s.ihdr.ihWidth.toNat
  | .ihHeight => s.ihdr.ihHeight.toNat
  | .ihDepth => s.ihdr.ihDepth.toNat
  | .ihCtype => s.ihdr.ihCtype.toNat
  | .ihComp => s.ihdr.ihComp.toNat
  | .ihFilter => s.ihdr.ihFilter.toNat
  | .ihInterlace => s.ihdr.ihInterlace.toNat
  | .dfW => s.defilter.dfW.toNat
  | .dfH => s.defilter.dfH.toNat
  | .dfY => s.defilter.dfY.toNat
  | .dfFt => s.defilter.dfFt.toNat
  | .stState => s.status.stState.toNat
  | .stDone => s.status.stDone.toNat
  | .stErr => s.status.stErr.toNat
  | .stErrinfo => s.status.stErrinfo.toNat
  | .stWarnTopdown => s.status.stWarnTopdown.toNat
  | .outW => s.out.outW.toNat
  | .outH => s.out.outH.toNat

/-- The width of a register in bits (R20 to R36). -/
def Reg.width : Reg → Nat
  | .cfgFlip | .srcValid | .ihdrSeen | .stState | .stDone | .stWarnTopdown => 1
  | .stErr => 3
  | .ihDepth | .ihCtype | .ihComp | .ihFilter | .ihInterlace | .dfFt => 8
  | .bfType | .bfRes1 | .bfRes2 | .biPlanes | .biBitcount => 16
  | .pos | .srcLen | .clen | .zlen | .pixLen | .stErrinfo => 64
  | .val | .bfSize | .bfOffbits | .declOff | .biSize | .biWidth | .biHeight | .biCompression | .biSizeimage
  | .biXppm | .biYppm | .biClrused | .biClrimportant | .bcRmask | .bcGmask | .bcBmask | .bcAmask | .bcCstype
  | .chLen | .chTag | .chCrc | .ihWidth | .ihHeight | .dfW | .dfH | .dfY | .outW | .outH => 32

/-! ### Byte order -/

/-- `le(bytes)`: the first byte least significant (R9, R61). -/
def leNat : List Byte → Nat
  | [] => 0
  | b :: bs => b.toNat + 256 * leNat bs

/-- `be(bytes)`: the first byte most significant (R9, R60). -/
def beNat (bs : List Byte) : Nat := leNat bs.reverse

/-- The little-endian field of `n` bytes at offset `off` of a header (R102 to R104). -/
def leField (bs : List Byte) (off n : Nat) : Nat := leNat ((bs.drop off).take n)

/-- The big-endian field of `n` bytes at offset `off` of a header (R100, R101). -/
def beField (bs : List Byte) (off n : Nat) : Nat := beNat ((bs.drop off).take n)

/-! ### The result of a command -/

/-- How the pseudocode of a command, or a part of it, ends: with a value and the state it leaves, or at a `raise K(info)`
with the state the statements before it left (R240). -/
inductive Res (α : Type) where
  | ok (value : α) (state : State)
  | raised (kind : ErrKind) (info : Nat) (state : State)
  deriving DecidableEq, Repr

/-- Go on with the next statements; a `raise` ends the command (R9). -/
def Res.andThen {α β : Type} (r : Res α) (f : α → State → Res β) : Res β :=
  match r with
  | .ok v s => f v s
  | .raised k info s => .raised k info s

/-! ### The failure entry and the return from it -/

/-- `raise K(info)`, the failure entry (R246): the status record, PIX empty, the contents of CBUF and ZBUF unspecified
with CLEN and ZLEN kept (log entry 6). Everything else stays. -/
def takeFailure (k : ErrKind) (info : Nat) (s : State) : State :=
  (((s.setStatus (s.status.failed k info)).setPix s.pix.emptied).setCbuf s.cbuf.forget).setZbuf s.zbuf.forget

/-- The return (R232, R249): the status record cleared, the three buffers empty. Nothing is restored. -/
def clearFailure (s : State) : State :=
  (((s.setStatus s.status.cleared).setPix s.pix.emptied).setCbuf s.cbuf.emptied).setZbuf s.zbuf.emptied

/-- The state a finished command leaves. -/
def Res.finish : Res Unit → State
  | .ok _ s => s
  | .raised k info s => takeFailure k info s

/-- Run a command other than CLR: while FAULTED it changes nothing (R248, log entry 3), else its pseudocode runs to its
end or to a failure. -/
def command (body : State → Res Unit) (s : State) : Host.Outcome State Fault Refusal :=
  .next (if s.faulted then s else (body s).finish)

/-! ### The cursor primitives -/

/-- `CurRead(n)` (R121): the validity check, then the length check, then the bytes; a failing read moves nothing. -/
def curRead (n : Nat) (s : State) : Res (List Byte) :=
  if s.cursor.srcValid = 0 then .raised .unreadableSource 0 s
  else if s.src.len.toNat - s.cursor.pos.toNat < n then .raised .truncatedStream s.cursor.pos.toNat s
  else .ok (s.src.bytes .src s.cursor.pos.toNat n) (s.setPos (s.cursor.pos.toNat + n))

/-- `CurSkip(n)` (R122): `CurRead(n)` with the result thrown away. -/
def curSkip (n : Nat) (s : State) : Res Unit :=
  (curRead n s).andThen fun _ s => .ok () s

/-! ### The host's accesses -/

/-- The host writes one byte (R37): only SRC and ZBUF, only below the capacity (log entries 14, 15). -/
def hostWriteByte (sp : Space) (a : Nat) (v : Byte) (s : State) : Host.Outcome State Fault Refusal :=
  match sp with
  | .src => if a < s.params.srcCap then .next (s.setSrc (s.src.write a v)) else .fault (.noSuchAddress .src a)
  | .zbuf => if a < s.params.zbufCap then .next (s.setZbuf (s.zbuf.write a v)) else .fault (.noSuchAddress .zbuf a)
  | .cbuf => .refused (.bufferNotHostWritable .cbuf)
  | .pix => .refused (.bufferNotHostWritable .pix)

/-- The registers the host may write (R37). -/
def Reg.hostWritable : Reg → Bool
  | .srcLen | .srcValid | .zlen | .dfW | .dfH => true
  | _ => false

/-- A host write to a writable register, of a value that fits it. A length above its capacity has no effect (R37). -/
def hostSetReg (r : Reg) (v : Nat) (s : State) : State :=
  match r with
  | .srcLen => if v ≤ s.params.srcCap then s.setSrc (s.src.hostSetLen v) else s
  | .srcValid => s.setCursor { s.cursor with srcValid := BitVec.ofNat 1 v }
  | .zlen => if v ≤ s.params.zbufCap then s.setZbuf (s.zbuf.hostSetLen v) else s
  | .dfW => s.setDefilter { s.defilter with dfW := BitVec.ofNat 32 v }
  | .dfH => s.setDefilter { s.defilter with dfH := BitVec.ofNat 32 v }
  | _ => s

/-- The host writes a register (R37, U22; log entry 15). -/
def hostWriteReg (r : Reg) (v : Nat) (s : State) : Host.Outcome State Fault Refusal :=
  if r.hostWritable = false then .refused (.notHostWritable r)
  else if 2 ^ r.width ≤ v then .refused (.valueTooWide r)
  else .next (hostSetReg r v s)

/-- What a host read of a buffer byte gives (R37, R40): the byte, or a refusal where it is unspecified (log entry 16). -/
def hostByte (sp : Space) (a : Nat) (s : State) : Except Refusal Byte :=
  if a < (s.buf sp).len.toNat then
    match (s.buf sp).mem.get? a with
    | some v => .ok v
    | none => .error (.unspecifiedByte sp a)
  else .error (.unspecifiedByte sp a)

/-- The host reads a buffer byte: no side effect (R66). -/
def hostReadByte (sp : Space) (a : Nat) (s : State) : Host.Outcome State Fault Refusal :=
  match hostByte sp a s with
  | .ok _ => .next s
  | .error r => .refused r

/-- The reset event (R270, R271): every register at its reset value, every buffer empty with unspecified contents. The
parameters and the host's further actions stay (log entry 17). -/
def hostReset (s : State) : State :=
  { State.reset with
    params := s.params
    inputs := s.inputs
    src := Buffer.fresh (s.src.gen + 1)
    cbuf := Buffer.fresh (s.cbuf.gen + 1)
    zbuf := Buffer.fresh (s.zbuf.gen + 1)
    pix := Buffer.fresh (s.pix.gen + 1) }

end Sys2Proof.Machine
end

