-- ==== Sys2Proof/Machine/Operands.lean ====
section
/-! DEFINITION. Operand forms and working values: the record addressing and neighbours of the defilter with its
predictors (R68, R181 to R184), the geometry of the BMP unit (R160), the header tags (R62, R100). -/

namespace Sys2Proof.Machine

/-! ### Defilter operands -/

/-- The record length `S = 4*W + 1` (R91). -/
def recordLen (w : Nat) : Nat := Config.pngBpp * w + 1

/-- `row(y) = y * S`, the ZBUF address of record `y` (R68). -/
def rowStart (w y : Nat) : Nat := y * recordLen w

/-- `left(y, i)` (R181). -/
def leftOf (b : Buffer) (w y i : Nat) : Byte :=
  if 5 ≤ i then b.byte .zbuf (rowStart w y + i - Config.pngBpp) else 0

/-- `up(y, i)` (R181). -/
def upOf (b : Buffer) (w y i : Nat) : Byte :=
  if 1 ≤ y then b.byte .zbuf (rowStart w (y - 1) + i) else 0

/-- `upleft(y, i)` (R181). -/
def upleftOf (b : Buffer) (w y i : Nat) : Byte :=
  if 1 ≤ y ∧ 5 ≤ i then b.byte .zbuf (rowStart w (y - 1) + i - Config.pngBpp) else 0

/-- The addition law (R182): 8-bit wraparound. -/
def add8 (filt pred : Byte) : Byte := BitVec.ofNat 8 ((filt.toNat + pred.toNat) % 256)

/-- The Average predictor (R183): the sum is exact, then halved. -/
def avg (left up : Byte) : Byte := BitVec.ofNat 8 ((left.toNat + up.toNat) / 2)

/-- The Paeth predictor (R184), over the integers, ties to left, then up. -/
def paeth (left up upleft : Byte) : Byte :=
  let a : Int := left.toNat
  let b : Int := up.toNat
  let c : Int := upleft.toNat
  let p := a + b - c
  let pa := (p - a).natAbs
  let pb := (p - b).natAbs
  let pc := (p - c).natAbs
  if pa ≤ pb ∧ pa ≤ pc then left
  else if pb ≤ pc then up
  else upleft

/-! ### BMP geometry -/

/-- The working values of R160 as functions of the info header. `W` and `HS` are two's complement. -/
def BmpInfo.width (h : BmpInfo) : Int := h.biWidth.toInt

/-- `HS` (R160). -/
def BmpInfo.height (h : BmpInfo) : Int := h.biHeight.toInt

/-- `BPP`, bytes per pixel (R160). -/
def BmpInfo.bpp (h : BmpInfo) : Nat := h.biBitcount.toNat / 8

/-- `ROWS = abs(HS)` (R160, R162). -/
def BmpInfo.rows (h : BmpInfo) : Nat := h.height.natAbs

/-- `ROWBYTES = W * BPP` (R160), for `W` at least 1. -/
def BmpInfo.rowBytes (h : BmpInfo) : Nat := h.width.toNat * h.bpp

/-- A row length rounded up to a multiple of 4 (R64, R160). -/
def alignUp (rowBytes : Nat) : Nat := Config.align * ((rowBytes + 3) / Config.align)

/-- `STRIDE` (R160). -/
def BmpInfo.stride (h : BmpInfo) : Nat := alignUp h.rowBytes

/-- `PAD = STRIDE - ROWBYTES` (R160). -/
def BmpInfo.pad (h : BmpInfo) : Nat := h.stride - h.rowBytes

/-- `NEED = ROWBYTES * ROWS` (R160). -/
def BmpInfo.need (h : BmpInfo) : Nat := h.rowBytes * h.rows

/-! ### Tags -/

/-- "BM" read little-endian (R62). -/
abbrev magicBM : Half := 0x4D42

/-- "IHDR" (R62). -/
abbrev tagIHDR : Word := 0x49484452

/-- "IDAT" (R62). -/
abbrev tagIDAT : Word := 0x49444154

/-- "IEND" (R62). -/
abbrev tagIEND : Word := 0x49454E44

/-! ### Parameters as functions -/

/-- `BmpCompOk` (R6, R146). -/
def bmpCompOk (p : Config.Params) (c : Word) : Bool := decide (c ∉ p.bmpCompRefused)

/-- The answer of a finite table. -/
def tableAnswer : List (List Byte × Option (List Byte)) → List Byte → Option (Option (List Byte))
  | [], _ => none
  | (z, r) :: rest, x => if z = x then some r else tableAnswer rest x

/-- `Inflate` (R212): a total function, the given answers first, else the free value (log entry 9). -/
def inflateOf (p : Config.Params) (z : List Byte) : Option (List Byte) :=
  match tableAnswer p.inflateTable z with
  | some r => r
  | none => Config.inflate z

end Sys2Proof.Machine
end

