-- ==== Sys2Proof/Machine/Cursor.lean ====
section
/-! DEFINITION. The byte cursor commands (spec/40_byte_cursor.md). -/

namespace Sys2Proof.Machine

/-- Read `n` bytes and write VAL with their value under a byte order, zero-extended (R123 to R126). -/
def readVal (n : Nat) (order : List Byte → Nat) (s : State) : Res Unit :=
  (curRead n s).andThen fun b s => .ok () (s.setVal (order b))

/-- RD8 (R123). -/
def execRd8 (s : State) : Host.Outcome State Fault Refusal := command (readVal 1 leNat) s

/-- RD16LE (R124). -/
def execRd16le (s : State) : Host.Outcome State Fault Refusal := command (readVal 2 leNat) s

/-- RD32LE (R125). -/
def execRd32le (s : State) : Host.Outcome State Fault Refusal := command (readVal 4 leNat) s

/-- RD32BE (R126). -/
def execRd32be (s : State) : Host.Outcome State Fault Refusal := command (readVal 4 beNat) s

/-- SKIP (R128). -/
def execSkip (count : Nat) (s : State) : Host.Outcome State Fault Refusal := command (curSkip count) s

/-- SEEK (R127): unchecked, `pc <- zext_64(arg)`. -/
def seekTo (target : Nat) (s : State) : Res Unit := .ok () (s.setPos target)

/-- SEEK (R127). -/
def execSeek (target : Nat) (s : State) : Host.Outcome State Fault Refusal := command (seekTo target) s

end Sys2Proof.Machine
end

