-- ==== Sys2Proof/Machine/Header.lean ====
section
/-! DEFINITION. The header parser commands and the two gates (spec/41_header_parser.md). Each command reads its record
whole before it writes a register (R140). -/

namespace Sys2Proof.Machine

/-- The file header registers of 14 bytes (R102, R141). -/
def bmpFileOf (b : List Byte) : BmpFile where
  bfType := BitVec.ofNat 16 (leField b 0 2)
  bfSize := BitVec.ofNat 32 (leField b 2 4)
  bfRes1 := BitVec.ofNat 16 (leField b 6 2)
  bfRes2 := BitVec.ofNat 16 (leField b 8 2)
  bfOffbits := BitVec.ofNat 32 (leField b 10 4)
  declOff := BitVec.ofNat 32 (leField b 10 4)

/-- The info header registers of 40 bytes (R103, R142). -/
def bmpInfoOf (b : List Byte) : BmpInfo where
  biSize := BitVec.ofNat 32 (leField b 0 4)
  biWidth := BitVec.ofNat 32 (leField b 4 4)
  biHeight := BitVec.ofNat 32 (leField b 8 4)
  biPlanes := BitVec.ofNat 16 (leField b 12 2)
  biBitcount := BitVec.ofNat 16 (leField b 14 2)
  biCompression := BitVec.ofNat 32 (leField b 16 4)
  biSizeimage := BitVec.ofNat 32 (leField b 20 4)
  biXppm := BitVec.ofNat 32 (leField b 24 4)
  biYppm := BitVec.ofNat 32 (leField b 28 4)
  biClrused := BitVec.ofNat 32 (leField b 32 4)
  biClrimportant := BitVec.ofNat 32 (leField b 36 4)

/-- The colour header registers (R104, R143). -/
def bmpColourOf (b : List Byte) : BmpColour where
  bcRmask := BitVec.ofNat 32 (leField b 0 4)
  bcGmask := BitVec.ofNat 32 (leField b 4 4)
  bcBmask := BitVec.ofNat 32 (leField b 8 4)
  bcAmask := BitVec.ofNat 32 (leField b 12 4)
  bcCstype := BitVec.ofNat 32 (leField b 16 4)

/-- The IHDR registers of a 13-byte payload (R101, R144). -/
def ihdrOf (b : List Byte) : Ihdr where
  ihWidth := BitVec.ofNat 32 (beField b 0 4)
  ihHeight := BitVec.ofNat 32 (beField b 4 4)
  ihDepth := BitVec.ofNat 8 (beField b 8 1)
  ihCtype := BitVec.ofNat 8 (beField b 9 1)
  ihComp := BitVec.ofNat 8 (beField b 10 1)
  ihFilter := BitVec.ofNat 8 (beField b 11 1)
  ihInterlace := BitVec.ofNat 8 (beField b 12 1)

/-- PBMPF (R141): the registers are written before the signature is checked. -/
def parseBmpFile (s : State) : Res Unit :=
  (curRead Config.fileHdrBytes s).andThen fun b s =>
    if (bmpFileOf b).bfType = magicBM then .ok () (s.setBmpFile (bmpFileOf b))
    else .raised .badSignature (bmpFileOf b).bfType.toNat (s.setBmpFile (bmpFileOf b))

/-- PBMPF (R141). -/
def execPbmpf (s : State) : Host.Outcome State Fault Refusal := command parseBmpFile s

/-- PBMPI (R142): nothing is checked. -/
def parseBmpInfo (s : State) : Res Unit :=
  (curRead Config.infoHdrBytes s).andThen fun b s => .ok () (s.setBmpInfo (bmpInfoOf b))

/-- PBMPI (R142). -/
def execPbmpi (s : State) : Host.Outcome State Fault Refusal := command parseBmpInfo s

/-- PBMPC (R143): BI_BITCOUNT is not looked at. -/
def parseBmpColour (s : State) : Res Unit :=
  (curRead s.params.colourHdrBytes s).andThen fun b s => .ok () (s.setBmpColour (bmpColourOf b))

/-- PBMPC (R143). -/
def execPbmpc (s : State) : Host.Outcome State Fault Refusal := command parseBmpColour s

/-- PIHDR (R144): the registers and IHDR_SEEN. -/
def parseIhdr (s : State) : Res Unit :=
  (curRead 13 s).andThen fun b s => .ok () ((s.setIhdr (ihdrOf b)).setChunk { s.chunk with ihdrSeen := 1 })

/-- PIHDR (R144). -/
def execPihdr (s : State) : Host.Outcome State Fault Refusal := command parseIhdr s

/-- PCHUNK (R145): the payload and the CRC are not consumed. -/
def parseChunk (s : State) : Res Unit :=
  (curRead 8 s).andThen fun b s =>
    .ok () (s.setChunk
      { s.chunk with chLen := BitVec.ofNat 32 (beField b 0 4), chTag := BitVec.ofNat 32 (beField b 4 4) })

/-- PCHUNK (R145). -/
def execPchunk (s : State) : Host.Outcome State Fault Refusal := command parseChunk s

/-- `BmpGate` (R146), the checks in its order. -/
def bmpGate (s : State) : Res Unit :=
  let h := s.bmpInfo
  if h.biBitcount ≠ 24 ∧ h.biBitcount ≠ 32 then .raised .unsupportedVariant h.biBitcount.toNat s
  else if bmpCompOk s.params h.biCompression = false then .raised .unsupportedVariant h.biCompression.toNat s
  else if h.width < 1 ∨ h.height = 0 then .raised .unsupportedVariant 0 s
  else if s.params.pixCap < h.need then .raised .unsupportedVariant h.need s
  else .ok () s

/-- The bytes of the image an IHDR announces (R147). -/
def Ihdr.need (h : Ihdr) : Nat := 4 * h.ihWidth.toNat * h.ihHeight.toNat

/-- `IhdrGate` (R147), the checks in its order; IH_COMP and IH_FILTER are not checked. -/
def ihdrGate (s : State) : Res Unit :=
  let h := s.ihdr
  if h.ihDepth ≠ 8 then .raised .unsupportedVariant h.ihDepth.toNat s
  else if h.ihCtype ≠ s.params.ctRgba then .raised .unsupportedVariant h.ihCtype.toNat s
  else if h.ihInterlace ≠ s.params.ilNone then .raised .unsupportedVariant h.ihInterlace.toNat s
  else if h.ihWidth = 0 ∨ h.ihHeight = 0 then .raised .unsupportedVariant 0 s
  else if s.params.pixCap < h.need then .raised .unsupportedVariant h.need s
  else .ok () s

end Sys2Proof.Machine
end

