-- ==== Sys2Proof/Machine/Bmp.lean ====
section
/-! DEFINITION. The BMP unit: rows without padding, channel reorder, the whole BMP decode (spec/42_bmp_unit.md). -/

namespace Sys2Proof.Machine

/-- The row loop of BXROWS (R163), `n` rows from row `r`: read a row, store it dense, skip its padding. -/
def bmpRowLoop (rowBytes pad : Nat) : Nat → Nat → State → Res Unit
  | 0, _, s => .ok () s
  | n + 1, r, s =>
    (curRead rowBytes s).andThen fun v s =>
      (curSkip pad (s.setPix (s.pix.writeBytes (r * rowBytes) v))).andThen fun _ s =>
        bmpRowLoop rowBytes pad n (r + 1) s

/-- The block read of BXROWS (R163), where the rows have no padding. -/
def bmpBlock (need : Nat) (s : State) : Res Unit :=
  (curRead need s).andThen fun v s => .ok () (s.setPix (s.pix.writeBytes 0 v))

/-- The pixels of BXROWS (R163), by the block or row by row. -/
def bmpPixels (h : BmpInfo) (s : State) : Res Unit :=
  if h.pad = 0 then bmpBlock h.need s else bmpRowLoop h.rowBytes h.pad h.rows 0 s

/-- BXROWS (R163): the gate, the warning of a negative height, PIX emptied, the pixels, PIX_LEN. -/
def readRows (s : State) : Res Unit :=
  (bmpGate s).andThen fun _ s =>
    (bmpPixels s.bmpInfo
      ((s.setStatus (s.status.warned s.bmpInfo.height)).setPix s.pix.emptied)).andThen fun _ s =>
        .ok () (s.setPix (s.pix.setLen s.bmpInfo.need))

/-- BXROWS (R163). -/
def execBxrows (s : State) : Host.Outcome State Fault Refusal := command readRows s

/-- Swap the bytes at offsets 0 and 2 of pixel `p` (R164). -/
def swapPixel (bpp p : Nat) (b : Buffer) : Buffer :=
  let t := b.byte .pix (p * bpp)
  (b.write (p * bpp) (b.byte .pix (p * bpp + 2))).write (p * bpp + 2) t

/-- The pixel loop of BXSWAP (R164), `n` pixels from pixel `p`. -/
def swapLoop (bpp : Nat) : Nat → Nat → Buffer → Buffer
  | 0, _, b => b
  | n + 1, p, b => swapLoop bpp n (p + 1) (swapPixel bpp p b)

/-- BXSWAP (R164). -/
def swapChannels (s : State) : Res Unit :=
  let h := s.bmpInfo
  if h.biBitcount ≠ 24 ∧ h.biBitcount ≠ 32 then .raised .unsupportedVariant h.biBitcount.toNat s
  else .ok () (s.setPix (swapLoop h.bpp (s.pix.len.toNat / h.bpp) 0 s.pix))

/-- BXSWAP (R164). -/
def execBxswap (s : State) : Host.Outcome State Fault Refusal := command swapChannels s

/-- DECBMP lines 1 and 2 (R165): the result cleared, the cursor at 0. -/
def startBmp (s : State) : State :=
  ((s.setStatus s.status.startingBmp).setPix s.pix.emptied).setPos 0

/-- DECBMP line 6 (R165): the colour header, at 32 bits per pixel only. -/
def colourIfDeep (s : State) : Res Unit :=
  if s.bmpInfo.biBitcount = 32 then parseBmpColour s else .ok () s

/-- The header bytes after the file header that DECBMP line 7 counts (R165). -/
def headerBytes (s : State) : Nat :=
  if s.bmpInfo.biBitcount = 32 then Config.infoHdrBytes + s.params.colourHdrBytes else Config.infoHdrBytes

/-- DECBMP line 7 (R165, R166): BI_SIZE and BF_OFFBITS recomputed. -/
def recomputeHeader (s : State) : State :=
  (s.setBmpInfo { s.bmpInfo with biSize := BitVec.ofNat 32 (headerBytes s) }).setBmpFile
    { s.bmpFile with bfOffbits := BitVec.ofNat 32 (Config.fileHdrBytes + headerBytes s) }

/-- DECBMP line 11 (R165, R36). -/
def completeBmp (s : State) : State :=
  (s.setOut { outW := s.bmpInfo.biWidth, outH := s.bmpInfo.biHeight }).setStatus s.status.completed

/-- DECBMP (R165), its eleven lines. -/
def decodeBmp (s : State) : Res Unit :=
  (parseBmpFile (startBmp s)).andThen fun _ s =>
    (parseBmpInfo s).andThen fun _ s =>
      (bmpGate s).andThen fun _ s =>
        (colourIfDeep s).andThen fun _ s =>
          (seekTo (recomputeHeader s).bmpFile.declOff.toNat (recomputeHeader s)).andThen fun _ s =>
            (readRows s).andThen fun _ s =>
              (swapChannels s).andThen fun _ s => .ok () (completeBmp s)

/-- DECBMP (R165). -/
def execDecbmp (s : State) : Host.Outcome State Fault Refusal := command decodeBmp s

end Sys2Proof.Machine
end

