-- ==== Sys2Proof/Machine/Filter.lean ====
section
/-! DEFINITION. The scanline defilter: the five filter operations and the commands that run them (spec/43_defilter.md). -/

namespace Sys2Proof.Machine

/-- Reconstruct `n` sample bytes of row `y` from offset `i` up, in place (R180, R181): each byte becomes the wraparound
sum (R182) of itself and the predictor of its neighbours as they then stand. -/
def reconLoop (pred : Byte → Byte → Byte → Byte) (w y : Nat) : Nat → Nat → Buffer → Buffer
  | 0, _, b => b
  | n + 1, i, b =>
    reconLoop pred w y n (i + 1)
      (b.write (rowStart w y + i)
        (add8 (b.byte .zbuf (rowStart w y + i)) (pred (leftOf b w y i) (upOf b w y i) (upleftOf b w y i))))

/-- Reconstruct the `4*W` sample bytes of row `y` of ZBUF, `W` = DF_W (R180). -/
def reconRow (pred : Byte → Byte → Byte → Byte) (y : Nat) (s : State) : State :=
  s.setZbuf (reconLoop pred s.defilter.dfW.toNat y (Config.pngBpp * s.defilter.dfW.toNat) 1 s.zbuf)

/-- F_NONE on row `y` (R185): no change. -/
def rowNone (_y : Nat) (s : State) : State := s

/-- F_SUB on row `y` (R186). -/
def rowSub (y : Nat) (s : State) : State := reconRow (fun left _ _ => left) y s

/-- F_UP on row `y` (R187). -/
def rowUp (y : Nat) (s : State) : State := reconRow (fun _ up _ => up) y s

/-- F_AVG on row `y` (R188). -/
def rowAvg (y : Nat) (s : State) : State := reconRow (fun left up _ => avg left up) y s

/-- F_PAETH on row `y` (R189). -/
def rowPaeth (y : Nat) (s : State) : State := reconRow paeth y s

/-- F_NONE, the record at the row pointer DF_Y (R22, R185; log entry 13). -/
def execFNone (s : State) : Host.Outcome State Fault Refusal := .next (rowNone s.defilter.dfY.toNat s)

/-- F_SUB, the record at the row pointer DF_Y (R22, R186; log entry 13). -/
def execFSub (s : State) : Host.Outcome State Fault Refusal := .next (rowSub s.defilter.dfY.toNat s)

/-- F_UP, the record at the row pointer DF_Y (R22, R187; log entry 13). -/
def execFUp (s : State) : Host.Outcome State Fault Refusal := .next (rowUp s.defilter.dfY.toNat s)

/-- F_AVG, the record at the row pointer DF_Y (R22, R188; log entry 13). -/
def execFAvg (s : State) : Host.Outcome State Fault Refusal := .next (rowAvg s.defilter.dfY.toNat s)

/-- F_PAETH, the record at the row pointer DF_Y (R22, R189; log entry 13). -/
def execFPaeth (s : State) : Host.Outcome State Fault Refusal := .next (rowPaeth s.defilter.dfY.toNat s)

/-- The dispatch of DFROW on the filter type (R106 (a), R195). -/
def applyFilter : FilterType → Nat → State → State
  | .none, y, s => rowNone y s
  | .sub, y, s => rowSub y s
  | .up, y, s => rowUp y s
  | .average, y, s => rowAvg y s
  | .paeth, y, s => rowPaeth y s

/-- The state in which the record of row `y` is run: DF_Y and DF_FT written (R195). -/
def fetchRow (y : Nat) (s : State) : State :=
  s.setDefilter
    { s.defilter with
      dfY := BitVec.ofNat 32 y
      dfFt := s.zbuf.byte .zbuf (rowStart s.defilter.dfW.toNat y) }

/-- DFROW (R195, R96). -/
def defilterRow (y : Nat) (s : State) : Res Unit :=
  if s.defilter.dfH.toNat ≤ y then .raised .unsupportedVariant y s
  else if s.zbuf.len.toNat < (y + 1) * recordLen s.defilter.dfW.toNat then
    .raised .truncatedStream s.zbuf.len.toNat s
  else
    match filterOf (fetchRow y s).defilter.dfFt with
    | some f => .ok () (applyFilter f y (fetchRow y s))
    | none => .raised .unsupportedVariant (y * 256 + (fetchRow y s).defilter.dfFt.toNat) (fetchRow y s)

/-- DFROW (R195). -/
def execDfrow (row : Nat) (s : State) : Host.Outcome State Fault Refusal := command (defilterRow row) s

/-- The row loop of DFRUN (R196), `n` rows from row `y`. -/
def defilterRows : Nat → Nat → State → Res Unit
  | 0, _, s => .ok () s
  | n + 1, y, s => (defilterRow y s).andThen fun _ s => defilterRows n (y + 1) s

/-- DFRUN (R196). -/
def defilterImage (s : State) : Res Unit :=
  if s.zbuf.len.toNat < s.defilter.dfH.toNat * recordLen s.defilter.dfW.toNat then
    .raised .truncatedStream s.zbuf.len.toNat s
  else defilterRows s.defilter.dfH.toNat 0 s

/-- DFRUN (R196). -/
def execDfrun (s : State) : Host.Outcome State Fault Refusal := command defilterImage s

end Sys2Proof.Machine
end

