-- ==== Sys2Proof/Machine/Png.lean ====
section
/-! DEFINITION. The PNG sequence: chunk loop, inflate call, pixel extractor, whole PNG decode (spec/44_png_sequence.md). -/

namespace Sys2Proof.Machine

/-- The payload of an IHDR chunk of length `len` (R211): its length, PIHDR, the gate, the rest skipped. -/
def ihdrPayload (len : Nat) (s : State) : Res Unit :=
  if len < 13 then .raised .truncatedStream s.cursor.pos.toNat s
  else
    (parseIhdr s).andThen fun _ s =>
      (ihdrGate s).andThen fun _ s => curSkip (len - 13) s

/-- The payload of an IDAT chunk of length `len` (R211): appended to CBUF. -/
def idatPayload (len : Nat) (s : State) : Res Unit :=
  if s.params.cbufCap < s.cbuf.len.toNat + len then .raised .unsupportedVariant (s.cbuf.len.toNat + len) s
  else
    (curRead len s).andThen fun v s =>
      .ok () (s.setCbuf ((s.cbuf.writeBytes s.cbuf.len.toNat v).setLen (s.cbuf.len.toNat + len)))

/-- The payload of a chunk, by its tag (R106 (c), R211). -/
def chunkPayload (tag : Word) (len : Nat) (s : State) : Res Unit :=
  if tag = tagIHDR then ihdrPayload len s
  else if tag = tagIDAT then idatPayload len s
  else curSkip len s

/-- The CRC of a chunk, stored and compared with nothing (R211, R216 (g)). -/
def chunkCrc (s : State) : Res Unit :=
  (curRead 4 s).andThen fun c s => .ok () (s.setChunk { s.chunk with chCrc := BitVec.ofNat 32 (beNat c) })

/-- One turn of the chunk loop (R211); the value says whether the loop stops. -/
def chunkTurn (first : Bool) (s : State) : Res Bool :=
  (parseChunk s).andThen fun _ s =>
    let tag := s.chunk.chTag
    if first = true ∧ tag ≠ tagIHDR then .raised .badSignature tag.toNat s
    else
      (chunkPayload tag s.chunk.chLen.toNat s).andThen fun _ s =>
        (chunkCrc s).andThen fun _ s => .ok (decide (tag = tagIEND)) s

/-- The chunk loop (R211), at most `n` turns. With `chunkTurns` turns the bound is never met
(`chunkLoop_fuel` of Laws/Png.lean; log entry 18). -/
def chunkLoop : Nat → Bool → State → Res Unit
  | 0, _, s => .raised .truncatedStream s.cursor.pos.toNat s
  | n + 1, first, s =>
    (chunkTurn first s).andThen fun stop s => if stop then .ok () s else chunkLoop n false s

/-- More turns than the source has bytes for: every turn that goes on consumes at least 12 (R283). -/
def chunkTurns (s : State) : Nat := (s.src.len.toNat - s.cursor.pos.toNat) / 12 + 1

/-- The state in which the chunk loop starts (R211): CBUF empty, no IHDR seen. -/
def startChunks (s : State) : State :=
  (s.setCbuf s.cbuf.emptied).setChunk { s.chunk with ihdrSeen := 0 }

/-- CHUNKS (R211). -/
def readChunks (s : State) : Res Unit :=
  chunkLoop (chunkTurns (startChunks s)) true (startChunks s)

/-- CHUNKS (R211). -/
def execChunks (s : State) : Host.Outcome State Fault Refusal := command readChunks s

/-- INFLATE (R213). -/
def inflateStream (s : State) : Res Unit :=
  match inflateOf s.params (s.cbuf.bytes .cbuf 0 s.cbuf.len.toNat) with
  | none => .raised .decompressionFailure 0 s
  | some r =>
    if s.params.zbufCap < r.length then .raised .decompressionFailure r.length s
    else .ok () (s.setZbuf (s.zbuf.holding r))

/-- INFLATE (R213). -/
def execInflate (s : State) : Host.Outcome State Fault Refusal := command inflateStream s

/-- The source row of output row `r` of `h` rows (R214). -/
def sourceRow (flip : Bit) (h r : Nat) : Nat := if flip = 1 then h - 1 - r else r

/-- The row loop of PXRUN (R214), `n` rows from row `r`, out of the buffer `z`. -/
def pixelLoop (flip : Bit) (w h : Nat) (z : Buffer) : Nat → Nat → Buffer → Buffer
  | 0, _, b => b
  | n + 1, r, b =>
    pixelLoop flip w h z n (r + 1)
      (b.writeBytes (r * (Config.pngBpp * w))
        (z.bytes .zbuf (rowStart w (sourceRow flip h r) + 1) (Config.pngBpp * w)))

/-- PXRUN (R214). -/
def extractPixels (s : State) : Res Unit :=
  let w := s.defilter.dfW.toNat
  let h := s.defilter.dfH.toNat
  if s.zbuf.len.toNat < h * recordLen w then .raised .truncatedStream s.zbuf.len.toNat s
  else if s.params.pixCap < h * (Config.pngBpp * w) then .raised .unsupportedVariant (h * (Config.pngBpp * w)) s
  else .ok () (s.setPix ((pixelLoop s.cfgFlip w h s.zbuf h 0 s.pix.emptied).setLen (h * (Config.pngBpp * w))))

/-- PXRUN (R214). -/
def execPxrun (s : State) : Host.Outcome State Fault Refusal := command extractPixels s

/-- DECPNG lines 1 and 2 (R215): the result and ZBUF cleared, the cursor at 0. -/
def startPng (s : State) : State :=
  (((s.setStatus s.status.starting).setPix s.pix.emptied).setZbuf s.zbuf.emptied).setPos 0

/-- DECPNG line 3 (R105, R215): the signature. -/
def checkSignature (s : State) : Res Unit :=
  (curRead 8 s).andThen fun b s =>
    if b = s.params.pngSig then .ok () s else .raised .badSignature (beField b 0 4) s

/-- DECPNG line 6 (R215). -/
def frameFromIhdr (s : State) : State :=
  s.setDefilter { s.defilter with dfW := s.ihdr.ihWidth, dfH := s.ihdr.ihHeight }

/-- DECPNG line 9 (R215, R36). -/
def completePng (s : State) : State :=
  (s.setOut { outW := s.ihdr.ihWidth, outH := s.ihdr.ihHeight }).setStatus s.status.completed

/-- DECPNG (R215), its nine lines. -/
def decodePng (s : State) : Res Unit :=
  (checkSignature (startPng s)).andThen fun _ s =>
    (readChunks s).andThen fun _ s =>
      (inflateStream s).andThen fun _ s =>
        (defilterImage (frameFromIhdr s)).andThen fun _ s =>
          (extractPixels s).andThen fun _ s => .ok () (completePng s)

/-- DECPNG (R215). -/
def execDecpng (s : State) : Host.Outcome State Fault Refusal := command decodePng s

end Sys2Proof.Machine
end

