-- ==== Sys2Proof/Machine/System.lean ====
section
/-! DEFINITION. System and configuration commands (spec/45_system.md). -/

namespace Sys2Proof.Machine

/-- NOP (R230): no register and no buffer changes. -/
def execNop (s : State) : Host.Outcome State Fault Refusal :=
  command (fun s => .ok () s) s

/-- SETFLIP (R231): `x[CFG_FLIP] <- arg[0]`. -/
def execSetflip (flag : Bit) (s : State) : Host.Outcome State Fault Refusal :=
  command (fun s => .ok () (s.setCfgFlip flag)) s

/-- CLR (R232): the one command accepted while FAULTED (R248), legal in IDLE too. -/
def execClr (s : State) : Host.Outcome State Fault Refusal :=
  .next (clearFailure s)

end Sys2Proof.Machine
end

