-- ==== Sys2Proof/Machine/Dispatch.lean ====
section
/-! DEFINITION. One arm per instruction: its meaning. -/

namespace Sys2Proof.Machine

def exec (i : Instr) (s : State) : Host.Outcome State Fault Refusal :=
  match i with
  | .fNone => Sys2Proof.Machine.execFNone s
  | .fSub => Sys2Proof.Machine.execFSub s
  | .fUp => Sys2Proof.Machine.execFUp s
  | .fAvg => Sys2Proof.Machine.execFAvg s
  | .fPaeth => Sys2Proof.Machine.execFPaeth s
  | .nop => Sys2Proof.Machine.execNop s
  | .setflip flag => Sys2Proof.Machine.execSetflip flag s
  | .clr => Sys2Proof.Machine.execClr s
  | .rd8 => Sys2Proof.Machine.execRd8 s
  | .rd16le => Sys2Proof.Machine.execRd16le s
  | .rd32le => Sys2Proof.Machine.execRd32le s
  | .rd32be => Sys2Proof.Machine.execRd32be s
  | .skip count => Sys2Proof.Machine.execSkip count s
  | .seek target => Sys2Proof.Machine.execSeek target s
  | .pbmpf => Sys2Proof.Machine.execPbmpf s
  | .pbmpi => Sys2Proof.Machine.execPbmpi s
  | .pbmpc => Sys2Proof.Machine.execPbmpc s
  | .pihdr => Sys2Proof.Machine.execPihdr s
  | .pchunk => Sys2Proof.Machine.execPchunk s
  | .bxrows => Sys2Proof.Machine.execBxrows s
  | .bxswap => Sys2Proof.Machine.execBxswap s
  | .decbmp => Sys2Proof.Machine.execDecbmp s
  | .dfrow row => Sys2Proof.Machine.execDfrow row s
  | .dfrun => Sys2Proof.Machine.execDfrun s
  | .chunks => Sys2Proof.Machine.execChunks s
  | .inflate => Sys2Proof.Machine.execInflate s
  | .pxrun => Sys2Proof.Machine.execPxrun s
  | .decpng => Sys2Proof.Machine.execDecpng s

end Sys2Proof.Machine
end

