-- ==== Sys2Proof/Machine/Step.lean ====
section
/-! DEFINITION. One step: the host's next action, a command among them (R7, R37); with none waiting the block does nothing
(R270). -/

namespace Sys2Proof.Machine

/-- Run a command word: decode it (R92, R94) and execute it; an illegal one is refused (R97). -/
def issue (w : CmdWord) (s : State) : Host.Outcome State Fault Refusal :=
  match decodeCommand w with
  | .ok i => exec i s
  | .error _ => .refused (.illegalCommand (opField w))

/-- Perform one action of the host. -/
def perform (i : HostInput) (s : State) : Host.Outcome State Fault Refusal :=
  match i with
  | .command w => issue w s
  | .writeByte sp a v => hostWriteByte sp a v s
  | .writeReg r v => hostWriteReg r v s
  | .readByte sp a => hostReadByte sp a s
  | .reset => .next (hostReset s)

/-- One step: take the oldest waiting action and perform it; idle where none waits (R270; log entry 1). -/
def step (s : State) : Host.Outcome State Fault Refusal :=
  match s.inputs with
  | [] => .next s
  | i :: rest => perform i (s.setInputs rest)

/-- A DFROW 0 command word (R92, R94). -/
def dfrowZero : CmdWord := 0x0000000040

/-- Store an instruction where the next step runs it (log entry 13). A command word is issued by the host before all else
waiting. A filter-type byte goes to record 0 of ZBUF, with what DFROW 0 needs to fetch it: IDLE, at least one row, a
whole record below ZLEN; and DFROW 0 is issued. -/
def State.withFetchWord (s : State) (nbits w : Nat) : State :=
  match tableFormat nbits with
  | .k => s.setInputs (.command (BitVec.ofNat 40 w) :: s.inputs)
  | .f =>
    let d := s.defilter
    let z := s.zbuf.write 0 (BitVec.ofNat 8 w)
    (((s.setInputs (.command dfrowZero :: s.inputs)).setStatus { s.status with stState := 0 }).setDefilter
      { d with dfH := if d.dfH = 0 then 1 else d.dfH }).setZbuf
      (z.setLen (max z.len.toNat (recordLen d.dfW.toNat)))

end Sys2Proof.Machine
end

