-- ==== Sys2Proof/Safety.lean ====
section
/-! DEFINITION. The terms the statements are made of: frames, the invariant of the machine, what a source holds, what a
reconstructed row and a decoded picture are. -/

namespace Sys2Proof.Safety

open Sys2Proof.Machine

/-! ### Frames -/

/-- Every register but the named ones reads as before, and so does every byte of every space but the named ones; the
parameters and the host's waiting actions are the same. -/
def SameExcept (regs : List Reg) (spaces : List Space) (s t : State) : Prop :=
  (∀ r, r ∉ regs → t.reg r = s.reg r) ∧
  (∀ sp, sp ∉ spaces → ∀ a, t.byte sp a = s.byte sp a) ∧
  t.params = s.params ∧ t.inputs = s.inputs

/-- The instruction fails from a state `u` in which only the named registers and spaces differ from `s`; `how` says more of
`u`. -/
def FailsFrom (i : Instr) (s : State) (regs : List Reg) (spaces : List Space) (k : ErrKind) (info : Nat)
    (how : State → Prop) : Prop :=
  ∃ u, exec i s = .next (takeFailure k info u) ∧ SameExcept regs spaces s u ∧ how u

/-- ST_STATE = IDLE (R35). -/
def Idle (s : State) : Prop := s.reg .stState = 0

/-- No byte of the space can be read by the host (R40): its contents are unspecified or beyond its length. -/
def Unreadable (sp : Space) (s : State) : Prop := ∀ a, hostByte sp a s = .error (.unspecifiedByte sp a)

/-! ### The source -/

/-- `AVAIL` (R120): `max(0, SRC_LEN - POS)`. -/
def avail (s : State) : Nat := s.reg .srcLen - s.reg .pos

/-- `CurRead(n)` succeeds (R121). -/
def CanRead (n : Nat) (s : State) : Prop := s.reg .srcValid = 1 ∧ n ≤ avail s

/-- The two ways a command that begins with `CurRead(n)` fails there (R121): nothing is read and nothing written but the
failure record. -/
def ReadFailures (n : Nat) (i : Instr) (s : State) : Prop :=
  (s.reg .srcValid = 0 → exec i s = .next (takeFailure .unreadableSource 0 s)) ∧
  (s.reg .srcValid = 1 → avail s < n → exec i s = .next (takeFailure .truncatedStream (s.reg .pos) s))

/-- The `n` source bytes from an address. -/
def sourceBytes (s : State) (a n : Nat) : List Byte := s.src.bytes .src a n

/-- The source holds a byte sequence at an address, below SRC_LEN. -/
def SourceHolds (s : State) (a : Nat) (bs : List Byte) : Prop :=
  sourceBytes s a bs.length = bs ∧ a + bs.length ≤ s.reg .srcLen

/-! ### BMP -/

/-- `BmpGate` passes (R146). -/
def BmpOk (p : Config.Params) (h : BmpInfo) : Prop :=
  (h.biBitcount = 24 ∨ h.biBitcount = 32) ∧ bmpCompOk p h.biCompression = true ∧
  1 ≤ h.width ∧ h.height ≠ 0 ∧ h.need ≤ p.pixCap

/-- `BmpGate` fails (R146): what holds of the info it fails with, for the first check that a header does not pass. -/
def BmpGateFailures (p : Config.Params) (h : BmpInfo) (fails : Nat → Prop) : Prop :=
  let depthOk := h.biBitcount = 24 ∨ h.biBitcount = 32
  let compOk := bmpCompOk p h.biCompression = true
  let sizeOk := 1 ≤ h.width ∧ h.height ≠ 0
  (¬ depthOk → fails h.biBitcount.toNat) ∧
  (depthOk → ¬ compOk → fails h.biCompression.toNat) ∧
  (depthOk → compOk → ¬ sizeOk → fails 0) ∧
  (depthOk → compOk → sizeOk → p.pixCap < h.rowBytes * h.rows → fails (h.rowBytes * h.rows))

/-- Where BXROWS stops in rows of which the source holds only `n` bytes (R163), counted from their first byte: at the start
of the block where the rows have no padding, else at the row read or the padding skip that fails. -/
def rowsStop (h : BmpInfo) (n : Nat) : Nat :=
  if h.pad = 0 then 0
  else n / h.stride * h.stride + (if n % h.stride < h.rowBytes then 0 else h.rowBytes)

/-- The file header registers (R28, R141). -/
def bmpFileRegs : List Reg := [.bfType, .bfSize, .bfRes1, .bfRes2, .bfOffbits, .declOff]

/-- The info header registers (R29, R142). -/
def bmpInfoRegs : List Reg :=
  [.biSize, .biWidth, .biHeight, .biPlanes, .biBitcount, .biCompression, .biSizeimage, .biXppm, .biYppm, .biClrused,
    .biClrimportant]

/-- The colour header registers (R30, R143). -/
def bmpColourRegs : List Reg := [.bcRmask, .bcGmask, .bcBmask, .bcAmask, .bcCstype]

/-- The byte of a pixel that BXSWAP puts at offset `c` (R164): the first and the third change places. -/
def swapped (c : Nat) : Nat := if c = 0 then 2 else if c = 2 then 0 else c

/-! ### Scanlines -/

/-- The predictor of a filter type as a function of left, up, upper-left (R185 to R189, R193). -/
def predictorOf : FilterType → Byte → Byte → Byte → Byte
  | .none => fun _ _ _ => 0
  | .sub => fun left _ _ => left
  | .up => fun _ up _ => up
  | .average => fun left up _ => avg left up
  | .paeth => paeth

/-- Row `y` of `after` is the reconstruction of row `y` of `before` under a predictor (R180 to R189): every sample byte
is the wraparound sum of the filtered byte and the predictor of the RECONSTRUCTED neighbours. -/
def Reconstructs (pred : Byte → Byte → Byte → Byte) (w y : Nat) (before after : Buffer) : Prop :=
  ∀ i, 1 ≤ i → i ≤ 4 * w →
    after.byte .zbuf (rowStart w y + i) =
      add8 (before.byte .zbuf (rowStart w y + i)) (pred (leftOf after w y i) (upOf after w y i) (upleftOf after w y i))

/-- The neighbours of R181 in a raw image, given by row and offset. -/
def rawLeft (raw : Nat → Nat → Byte) (y i : Nat) : Byte := if 5 ≤ i then raw y (i - 4) else 0

/-- `up` in a raw image. -/
def rawUp (raw : Nat → Nat → Byte) (y i : Nat) : Byte := if 1 ≤ y then raw (y - 1) i else 0

/-- `upleft` in a raw image. -/
def rawUpleft (raw : Nat → Nat → Byte) (y i : Nat) : Byte := if 1 ≤ y ∧ 5 ≤ i then raw (y - 1) (i - 4) else 0

/-- The forward filter of type `f` on a raw image (R193): `(raw - pred) mod 256`. -/
def filterByte (f : FilterType) (raw : Nat → Nat → Byte) (y i : Nat) : Byte :=
  raw y i - predictorOf f (rawLeft raw y i) (rawUp raw y i) (rawUpleft raw y i)

/-! ### PNG -/

/-- A chunk as R100 gives it, less its length, which is that of the payload. -/
structure PngChunk where
  tag : Word
  payload : List Byte
  crc : Word
  deriving DecidableEq, Repr

/-- A 32-bit number in big-endian bytes (R60). -/
def bytesBE (x : Word) : List Byte :=
  [x.extractLsb' 24 8, x.extractLsb' 16 8, x.extractLsb' 8 8, x.extractLsb' 0 8]

/-- The bytes of a chunk (R100). -/
def PngChunk.bytes (c : PngChunk) : List Byte :=
  bytesBE (BitVec.ofNat 32 c.payload.length) ++ bytesBE c.tag ++ c.payload ++ bytesBE c.crc

/-- The bytes of chunks back to back (R67). -/
def streamBytes : List PngChunk → List Byte
  | [] => []
  | c :: cs => c.bytes ++ streamBytes cs

/-- The IDAT payloads of chunks, in file order (R69, R77). -/
def idatBytes : List PngChunk → List Byte
  | [] => []
  | c :: cs => if c.tag = tagIDAT then c.payload ++ idatBytes cs else idatBytes cs

/-- The IHDR registers after chunks: those of the last IHDR among them (R216 (b)). -/
def ihdrAfter (h : Ihdr) : List PngChunk → Ihdr
  | [] => h
  | c :: cs => if c.tag = tagIHDR then ihdrAfter (ihdrOf c.payload) cs else ihdrAfter h cs

/-- `IhdrGate` passes (R147). -/
def IhdrOk (p : Config.Params) (h : Ihdr) : Prop :=
  h.ihDepth = 8 ∧ h.ihCtype = p.ctRgba ∧ h.ihInterlace = p.ilNone ∧ h.ihWidth ≠ 0 ∧ h.ihHeight ≠ 0 ∧
  h.need ≤ p.pixCap

/-- `IhdrGate` fails (R147): what holds of the info it fails with, for the first check that a header does not pass. -/
def IhdrGateFailures (p : Config.Params) (h : Ihdr) (fails : Nat → Prop) : Prop :=
  (h.ihDepth ≠ 8 → fails h.ihDepth.toNat) ∧
  (h.ihDepth = 8 → h.ihCtype ≠ p.ctRgba → fails h.ihCtype.toNat) ∧
  (h.ihDepth = 8 → h.ihCtype = p.ctRgba → h.ihInterlace ≠ p.ilNone → fails h.ihInterlace.toNat) ∧
  (h.ihDepth = 8 → h.ihCtype = p.ctRgba → h.ihInterlace = p.ilNone → h.ihWidth = 0 ∨ h.ihHeight = 0 → fails 0) ∧
  (h.ihDepth = 8 → h.ihCtype = p.ctRgba → h.ihInterlace = p.ilNone → h.ihWidth ≠ 0 → h.ihHeight ≠ 0 →
    p.pixCap < 4 * h.ihWidth.toNat * h.ihHeight.toNat → fails (4 * h.ihWidth.toNat * h.ihHeight.toNat))

/-- Chunks the loop of R211 goes through without stopping: none, or the first is IHDR; no IEND; every IHDR passes the gate;
the IDAT payloads fit CBUF. -/
def GoodPrefix (p : Config.Params) (body : List PngChunk) : Prop :=
  (body = [] ∨ body.head?.map PngChunk.tag = some tagIHDR) ∧
  (∀ c ∈ body, c.tag ≠ tagIEND) ∧
  (∀ c ∈ body, c.payload.length < 2 ^ 32) ∧
  (∀ c ∈ body, c.tag = tagIHDR → 13 ≤ c.payload.length ∧ IhdrOk p (ihdrOf c.payload)) ∧
  (idatBytes body).length ≤ p.cbufCap

/-- Chunks the loop of R211 goes through to its end: `body`, whose first chunk is IHDR, then one IEND. -/
def GoodStream (p : Config.Params) (body : List PngChunk) (iend : PngChunk) : Prop :=
  body ≠ [] ∧ GoodPrefix p body ∧ iend.tag = tagIEND ∧ iend.payload.length < 2 ^ 32

/-- The registers CHUNKS writes (R211). -/
def chunkRegs : List Reg :=
  [.clen, .ihWidth, .ihHeight, .ihDepth, .ihCtype, .ihComp, .ihFilter, .ihInterlace, .ihdrSeen, .chLen, .chTag, .chCrc,
    .pos]

/-- CHUNKS fails (R211) from a state `u` in which only its own registers and CBUF differ from `s`; `how` says more of `u`. -/
def ChunksFails (s : State) (k : ErrKind) (info : Nat) (how : State → Prop) : Prop :=
  FailsFrom .chunks s chunkRegs [.cbuf] k info how

/-! ### Runs of instructions -/

/-- Execute instructions one after another. -/
def runAll : List Instr → State → Host.Outcome State Fault Refusal
  | [], s => .next s
  | i :: is, s =>
    match exec i s with
    | .next t => runAll is t
    | .fault r => .fault r
    | .refused r => .refused r

/-! ### The invariant -/

/-- Every byte below the length is listed and none at or beyond it. -/
def Dense (b : Buffer) : Prop := ∀ a, (b.mem.get? a).isSome ↔ a < b.len.toNat

/-- What every step keeps. -/
structure Inv (s : State) : Prop where
  /-- The four memories keep their canonical form. -/
  memories : s.src.mem.wf ∧ s.cbuf.mem.wf ∧ s.zbuf.mem.wf ∧ s.pix.mem.wf
  /-- The parameters are within R6 and R20. -/
  params : s.params.wf
  /-- Every length is within its capacity (R24 to R27, R37). -/
  lengths : s.reg .srcLen ≤ s.params.srcCap ∧ s.reg .clen ≤ s.params.cbufCap ∧ s.reg .zlen ≤ s.params.zbufCap ∧
    s.reg .pixLen ≤ s.params.pixCap
  /-- POS stays within what SEEK can name or a source can hold. This gives the bound `POS < 2^33` of R22 for every SRC_CAP
  below 2^33, the default among them; that a larger SRC_CAP is admitted and POS then bounded by it is a DESIGN CHOICE (log
  entry 20). -/
  pos : s.reg .pos ≤ max (2 ^ 32 - 1) s.params.srcCap
  /-- ST_ERR is a code of R241, and it is 0 exactly in IDLE. -/
  err : s.reg .stErr ≤ 5 ∧ (s.reg .stErr = 0 ↔ s.reg .stState = 0)
  /-- In IDLE no failure is recorded (R35). -/
  idle : s.reg .stState = 0 → s.reg .stErrinfo = 0
  /-- In FAULTED there is no result (R246). -/
  faulted : s.reg .stState = 1 → s.reg .stDone = 0 ∧ s.reg .pixLen = 0
  /-- PIX holds exactly the bytes below PIX_LEN, so that the host can read every one of them (R27, R37, R40). -/
  pixels : Dense s.pix
  /-- In IDLE, CBUF holds exactly the bytes below CLEN (R25, R40). -/
  compressed : s.reg .stState = 0 → Dense s.cbuf

end Sys2Proof.Safety
end

