-- ==== Sys2Proof/Certificates/Slice0/Obligations.lean ====
section
/-! DEFINITION. The statements for the provers, in the order of OBLIGATIONS.json. Each docstring names the rules of spec/
it formalises, or the decision of the spec or the log entry it rests on. -/

open Sys2Proof Sys2Proof.Machine Sys2Proof.Safety

/-! ### Encoding and the step -/

/-- Decoding the encoding of any well-formed instruction, of both formats, gives it back and leaves the bytes after it
(R91 to R95; the codes of format K are the spec's decision D10). -/
def Obligations.DecodeOfEncodeIsIdentity : Prop :=
  ∀ (i : Instr) (rest : List Byte), i.wf = true → decodeBytes i.format (encode i ++ rest) = .ok (i, rest)

/-- A command word decodes exactly when its `op` is one of the 23 of R94; every other word is rejected by name
(R94, R97: decisions D10, D12). -/
def Obligations.CommandMapIsExactlyTheTable : Prop :=
  ∀ w : CmdWord,
    let listed := (opField w).toNat ∈
      [0x00, 0x01, 0x02, 0x10, 0x11, 0x12, 0x13, 0x14, 0x15, 0x20, 0x21, 0x22, 0x23, 0x24, 0x30, 0x31, 0x3F, 0x40,
        0x41, 0x50, 0x51, 0x52, 0x5F]
    (listed → ∃ i, decodeCommand w = .ok i ∧ i.format = .k ∧ i.wf = true ∧ opcode i = opField w) ∧
    (¬ listed → decodeCommand w = .error (.illegalOp (opField w)))

/-- Operand bits a command does not use are ignored: all of them for 19 commands, all but `arg[0]` for SETFLIP (R92, R97:
decisions D10, D12). -/
def Obligations.UnusedOperandBitsIgnored : Prop :=
  ∀ (op : Byte) (arg arg' : Word),
    (op.toNat ∉ [0x01, 0x14, 0x15, 0x40] → decodeOp op arg = decodeOp op arg') ∧
    (arg.extractLsb' 0 1 = arg'.extractLsb' 0 1 → decodeOp 0x01 arg = decodeOp 0x01 arg')

/-- Words written out from the spec's own programs decode to what they stand for (spec/95_test_vectors.md, programs P1 to
P5), and a filter byte to its filter (R93). -/
def Obligations.ProgramWordsDecode : Prop :=
  decodeBytes .k [0x41, 0, 0, 0, 0] = .ok (.dfrun, []) ∧ decodeBytes .k [0x40, 4, 0, 0, 0] = .ok (.dfrow 4, []) ∧
  decodeBytes .k [0x15, 0x3A, 0, 0, 0] = .ok (.seek 58, []) ∧ decodeBytes .k [0x01, 1, 0, 0, 0] = .ok (.setflip 1, []) ∧
  decodeBytes .k [0x3F, 0, 0, 0, 0] = .ok (.decbmp, []) ∧ decodeBytes .k [0x5F, 0, 0, 0, 0] = .ok (.decpng, []) ∧
  decodeBytes .k [0x24, 0, 0, 0, 0] = .ok (.pchunk, []) ∧ decodeBytes .f [0x04, 9, 8] = .ok (.fPaeth, [9, 8])

/-- A step takes the command the host issued, decodes it and runs the decoded instruction on the state without that action;
an illegal word is refused by name; with no action waiting a step changes nothing (R7, R92, R97, R270: decisions D6, D12;
the list of waiting actions is the model's: log entries 1, 4). -/
def Obligations.StepRunsTheDecodedCommand : Prop :=
  ∀ (s : State) (w : CmdWord) (rest : List HostInput) (i : Instr) (e : DecodeError),
    (s.inputs = .command w :: rest → decodeCommand w = .ok i → step s = exec i (s.setInputs rest)) ∧
    (s.inputs = .command w :: rest → decodeCommand w = .error e → step s = .refused (.illegalCommand (opField w))) ∧
    (s.inputs = [] → step s = .next s)

/-- DFROW fetches the filter-type byte of its row, records row and byte in DF_Y and DF_FT, and runs exactly the filter
instruction that byte decodes to; nothing else changes but ZBUF (R93, R106 (a); the command is decision D10, the record at
DF_Y is log entry 13). -/
def Obligations.DfrowRunsTheFetchedRecord : Prop :=
  ∀ (s : State) (y : Nat) (i : Instr),
    Idle s → y < s.reg .dfH → (y + 1) * recordLen (s.reg .dfW) ≤ s.reg .zlen →
    decodeRecord (s.byte .zbuf (rowStart (s.reg .dfW) y)) = .ok i →
    ∃ t, exec (.dfrow y) s = .next t ∧ exec i (fetchRow y s) = .next t ∧
      t.reg .dfY = y ∧ t.reg .dfFt = (s.byte .zbuf (rowStart (s.reg .dfW) y)).toNat ∧
      SameExcept [.dfY, .dfFt] [.zbuf] s t

/-! ### Failure, return, reset -/

/-- The failure entry (R246): the record, PIX empty, the outputs and everything else untouched, CLEN and ZLEN kept, the
contents of CBUF, ZBUF and PIX unspecified; that no byte of them can then be read is decision D6 (R40) and log entries 6 and
16. -/
def Obligations.FailureEntryRecordsAndEmpties : Prop :=
  ∀ (k : ErrKind) (info : Nat) (s : State),
    let t := takeFailure k info s
    t.reg .stState = 1 ∧ t.reg .stErr = k.code.toNat ∧ t.reg .stErrinfo = info % 2 ^ 64 ∧ t.reg .stDone = 0 ∧
    t.reg .pixLen = 0 ∧ Unreadable .cbuf t ∧ Unreadable .zbuf t ∧ Unreadable .pix t ∧
    SameExcept [.stState, .stErr, .stErrinfo, .stDone, .pixLen] [.cbuf, .zbuf, .pix] s t

/-- While FAULTED every command but CLR changes nothing at all (R248: decision D26; log entry 3). -/
def Obligations.FaultedTurnsAwayAllButClr : Prop :=
  ∀ (i : Instr) (s : State), s.reg .stState = 1 → i.format = .k → i ≠ .clr → exec i s = .next s

/-- CLR, in IDLE and in FAULTED, clears the record and the three buffers and changes nothing else (R232: decision D26). -/
def Obligations.ClrClearsRecordAndBuffers : Prop :=
  ∀ s : State, ∃ t, exec .clr s = .next t ∧
    t.reg .stState = 0 ∧ t.reg .stErr = 0 ∧ t.reg .stErrinfo = 0 ∧ t.reg .stDone = 0 ∧ t.reg .stWarnTopdown = 0 ∧
    t.reg .pixLen = 0 ∧ t.reg .clen = 0 ∧ t.reg .zlen = 0 ∧
    Unreadable .cbuf t ∧ Unreadable .zbuf t ∧ Unreadable .pix t ∧
    SameExcept [.stState, .stErr, .stErrinfo, .stDone, .stWarnTopdown, .pixLen, .clen, .zlen] [.cbuf, .zbuf, .pix] s t

/-- The failure record is sticky: from FAULTED, a step that is neither CLR nor a reset leaves every status register as it
is (R248, R249, R271: decisions D6, D26). -/
def Obligations.FaultedLeftOnlyByClrOrReset : Prop :=
  ∀ (s t : State) (act : HostInput) (rest : List HostInput),
    s.reg .stState = 1 → s.inputs = act :: rest → step s = .next t → act ≠ .reset →
    (∀ w, act = .command w → decodeCommand w ≠ .ok .clr) →
    ∀ r ∈ [Reg.stState, .stErr, .stErrinfo, .stDone, .stWarnTopdown], t.reg r = s.reg r

/-- Every command that ends FAULTED leaves no result: PIX empty, ST_DONE 0, a code 1 to 5, OUT_W and OUT_H untouched, the
intermediate contents unreadable; there is no partial result (R36, R241, R246; the outputs are decision D31, the codes D4).
That no byte can be read after ANY failure, those of DFROW and DFRUN among them, is log entry 6 (R246 over R96, R195, R196);
that such a read is refused is decision D6 (R40) and log entry 16. -/
def Obligations.EveryFailureLeavesNoResult : Prop :=
  ∀ (i : Instr) (s t : State), Idle s → i.format = .k → exec i s = .next t → t.reg .stState = 1 →
    t.reg .stDone = 0 ∧ t.reg .pixLen = 0 ∧ 1 ≤ t.reg .stErr ∧ t.reg .stErr ≤ 5 ∧
    t.reg .outW = s.reg .outW ∧ t.reg .outH = s.reg .outH ∧
    Unreadable .cbuf t ∧ Unreadable .zbuf t ∧ Unreadable .pix t

/-- A whole decode has two outcomes and no third: done with at least 3 output bytes, or FAULTED with none and a code 1 to
5 (R247, which the spec derives). -/
def Obligations.WholeDecodeHasTwoOutcomes : Prop :=
  ∀ (i : Instr) (s : State), Idle s → s.params.wf → i = .decbmp ∨ i = .decpng →
    ∃ t, exec i s = .next t ∧
      ((t.reg .stDone = 1 ∧ t.reg .stState = 0 ∧ 3 ≤ t.reg .pixLen) ∨
       (t.reg .stDone = 0 ∧ t.reg .stState = 1 ∧ t.reg .pixLen = 0 ∧ 1 ≤ t.reg .stErr ∧ t.reg .stErr ≤ 5))

/-- After reset every register reads 0, no buffer byte can be read, and the block waits: a step changes nothing (R38, R270:
decision D6; the empty list of actions is log entry 1). -/
def Obligations.ResetStateIsEmptyAndIdle : Prop :=
  (∀ r, State.reset.reg r = 0) ∧
  (∀ sp, Unreadable sp State.reset) ∧ step State.reset = .next State.reset

/-- The reset event brings every register to 0 and every buffer to unspecified, from any state, FAULTED included; it keeps
the parameters and the host's further actions (R270, R271: decision D6; log entry 17). -/
def Obligations.ResetEventResetsEverything : Prop :=
  ∀ (s : State) (rest : List HostInput), s.inputs = .reset :: rest →
    ∃ t, step s = .next t ∧ (∀ r, t.reg r = 0) ∧ (∀ sp, Unreadable sp t) ∧ t.params = s.params ∧ t.inputs = rest

/-- The invariant holds after reset. -/
def Obligations.ResetMeetsTheInvariant : Prop := Inv State.reset

/-- Every step keeps the invariant: canonical memories, lengths within capacities, POS bounded, the status record coherent,
PIX readable exactly below PIX_LEN (R20, R22, R35, R40, R241, R246; spec/10_state.md). The bound of POS is the model's choice
for a SRC_CAP of 2^33 and more (log entry 20). -/
def Obligations.StepKeepsTheInvariant : Prop :=
  ∀ s t : State, Inv s → step s = .next t → Inv t

/-! ### Memory and the host -/

/-- A read returns the latest write: after a sequence is written, its bytes read back in place, every other byte reads as
before, and the memory keeps its canonical form (R9 `MemWrite`, R71). -/
def Obligations.ReadReturnsTheLatestWrite : Prop :=
  ∀ (sp : Space) (b : Buffer) (a : Nat) (vs : List Byte),
    (∀ (j : Nat) (h : j < vs.length), (b.writeBytes a vs).byte sp (a + j) = vs[j]) ∧
    (∀ x, x < a ∨ a + vs.length ≤ x → (b.writeBytes a vs).byte sp x = b.byte sp x) ∧
    (b.mem.wf → (b.writeBytes a vs).mem.wf)

/-- What the host may write (R37: decision D5): a byte of SRC or ZBUF below the capacity; SRC_VALID, DF_W, DF_H; a length
within its capacity, bytes already readable below it staying so. A length above its capacity has no effect; a write to any
other register or buffer is refused, and so is a value wider than the register; one at an address that does not exist
faults (log entries 14, 15). A read changes
nothing and is refused where the byte is unspecified (R40; log entry 16). Allowed in FAULTED too. -/
def Obligations.HostAccessesOnlyWhatItMay : Prop :=
  ∀ (s : State) (rest : List HostInput) (sp : Space) (a v : Nat) (b : Byte) (r : Reg),
    (s.inputs = .writeByte .src a b :: rest → a < s.params.srcCap →
      ∃ t, step s = .next t ∧ t.byte .src a = b ∧ (∀ x, x ≠ a → t.byte .src x = s.byte .src x) ∧
        SameExcept [] [.src] (s.setInputs rest) t) ∧
    (s.inputs = .writeByte .zbuf a b :: rest → a < s.params.zbufCap →
      ∃ t, step s = .next t ∧ t.byte .zbuf a = b ∧ (∀ x, x ≠ a → t.byte .zbuf x = s.byte .zbuf x) ∧
        SameExcept [] [.zbuf] (s.setInputs rest) t) ∧
    (s.inputs = .writeReg r v :: rest → r ∈ [Reg.srcValid, .dfW, .dfH] → v < 2 ^ r.width →
      ∃ t, step s = .next t ∧ t.reg r = v ∧ SameExcept [r] [] (s.setInputs rest) t) ∧
    (s.inputs = .writeReg .srcLen v :: rest → s.params.wf → v ≤ s.params.srcCap →
      ∃ t, step s = .next t ∧ t.reg .srcLen = v ∧ SameExcept [.srcLen] [.src] (s.setInputs rest) t ∧
        ∀ x c, x < v → hostByte .src x s = .ok c → hostByte .src x t = .ok c) ∧
    (s.inputs = .writeReg .zlen v :: rest → s.params.wf → v ≤ s.params.zbufCap →
      ∃ t, step s = .next t ∧ t.reg .zlen = v ∧ SameExcept [.zlen] [.zbuf] (s.setInputs rest) t ∧
        ∀ x c, x < v → hostByte .zbuf x s = .ok c → hostByte .zbuf x t = .ok c) ∧
    (s.inputs = .writeReg .srcLen v :: rest → s.params.srcCap < v → v < 2 ^ 64 → step s = .next (s.setInputs rest)) ∧
    (s.inputs = .writeReg .zlen v :: rest → s.params.zbufCap < v → v < 2 ^ 64 → step s = .next (s.setInputs rest)) ∧
    (s.inputs = .writeReg r v :: rest → r ∉ [Reg.srcValid, .dfW, .dfH, .srcLen, .zlen] →
      step s = .refused (.notHostWritable r)) ∧
    (s.inputs = .writeReg r v :: rest → r ∈ [Reg.srcValid, .dfW, .dfH, .srcLen, .zlen] → 2 ^ r.width ≤ v →
      step s = .refused (.valueTooWide r)) ∧
    (s.inputs = .writeByte sp a b :: rest → sp = .cbuf ∨ sp = .pix → step s = .refused (.bufferNotHostWritable sp)) ∧
    (s.inputs = .writeByte .src a b :: rest → s.params.srcCap ≤ a → step s = .fault (.noSuchAddress .src a)) ∧
    (s.inputs = .writeByte .zbuf a b :: rest → s.params.zbufCap ≤ a → step s = .fault (.noSuchAddress .zbuf a)) ∧
    (s.inputs = .readByte sp a :: rest → a < (s.buf sp).len.toNat → ((s.buf sp).mem.get? a).isSome →
      hostByte sp a s = .ok (s.byte sp a) ∧ step s = .next (s.setInputs rest)) ∧
    (s.inputs = .readByte sp a :: rest → ¬ (a < (s.buf sp).len.toNat ∧ ((s.buf sp).mem.get? a).isSome) →
      step s = .refused (.unspecifiedByte sp a))

/-- No instruction changes the source, its length, its validity, the parameters or the host's actions: "the core only reads
it" (R24). -/
def Obligations.NoInstructionWritesTheSource : Prop :=
  ∀ (i : Instr) (s t : State), exec i s = .next t →
    t.src = s.src ∧ t.reg .srcValid = s.reg .srcValid ∧ t.params = s.params ∧ t.inputs = s.inputs

/-- OUT_W and OUT_H change only by a DECBMP or DECPNG that completes (R36: decision D31). -/
def Obligations.OutputsWrittenOnlyByACompletedDecode : Prop :=
  ∀ (i : Instr) (s t : State), exec i s = .next t → (t.reg .outW ≠ s.reg .outW ∨ t.reg .outH ≠ s.reg .outH) →
    (i = .decbmp ∨ i = .decpng) ∧ t.reg .stDone = 1

/-! ### System -/

/-- NOP changes nothing, in IDLE and in FAULTED (R230: decision D10). -/
def Obligations.NopChangesNothing : Prop := ∀ s : State, exec .nop s = .next s

/-- SETFLIP writes `arg[0]` to CFG_FLIP and nothing else (R231), from the command word to the register. -/
def Obligations.SetflipWritesArgBitZero : Prop :=
  ∀ (s : State) (w : CmdWord), Idle s → opField w = 0x01 →
    ∃ (i : Instr) (t : State), decodeCommand w = .ok i ∧ i = .setflip ((argField w).extractLsb' 0 1) ∧
      exec i s = .next t ∧ t.reg .cfgFlip = (argField w).toNat % 2 ∧ SameExcept [.cfgFlip] [] s t

/-- Only SETFLIP and reset change CFG_FLIP (R34; R271 is decision D6): it survives every decode, failure and CLR. -/
def Obligations.FlipChangedOnlyBySetflipOrReset : Prop :=
  ∀ (s t : State) (act : HostInput) (rest : List HostInput),
    s.inputs = act :: rest → step s = .next t → act ≠ .reset →
    (∀ w b, act = .command w → decodeCommand w ≠ .ok (.setflip b)) → t.reg .cfgFlip = s.reg .cfgFlip

/-! ### Byte cursor -/

/-- RD8 (R123): one byte, zero-extended, POS by one; or a failure that moves nothing. -/
def Obligations.Rd8ReadsOneByte : Prop :=
  ∀ (s : State) (arg : Word), Idle s → decodeOp 0x10 arg = .ok .rd8 ∧
    (CanRead 1 s → ∃ t, exec .rd8 s = .next t ∧
      t.reg .val = (s.byte .src (s.reg .pos)).toNat ∧ t.reg .pos = s.reg .pos + 1 ∧ SameExcept [.val, .pos] [] s t) ∧
    ReadFailures 1 .rd8 s

/-- RD16LE (R124; that the order is little-endian is general knowledge in the spec: log entry 12). -/
def Obligations.Rd16leReadsLittleEndian : Prop :=
  ∀ (s : State) (arg : Word), Idle s → decodeOp 0x11 arg = .ok .rd16le ∧
    (CanRead 2 s → ∃ t, exec .rd16le s = .next t ∧
      t.reg .val = (s.byte .src (s.reg .pos)).toNat + 2 ^ 8 * (s.byte .src (s.reg .pos + 1)).toNat ∧
      t.reg .pos = s.reg .pos + 2 ∧ SameExcept [.val, .pos] [] s t) ∧
    ReadFailures 2 .rd16le s

/-- RD32LE (R125). -/
def Obligations.Rd32leReadsLittleEndian : Prop :=
  ∀ (s : State) (arg : Word), Idle s → decodeOp 0x12 arg = .ok .rd32le ∧
    (CanRead 4 s → ∃ t, exec .rd32le s = .next t ∧
      t.reg .val = (s.byte .src (s.reg .pos)).toNat + 2 ^ 8 * (s.byte .src (s.reg .pos + 1)).toNat +
        2 ^ 16 * (s.byte .src (s.reg .pos + 2)).toNat + 2 ^ 24 * (s.byte .src (s.reg .pos + 3)).toNat ∧
      t.reg .pos = s.reg .pos + 4 ∧ SameExcept [.val, .pos] [] s t) ∧
    ReadFailures 4 .rd32le s

/-- RD32BE (R126). -/
def Obligations.Rd32beReadsBigEndian : Prop :=
  ∀ (s : State) (arg : Word), Idle s → decodeOp 0x13 arg = .ok .rd32be ∧
    (CanRead 4 s → ∃ t, exec .rd32be s = .next t ∧
      t.reg .val = 2 ^ 24 * (s.byte .src (s.reg .pos)).toNat + 2 ^ 16 * (s.byte .src (s.reg .pos + 1)).toNat +
        2 ^ 8 * (s.byte .src (s.reg .pos + 2)).toNat + (s.byte .src (s.reg .pos + 3)).toNat ∧
      t.reg .pos = s.reg .pos + 4 ∧ SameExcept [.val, .pos] [] s t) ∧
    ReadFailures 4 .rd32be s

/-- SKIP (R128): `arg` bytes consumed, nothing else; or a failure that moves nothing. SKIP 0 never truncates. -/
def Obligations.SkipConsumesArgBytes : Prop :=
  ∀ (s : State) (n : Nat), Idle s → n < 2 ^ 32 → decodeOp 0x14 (BitVec.ofNat 32 n) = .ok (.skip n) ∧
    (CanRead n s → ∃ t, exec (.skip n) s = .next t ∧ t.reg .pos = s.reg .pos + n ∧ SameExcept [.pos] [] s t) ∧
    ReadFailures n (.skip n) s ∧
    (n = 0 → s.reg .srcValid = 1 → exec (.skip n) s = .next s)

/-- SEEK (R127: decision D16): POS becomes the operand, whatever the source is. -/
def Obligations.SeekSetsThePosition : Prop :=
  ∀ (s : State) (target : Nat), Idle s → target < 2 ^ 32 →
    ∃ t, exec (.seek target) s = .next t ∧ t.reg .pos = target ∧ SameExcept [.pos] [] s t

/-! ### Header parser -/

/-- PBMPF (R141; the field offsets are general knowledge in the spec: log entry 12): the file header registers from 14
bytes, then the signature gate, which fails with the registers written. -/
def Obligations.PbmpfParsesTheFileHeader : Prop :=
  ∀ s : State, Idle s →
    (CanRead 14 s → let h := sourceBytes s (s.reg .pos) 14
      ∃ u, u.bmpFile = bmpFileOf h ∧ u.reg .bfType = leField h 0 2 ∧ u.reg .bfSize = leField h 2 4 ∧
        u.reg .bfRes1 = leField h 6 2 ∧ u.reg .bfRes2 = leField h 8 2 ∧ u.reg .bfOffbits = leField h 10 4 ∧
        u.reg .declOff = leField h 10 4 ∧ u.reg .pos = s.reg .pos + 14 ∧
        SameExcept [.bfType, .bfSize, .bfRes1, .bfRes2, .bfOffbits, .declOff, .pos] [] s u ∧
        (leField h 0 2 = 0x4D42 → exec .pbmpf s = .next u) ∧
        (leField h 0 2 ≠ 0x4D42 → exec .pbmpf s = .next (takeFailure .badSignature (leField h 0 2) u))) ∧
    ReadFailures 14 .pbmpf s

/-- PBMPI (R142; the field offsets are general knowledge in the spec: log entry 12): the eleven info header registers, no
check. -/
def Obligations.PbmpiParsesTheInfoHeader : Prop :=
  ∀ s : State, Idle s →
    (CanRead 40 s → let h := sourceBytes s (s.reg .pos) 40
      ∃ t, exec .pbmpi s = .next t ∧ t.reg .biSize = leField h 0 4 ∧ t.reg .biWidth = leField h 4 4 ∧
        t.reg .biHeight = leField h 8 4 ∧ t.reg .biPlanes = leField h 12 2 ∧ t.reg .biBitcount = leField h 14 2 ∧
        t.reg .biCompression = leField h 16 4 ∧ t.reg .biSizeimage = leField h 20 4 ∧
        t.reg .biXppm = leField h 24 4 ∧ t.reg .biYppm = leField h 28 4 ∧ t.reg .biClrused = leField h 32 4 ∧
        t.reg .biClrimportant = leField h 36 4 ∧ t.reg .pos = s.reg .pos + 40 ∧
        SameExcept [.biSize, .biWidth, .biHeight, .biPlanes, .biBitcount, .biCompression, .biSizeimage, .biXppm,
          .biYppm, .biClrused, .biClrimportant, .pos] [] s t) ∧
    ReadFailures 40 .pbmpi s

/-- PBMPC (R143; size and offsets are general knowledge in the spec: log entry 12): the five colour header registers, the
rest of COLOUR_HDR_BYTES consumed, whatever BI_BITCOUNT holds. -/
def Obligations.PbmpcParsesTheColourHeader : Prop :=
  ∀ s : State, Idle s → 20 ≤ s.params.colourHdrBytes →
    (CanRead s.params.colourHdrBytes s → let h := sourceBytes s (s.reg .pos) s.params.colourHdrBytes
      ∃ t, exec .pbmpc s = .next t ∧ t.reg .bcRmask = leField h 0 4 ∧ t.reg .bcGmask = leField h 4 4 ∧
        t.reg .bcBmask = leField h 8 4 ∧ t.reg .bcAmask = leField h 12 4 ∧ t.reg .bcCstype = leField h 16 4 ∧
        t.reg .pos = s.reg .pos + s.params.colourHdrBytes ∧
        SameExcept [.bcRmask, .bcGmask, .bcBmask, .bcAmask, .bcCstype, .pos] [] s t) ∧
    ReadFailures s.params.colourHdrBytes .pbmpc s

/-- PIHDR (R144): width and height big-endian, five single bytes, IHDR_SEEN set, no check. -/
def Obligations.PihdrParsesTheImageHeader : Prop :=
  ∀ (s : State) (arg : Word), Idle s → decodeOp 0x23 arg = .ok .pihdr ∧
    (CanRead 13 s → let b := fun k => (s.byte .src (s.reg .pos + k)).toNat
      ∃ t, exec .pihdr s = .next t ∧
        t.reg .ihWidth = 2 ^ 24 * b 0 + 2 ^ 16 * b 1 + 2 ^ 8 * b 2 + b 3 ∧
        t.reg .ihHeight = 2 ^ 24 * b 4 + 2 ^ 16 * b 5 + 2 ^ 8 * b 6 + b 7 ∧
        t.reg .ihDepth = b 8 ∧ t.reg .ihCtype = b 9 ∧ t.reg .ihComp = b 10 ∧ t.reg .ihFilter = b 11 ∧
        t.reg .ihInterlace = b 12 ∧ t.reg .ihdrSeen = 1 ∧ t.reg .pos = s.reg .pos + 13 ∧
        SameExcept [.ihWidth, .ihHeight, .ihDepth, .ihCtype, .ihComp, .ihFilter, .ihInterlace, .ihdrSeen, .pos] [] s t) ∧
    ReadFailures 13 .pihdr s

/-- PCHUNK (R145): length and tag, both big-endian; payload and CRC are not consumed. -/
def Obligations.PchunkParsesTheChunkHeader : Prop :=
  ∀ (s : State) (arg : Word), Idle s → decodeOp 0x24 arg = .ok .pchunk ∧
    (CanRead 8 s → let b := fun k => (s.byte .src (s.reg .pos + k)).toNat
      ∃ t, exec .pchunk s = .next t ∧
        t.reg .chLen = 2 ^ 24 * b 0 + 2 ^ 16 * b 1 + 2 ^ 8 * b 2 + b 3 ∧
        t.reg .chTag = 2 ^ 24 * b 4 + 2 ^ 16 * b 5 + 2 ^ 8 * b 6 + b 7 ∧ t.reg .pos = s.reg .pos + 8 ∧
        SameExcept [.chLen, .chTag, .pos] [] s t) ∧
    ReadFailures 8 .pchunk s

/-- The order of `BmpGate` as BXROWS shows it (R146, R245 (c): decisions D17, D28): depth, compression, dimensions,
capacity; each failure with its value, nothing else changed before it. -/
def Obligations.BmpGateChecksInOrder : Prop :=
  ∀ s : State, Idle s → let h := s.bmpInfo
    let depthOk := h.biBitcount = 24 ∨ h.biBitcount = 32
    let compOk := bmpCompOk s.params h.biCompression = true
    let sizeOk := 1 ≤ h.width ∧ h.height ≠ 0
    (¬ depthOk → exec .bxrows s = .next (takeFailure .unsupportedVariant (s.reg .biBitcount) s)) ∧
    (depthOk → ¬ compOk → exec .bxrows s = .next (takeFailure .unsupportedVariant (s.reg .biCompression) s)) ∧
    (depthOk → compOk → ¬ sizeOk → exec .bxrows s = .next (takeFailure .unsupportedVariant 0 s)) ∧
    (depthOk → compOk → sizeOk → s.params.pixCap < h.width.toNat * h.height.natAbs * (s.reg .biBitcount / 8) →
      exec .bxrows s = .next (takeFailure .unsupportedVariant
        (h.width.toNat * h.height.natAbs * (s.reg .biBitcount / 8)) s))

/-- The order of `IhdrGate` (R147: decision D19): depth, colour type, interlace, zero dimension, capacity; a pass changes
nothing. And CHUNKS applies it to every IHDR chunk, the first and a later one (R211; R216 (b) is decision D25): after chunks
that it goes through, an IHDR chunk that the gate does not pass fails with the gate's info, right after its 13 bytes. -/
def Obligations.IhdrGateChecksInOrder : Prop :=
  ∀ s : State,
    IhdrGateFailures s.params s.ihdr (fun info => ihdrGate s = .raised .unsupportedVariant info s) ∧
    (IhdrOk s.params s.ihdr → ihdrGate s = .ok () s) ∧
    ∀ body : List PngChunk, Idle s → s.params.wf → s.reg .srcValid = 1 → GoodPrefix s.params body →
      SourceHolds s (s.reg .pos) (streamBytes body) →
      let here := s.reg .pos + (streamBytes body).length
      let h := ihdrOf (sourceBytes s (here + 8) 13)
      here + 21 ≤ s.reg .srcLen → 13 ≤ beNat (sourceBytes s here 4) →
      beNat (sourceBytes s (here + 4) 4) = 0x49484452 →
      IhdrGateFailures s.params h fun info => ChunksFails s .unsupportedVariant info fun u =>
        u.ihdr = h ∧ u.reg .ihdrSeen = 1 ∧ u.reg .pos = here + 21 ∧ u.reg .clen = (idatBytes body).length

/-! ### BMP unit -/

/-- The padding of a row (R64, R161): `(4 - ROWBYTES mod 4) mod 4`, so none at 32 bits per pixel and `W mod 4` at 24. -/
def Obligations.PaddingFollowsTheWidth : Prop :=
  ∀ h : BmpInfo, 1 ≤ h.width → h.biBitcount = 24 ∨ h.biBitcount = 32 →
    h.pad = (4 - h.rowBytes % 4) % 4 ∧ h.pad ≤ 3 ∧ (h.rowBytes + h.pad) % 4 = 0 ∧
    (h.biBitcount = 32 → h.rowBytes = 4 * h.width.toNat ∧ h.pad = 0) ∧
    (h.biBitcount = 24 → h.rowBytes = 3 * h.width.toNat ∧ h.pad = h.width.toNat % 4)

/-- BXROWS (R163) where the gate passes (decision D17; the row count of a negative height is D20): row `r` of PIX is row
`r` of the source at the stride, the padding dropped, the storage order kept; PIX_LEN, POS and the warning of a negative
height; nothing else. A source that is not readable is UnreadableSource, before any length is looked at (R245 (a): the
order of the checks is D15, D28; the code is D4); one that ends early, the padding after the last row included, is TruncatedStream of the
POS of the failing read, which POS keeps: the block's start where the rows have no padding, else the failing row or padding.
Before both, nothing but PIX and PIX_LEN, the warning and POS has changed. -/
def Obligations.BxrowsRemovesThePadding : Prop :=
  ∀ s : State, Idle s → s.params.wf → let h := s.bmpInfo
    let warned := if h.height < 0 then 1 else s.reg .stWarnTopdown
    let fails := fun (k : ErrKind) (info p : Nat) =>
      FailsFrom .bxrows s [.pixLen, .pos, .stWarnTopdown] [.pix] k info fun u =>
        u.reg .pixLen = 0 ∧ u.reg .pos = p ∧ u.reg .stWarnTopdown = warned
    BmpOk s.params h →
    (CanRead (h.rows * h.stride) s →
      ∃ t, exec .bxrows s = .next t ∧
        (∀ r j, r < h.rows → j < h.rowBytes →
          t.byte .pix (r * h.rowBytes + j) = s.byte .src (s.reg .pos + r * h.stride + j)) ∧
        t.reg .pixLen = h.rowBytes * h.rows ∧ t.reg .pos = s.reg .pos + h.rows * h.stride ∧
        t.reg .stWarnTopdown = warned ∧
        SameExcept [.pixLen, .pos, .stWarnTopdown] [.pix] s t) ∧
    (s.reg .srcValid = 0 → fails .unreadableSource 0 (s.reg .pos)) ∧
    (s.reg .srcValid = 1 → avail s < h.rows * h.stride →
      let p := s.reg .pos + rowsStop h (avail s)
      fails .truncatedStream p p ∧
      ∃ t, exec .bxrows s = .next t ∧ t.reg .stState = 1 ∧ t.reg .stErr = 4 ∧ t.reg .stErrinfo = p ∧ t.reg .pos = p ∧
        t.reg .pixLen = 0)

/-- BXSWAP (R164): the first and third byte of every whole pixel change places, every other byte of PIX and everything
else stays; a depth other than 24 and 32 fails. The op code is decision D10. -/
def Obligations.BxswapExchangesFirstAndThird : Prop :=
  ∀ (s : State) (arg : Word), Idle s → decodeOp 0x31 arg = .ok .bxswap ∧
    (s.reg .biBitcount ≠ 24 → s.reg .biBitcount ≠ 32 →
      exec .bxswap s = .next (takeFailure .unsupportedVariant (s.reg .biBitcount) s)) ∧
    (s.reg .biBitcount = 24 ∨ s.reg .biBitcount = 32 → let bpp := s.reg .biBitcount / 8
      ∃ t, exec .bxswap s = .next t ∧
        (∀ p c, p < s.reg .pixLen / bpp → c < bpp →
          t.byte .pix (p * bpp + c) = s.byte .pix (p * bpp + swapped c)) ∧
        (∀ a, s.reg .pixLen / bpp * bpp ≤ a → t.byte .pix a = s.byte .pix a) ∧ SameExcept [] [.pix] s t)

/-- BXSWAP applied twice restores the buffer (R164, which the spec derives). -/
def Obligations.BxswapTwiceRestores : Prop :=
  ∀ s : State, Idle s → s.reg .biBitcount = 24 ∨ s.reg .biBitcount = 32 →
    ∃ t u, exec .bxswap s = .next t ∧ exec .bxswap t = .next u ∧ SameExcept [] [] s u

/-- DECBMP (R165; its gate, seek and starting address rest on decisions D13, D16, D17, D20, D21, D32, the order of the
failures on D15 and D28, the header layout on general knowledge: log entry 12). It fails, in the order of R245 (c): on a
source that is not readable, at a file header cut short, a signature that is not `BM` (its registers written), an info header
cut short, the gate (both headers written, the colour header not read), at depth 32 a colour header cut short, and where the
rows at the DECLARED offset are cut short (the header recomputed, the warning of a negative height given); each from a state
in which nothing but these, ST_DONE, the warning, PIX, PIX_LEN and POS has changed, so OUT_W and OUT_H stay. It completes
otherwise: the rows at the declared offset, padding removed, channels reordered, storage order kept; OUT_W, OUT_H the
header's patterns; BI_SIZE and BF_OFFBITS recomputed. -/
def Obligations.DecbmpDecodesAWellFormedBitmap : Prop :=
  ∀ s : State, Idle s →
    let file := bmpFileOf (sourceBytes s 0 14)
    let h := bmpInfoOf (sourceBytes s 14 40)
    let start := file.declOff.toNat
    let headers := if h.biBitcount = 32 then 40 + s.params.colourHdrBytes else 40
    let file' := { file with bfOffbits := BitVec.ofNat 32 (14 + headers) }
    let h' := { h with biSize := BitVec.ofNat 32 headers }
    let warned := if h.height < 0 then 1 else 0
    let fails := fun (regs : List Reg) (k : ErrKind) (info p warning : Nat) (how : State → Prop) =>
      FailsFrom .decbmp s ([.stDone, .stWarnTopdown, .pixLen, .pos] ++ regs) [.pix] k info fun u =>
        u.reg .pixLen = 0 ∧ u.reg .pos = p ∧ u.reg .stWarnTopdown = warning ∧ how u
    (s.reg .srcValid = 0 → fails [] .unreadableSource 0 0 0 fun _ => True) ∧
    (s.reg .srcValid = 1 → s.reg .srcLen < 14 → fails [] .truncatedStream 0 0 0 fun _ => True) ∧
    (s.reg .srcValid = 1 → 14 ≤ s.reg .srcLen → file.bfType ≠ 0x4D42 →
      fails bmpFileRegs .badSignature file.bfType.toNat 14 0 fun u => u.bmpFile = file) ∧
    (s.reg .srcValid = 1 → 14 ≤ s.reg .srcLen → file.bfType = 0x4D42 → s.reg .srcLen < 54 →
      fails bmpFileRegs .truncatedStream 14 14 0 fun u => u.bmpFile = file) ∧
    (s.reg .srcValid = 1 → 54 ≤ s.reg .srcLen → file.bfType = 0x4D42 →
      BmpGateFailures s.params h fun info =>
        fails (bmpFileRegs ++ bmpInfoRegs) .unsupportedVariant info 54 0 fun u => u.bmpFile = file ∧ u.bmpInfo = h) ∧
    (s.reg .srcValid = 1 → 54 ≤ s.reg .srcLen → file.bfType = 0x4D42 → BmpOk s.params h → h.biBitcount = 32 →
      s.reg .srcLen < 54 + s.params.colourHdrBytes →
      fails (bmpFileRegs ++ bmpInfoRegs) .truncatedStream 54 54 0 fun u => u.bmpFile = file ∧ u.bmpInfo = h) ∧
    (s.reg .srcValid = 1 → 14 + headers ≤ s.reg .srcLen → file.bfType = 0x4D42 → BmpOk s.params h →
      s.reg .srcLen < start + h.rows * h.stride →
      let p := start + rowsStop h (s.reg .srcLen - start)
      fails (bmpFileRegs ++ bmpInfoRegs ++ bmpColourRegs) .truncatedStream p p warned fun u =>
        u.bmpFile = file' ∧ u.bmpInfo = h' ∧
        (h.biBitcount = 32 → u.bmpColour = bmpColourOf (sourceBytes s 54 s.params.colourHdrBytes)) ∧
        (h.biBitcount = 24 → u.bmpColour = s.bmpColour)) ∧
    (s.params.wf → s.reg .srcValid = 1 → 14 + headers ≤ s.reg .srcLen → file.bfType = 0x4D42 → BmpOk s.params h →
      start + h.rows * h.stride ≤ s.reg .srcLen →
      ∃ t, exec .decbmp s = .next t ∧ t.reg .stDone = 1 ∧ t.reg .stWarnTopdown = warned ∧
        t.reg .outW = h.biWidth.toNat ∧ t.reg .outH = h.biHeight.toNat ∧ t.reg .pixLen = h.rowBytes * h.rows ∧
        (∀ r k c, r < h.rows → k < h.width.toNat → c < h.bpp →
          t.byte .pix (r * h.rowBytes + k * h.bpp + c) = s.byte .src (start + r * h.stride + k * h.bpp + swapped c)) ∧
        t.reg .pos = start + h.rows * h.stride ∧ t.bmpFile = file' ∧ t.bmpInfo = h' ∧
        (h.biBitcount = 32 → t.bmpColour = bmpColourOf (sourceBytes s 54 s.params.colourHdrBytes)) ∧
        (h.biBitcount = 24 → t.bmpColour = s.bmpColour) ∧
        SameExcept ([.stDone, .stWarnTopdown, .outW, .outH, .pixLen, .pos] ++ bmpFileRegs ++ bmpInfoRegs ++ bmpColourRegs)
          [.pix] s t)

/-- A DECBMP that completes leaves the PIX, PIX_LEN and POS that the host gets by issuing the smaller commands itself
(R108, R165; program P2 of spec/95_test_vectors.md). -/
def Obligations.DecbmpEqualsItsCommandSequence : Prop :=
  ∀ s t : State, Idle s → s.params.wf → exec .decbmp s = .next t → t.reg .stDone = 1 →
    ∃ u, runAll ([.seek 0, .pbmpf, .pbmpi] ++ (if t.reg .biBitcount = 32 then [.pbmpc] else []) ++
        [.seek (t.reg .declOff), .bxrows, .bxswap]) s = .next u ∧
      u.reg .pixLen = t.reg .pixLen ∧ u.reg .pos = t.reg .pos ∧ u.reg .stState = 0 ∧
      ∀ a, a < t.reg .pixLen → u.byte .pix a = t.byte .pix a

/-! ### Scanline defilter -/

/-- The Paeth predictor (R184): one of its inputs, at the least distance from `left + up - upleft`; a tie goes to left,
then to up; with the distances over the integers, and the consequences the rule lists, which follow from
its pseudocode. -/
def Obligations.PaethPicksTheNearestNeighbour : Prop :=
  ∀ a b c : Byte,
    let p : Int := a.toNat + b.toNat - c.toNat
    let dist := fun x : Byte => (p - x.toNat).natAbs
    (dist a ≤ dist b ∧ dist a ≤ dist c → paeth a b c = a) ∧
    (¬ (dist a ≤ dist b ∧ dist a ≤ dist c) → dist b ≤ dist c → paeth a b c = b) ∧
    (¬ (dist a ≤ dist b ∧ dist a ≤ dist c) → ¬ dist b ≤ dist c → paeth a b c = c) ∧
    dist (paeth a b c) ≤ dist a ∧ dist (paeth a b c) ≤ dist b ∧ dist (paeth a b c) ≤ dist c ∧
    dist a = ((b.toNat : Int) - c.toNat).natAbs ∧ dist b = ((a.toNat : Int) - c.toNat).natAbs ∧
    paeth a a a = a ∧ paeth 0 b 0 = b ∧ paeth a 0 0 = a ∧ paeth 0 0 c = 0

/-- F_NONE (R185): no change, on any row (that it runs as an instruction by itself is log entry 13). -/
def Obligations.FNoneChangesNothing : Prop := ∀ s : State, exec .fNone s = .next s

/-- F_SUB (R186) on row DF_Y (log entry 13): `recon = filt + left mod 256` at every sample; the first pixel and every
other byte unchanged; no register written. -/
def Obligations.FSubAddsTheLeftNeighbour : Prop :=
  ∀ s : State, let w := s.reg .dfW
    let y := s.reg .dfY
    ∃ t, exec .fSub s = .next t ∧
      (∀ i, 5 ≤ i → i ≤ 4 * w → (t.byte .zbuf (rowStart w y + i)).toNat =
        ((s.byte .zbuf (rowStart w y + i)).toNat + (t.byte .zbuf (rowStart w y + i - 4)).toNat) % 256) ∧
      (∀ i, 1 ≤ i → i ≤ 4 → t.byte .zbuf (rowStart w y + i) = s.byte .zbuf (rowStart w y + i)) ∧
      (∀ a, a ≤ rowStart w y ∨ rowStart w (y + 1) ≤ a → t.byte .zbuf a = s.byte .zbuf a) ∧
      SameExcept [] [.zbuf] s t

/-- F_UP (R187) on row DF_Y (log entry 13): `recon = filt + up mod 256` at every sample of a later row, no change on
row 0. -/
def Obligations.FUpAddsTheUpperNeighbour : Prop :=
  ∀ s : State, let w := s.reg .dfW
    let y := s.reg .dfY
    ∃ t, exec .fUp s = .next t ∧
      (∀ i, 1 ≤ i → i ≤ 4 * w → 1 ≤ y → (t.byte .zbuf (rowStart w y + i)).toNat =
        ((s.byte .zbuf (rowStart w y + i)).toNat + (s.byte .zbuf (rowStart w (y - 1) + i)).toNat) % 256) ∧
      (y = 0 → ∀ a, t.byte .zbuf a = s.byte .zbuf a) ∧
      (∀ a, a ≤ rowStart w y ∨ rowStart w (y + 1) ≤ a → t.byte .zbuf a = s.byte .zbuf a) ∧
      SameExcept [] [.zbuf] s t

/-- F_AVG (R188) on row DF_Y (log entry 13): `recon = filt + floor((left + up) / 2) mod 256`, the inner sum exact
(R183: decision D22), a missing neighbour 0. -/
def Obligations.FAvgAddsTheHalvedSum : Prop :=
  ∀ s : State, let w := s.reg .dfW
    let y := s.reg .dfY
    ∃ t, exec .fAvg s = .next t ∧
      (∀ i, 1 ≤ i → i ≤ 4 * w →
        let left := if 5 ≤ i then (t.byte .zbuf (rowStart w y + i - 4)).toNat else 0
        let up := if 1 ≤ y then (s.byte .zbuf (rowStart w (y - 1) + i)).toNat else 0
        (t.byte .zbuf (rowStart w y + i)).toNat = ((s.byte .zbuf (rowStart w y + i)).toNat + (left + up) / 2) % 256) ∧
      (∀ a, a ≤ rowStart w y ∨ rowStart w (y + 1) ≤ a → t.byte .zbuf a = s.byte .zbuf a) ∧
      SameExcept [] [.zbuf] s t

/-- F_PAETH (R189) on row DF_Y (log entry 13): `recon = filt + paeth(left, up, upleft) mod 256`, a missing neighbour 0;
on row 0 it is F_SUB, byte for byte. -/
def Obligations.FPaethAddsThePredictor : Prop :=
  ∀ s : State, let w := s.reg .dfW
    let y := s.reg .dfY
    ∃ t, exec .fPaeth s = .next t ∧
      (∀ i, 1 ≤ i → i ≤ 4 * w →
        let left := if 5 ≤ i then t.byte .zbuf (rowStart w y + i - 4) else 0
        let up := if 1 ≤ y then s.byte .zbuf (rowStart w (y - 1) + i) else 0
        let upleft := if 1 ≤ y ∧ 5 ≤ i then s.byte .zbuf (rowStart w (y - 1) + i - 4) else 0
        (t.byte .zbuf (rowStart w y + i)).toNat =
          ((s.byte .zbuf (rowStart w y + i)).toNat + (paeth left up upleft).toNat) % 256) ∧
      (y = 0 → exec .fSub s = .next t) ∧
      (∀ a, a ≤ rowStart w y ∨ rowStart w (y + 1) ≤ a → t.byte .zbuf a = s.byte .zbuf a) ∧
      SameExcept [] [.zbuf] s t

/-- The Sub loop from offset 5 gives byte for byte the row of the loop from offset 1 (R191, which the spec derives;
conflict C1). -/
def Obligations.SubStartOffsetDoesNotMatter : Prop :=
  ∀ (b : Buffer) (w y a : Nat), 1 ≤ w →
    (reconLoop (fun left _ _ => left) w y (4 * w - 4) 5 b).byte .zbuf a =
      (reconLoop (fun left _ _ => left) w y (4 * w) 1 b).byte .zbuf a

/-- How DFROW fails (R195, R96: decisions D11, D23): a row outside the image, a record that ZBUF does not hold whole, a
reserved filter type, the last with DF_Y and DF_FT written. -/
def Obligations.DfrowFailures : Prop :=
  ∀ (s : State) (y : Nat), Idle s → let w := s.reg .dfW
    (s.reg .dfH ≤ y → exec (.dfrow y) s = .next (takeFailure .unsupportedVariant y s)) ∧
    (y < s.reg .dfH → s.reg .zlen < (y + 1) * recordLen w →
      exec (.dfrow y) s = .next (takeFailure .truncatedStream (s.reg .zlen) s)) ∧
    (y < s.reg .dfH → (y + 1) * recordLen w ≤ s.reg .zlen → let ft := (s.byte .zbuf (rowStart w y)).toNat
      4 < ft → ∃ u, u.reg .dfY = y ∧ u.reg .dfFt = ft ∧ SameExcept [.dfY, .dfFt] [] s u ∧
        exec (.dfrow y) s = .next (takeFailure .unsupportedVariant (y * 256 + ft) u))

/-- DFRUN (R196; the short and the long stream are decision D24, the reserved filter type D11): every sample byte of the
image is reconstructed in order from the reconstructed neighbours by the rule its row's filter byte selects; everything else
stays; a short stream fails before any byte is changed; a reserved filter type fails after the rows before its own have been
reconstructed, with DF_Y and DF_FT written and no byte of its own row changed (what the failure entry then does to the
contents of ZBUF is log entry 6). -/
def Obligations.DfrunReconstructsTheImage : Prop :=
  ∀ s : State, Idle s → let w := s.reg .dfW
    let h := s.reg .dfH
    (s.reg .zlen < h * recordLen w → exec .dfrun s = .next (takeFailure .truncatedStream (s.reg .zlen) s)) ∧
    ∀ f : Nat → FilterType, h * recordLen w ≤ s.reg .zlen →
      ((∀ y, y < h → filterOf (s.byte .zbuf (rowStart w y)) = some (f y)) →
        ∃ t, exec .dfrun s = .next t ∧
          (∀ y, y < h → Reconstructs (predictorOf (f y)) w y s.zbuf t.zbuf) ∧
          (∀ a, (∀ y i, y < h → 1 ≤ i → i ≤ 4 * w → a ≠ rowStart w y + i) → t.byte .zbuf a = s.byte .zbuf a) ∧
          (1 ≤ h → t.reg .dfY = h - 1 ∧ t.reg .dfFt = (s.byte .zbuf (rowStart w (h - 1))).toNat) ∧
          (h = 0 → t = s) ∧ SameExcept [.dfY, .dfFt] [.zbuf] s t) ∧
      ∀ y, y < h → (∀ k, k < y → filterOf (s.byte .zbuf (rowStart w k)) = some (f k)) →
        let ft := (s.byte .zbuf (rowStart w y)).toNat
        4 < ft → ∃ u, exec .dfrun s = .next (takeFailure .unsupportedVariant (y * 256 + ft) u) ∧
          u.reg .dfY = y ∧ u.reg .dfFt = ft ∧
          (∀ k, k < y → Reconstructs (predictorOf (f k)) w k s.zbuf u.zbuf) ∧
          (∀ a, (∀ k i, k < y → 1 ≤ i → i ≤ 4 * w → a ≠ rowStart w k + i) → u.byte .zbuf a = s.byte .zbuf a) ∧
          SameExcept [.dfY, .dfFt] [.zbuf] s u

/-- Filter, then defilter, gives the raw image back, for every mixture of the five filter types (R193: "filtering a known
raw scanline with filter type F then defiltering it must reproduce the original bytes exactly"). -/
def Obligations.DefilterInvertsTheFilter : Prop :=
  ∀ (s : State) (f : Nat → FilterType) (raw : Nat → Nat → Byte), Idle s → let w := s.reg .dfW
    let h := s.reg .dfH
    h * recordLen w ≤ s.reg .zlen →
    (∀ y, y < h → filterOf (s.byte .zbuf (rowStart w y)) = some (f y)) →
    (∀ y i, y < h → 1 ≤ i → i ≤ 4 * w → s.byte .zbuf (rowStart w y + i) = filterByte (f y) raw y i) →
    ∃ t, exec .dfrun s = .next t ∧
      ∀ y i, y < h → 1 ≤ i → i ≤ 4 * w → t.byte .zbuf (rowStart w y + i) = raw y i

/-- The four channel lanes are independent (R192, which the spec derives): two images with the same filter types that agree
on one lane agree on it after DFRUN, whatever the other lanes hold. -/
def Obligations.LanesReconstructIndependently : Prop :=
  ∀ (s s' : State) (lane : Nat), Idle s → Idle s' → s'.reg .dfW = s.reg .dfW → s'.reg .dfH = s.reg .dfH →
    let w := s.reg .dfW
    let h := s.reg .dfH
    h * recordLen w ≤ s.reg .zlen → h * recordLen w ≤ s'.reg .zlen →
    (∀ y, y < h → s'.byte .zbuf (rowStart w y) = s.byte .zbuf (rowStart w y) ∧
      (s.byte .zbuf (rowStart w y)).toNat ≤ 4) →
    (∀ y i, y < h → 1 ≤ i → i ≤ 4 * w → i % 4 = lane →
      s'.byte .zbuf (rowStart w y + i) = s.byte .zbuf (rowStart w y + i)) →
    ∃ t t', exec .dfrun s = .next t ∧ exec .dfrun s' = .next t' ∧
      ∀ y i, y < h → 1 ≤ i → i ≤ 4 * w → i % 4 = lane →
        t'.byte .zbuf (rowStart w y + i) = t.byte .zbuf (rowStart w y + i)

/-! ### PNG sequence -/

/-- CHUNKS on a stream of chunks that begins with IHDR and ends with IEND (R211; R216 (a), (b), (c) and the capacity are
decisions D13, D25): CBUF holds the IDAT payloads in file order, the IHDR registers the last IHDR, the cursor stands after
IEND's CRC, no CRC is compared with anything. -/
def Obligations.ChunksCollectsTheStream : Prop :=
  ∀ (s : State) (body : List PngChunk) (iend : PngChunk), Idle s → s.params.wf → s.reg .srcValid = 1 →
    GoodStream s.params body iend → SourceHolds s (s.reg .pos) (streamBytes (body ++ [iend])) →
    ∃ t, exec .chunks s = .next t ∧ t.reg .clen = (idatBytes body).length ∧
      t.cbuf.bytes .cbuf 0 (idatBytes body).length = idatBytes body ∧
      t.ihdr = ihdrAfter s.ihdr body ∧ t.reg .ihdrSeen = 1 ∧
      t.reg .chLen = iend.payload.length ∧ t.reg .chTag = 0x49454E44 ∧ t.reg .chCrc = iend.crc.toNat ∧
      t.reg .pos = s.reg .pos + (streamBytes (body ++ [iend])).length ∧
      SameExcept [.clen, .ihWidth, .ihHeight, .ihDepth, .ihCtype, .ihComp, .ihFilter, .ihInterlace, .ihdrSeen, .chLen,
        .chTag, .chCrc, .pos] [.cbuf] s t

/-- How CHUNKS fails, but for the IHDR gate (R211, R216): the source is not valid (decision D15); a first chunk that is not
IHDR, with its tag, the chunk header consumed (D25); after chunks that it goes through, an IHDR shorter than 13 bytes (D25)
or an IDAT beyond CBUF_CAP (D13), right after its header; and a good stream that the source ends before its last byte,
IEND's CRC included, with the POS that the failing read leaves. -/
def Obligations.ChunksRequiresIhdrFirst : Prop :=
  ∀ s : State, Idle s →
    (s.reg .srcValid = 0 → ChunksFails s .unreadableSource 0 fun u =>
      u.reg .pos = s.reg .pos ∧ u.reg .clen = 0 ∧ u.reg .ihdrSeen = 0) ∧
    (CanRead 8 s → let tag := beNat (sourceBytes s (s.reg .pos + 4) 4)
      tag ≠ 0x49484452 → ChunksFails s .badSignature tag fun u =>
        u.reg .pos = s.reg .pos + 8 ∧ u.reg .clen = 0 ∧ u.reg .ihdrSeen = 0) ∧
    (∀ body : List PngChunk, s.params.wf → s.reg .srcValid = 1 → GoodPrefix s.params body →
      SourceHolds s (s.reg .pos) (streamBytes body) →
      let here := s.reg .pos + (streamBytes body).length
      let len := beNat (sourceBytes s here 4)
      let tag := beNat (sourceBytes s (here + 4) 4)
      here + 8 ≤ s.reg .srcLen →
      (tag = 0x49484452 → len < 13 → ChunksFails s .truncatedStream (here + 8) fun u =>
        u.reg .pos = here + 8 ∧ u.reg .clen = (idatBytes body).length ∧ u.ihdr = ihdrAfter s.ihdr body) ∧
      (body ≠ [] → tag = 0x49444154 → s.params.cbufCap < (idatBytes body).length + len →
        ChunksFails s .unsupportedVariant ((idatBytes body).length + len) fun u =>
          u.reg .pos = here + 8 ∧ u.reg .clen = (idatBytes body).length ∧ u.ihdr = ihdrAfter s.ihdr body)) ∧
    (∀ (body : List PngChunk) (iend : PngChunk) (n : Nat), s.params.wf → s.reg .srcValid = 1 →
      GoodStream s.params body iend → n < (streamBytes (body ++ [iend])).length →
      SourceHolds s (s.reg .pos) ((streamBytes (body ++ [iend])).take n) → s.reg .srcLen = s.reg .pos + n →
      ∃ p, s.reg .pos ≤ p ∧ p ≤ s.reg .srcLen ∧ ChunksFails s .truncatedStream p fun u => u.reg .pos = p)

/-- INFLATE (R213): the answer of the inflate capability on the CLEN bytes of CBUF goes to ZBUF with its length; `fail` and
an answer beyond ZBUF_CAP (decision D14) are DecompressionFailure; CBUF is unchanged. The capability is the model's table
over a free function (log entry 9); the op code is decision D10. -/
def Obligations.InflateStoresTheAnswer : Prop :=
  ∀ (s : State) (arg : Word), Idle s → s.params.wf → decodeOp 0x51 arg = .ok .inflate ∧
    let answer := inflateOf s.params (s.cbuf.bytes .cbuf 0 (s.reg .clen))
    (answer = none → exec .inflate s = .next (takeFailure .decompressionFailure 0 s)) ∧
    (∀ r, answer = some r → s.params.zbufCap < r.length →
      exec .inflate s = .next (takeFailure .decompressionFailure r.length s)) ∧
    (∀ r, answer = some r → r.length ≤ s.params.zbufCap →
      ∃ t, exec .inflate s = .next t ∧ t.reg .zlen = r.length ∧ t.zbuf.bytes .zbuf 0 r.length = r ∧
        SameExcept [.zlen] [.zbuf] s t)

/-- PXRUN (R214): the filter bytes stripped, the rows in order or, with CFG_FLIP, in reverse order, every byte of a row in
its place; ZBUF unchanged; the two failures, which are the spec's own (R242: decisions D24, D13). The op code is decision
D10. -/
def Obligations.PxrunStripsAndOrdersTheRows : Prop :=
  ∀ (s : State) (arg : Word), Idle s → s.params.wf → decodeOp 0x52 arg = .ok .pxrun ∧
    let w := s.reg .dfW
    let h := s.reg .dfH
    (s.reg .zlen < h * (4 * w + 1) → exec .pxrun s = .next (takeFailure .truncatedStream (s.reg .zlen) s)) ∧
    (h * (4 * w + 1) ≤ s.reg .zlen → s.params.pixCap < h * (4 * w) →
      exec .pxrun s = .next (takeFailure .unsupportedVariant (h * (4 * w)) s)) ∧
    (h * (4 * w + 1) ≤ s.reg .zlen → h * (4 * w) ≤ s.params.pixCap →
      ∃ t, exec .pxrun s = .next t ∧ t.reg .pixLen = h * (4 * w) ∧
        (∀ r j, r < h → j < 4 * w →
          t.byte .pix (r * (4 * w) + j) =
            s.byte .zbuf ((if s.reg .cfgFlip = 1 then h - 1 - r else r) * (4 * w + 1) + 1 + j)) ∧
        SameExcept [.pixLen] [.pix] s t)

/-- The flag on and off give row-reversed, otherwise byte-identical buffers (R214, §8 of the source; example E3). -/
def Obligations.FlipReversesTheRows : Prop :=
  ∀ s s' : State, Idle s → s.params.wf → s.reg .cfgFlip = 0 → s' = s.setCfgFlip 1 →
    let w := s.reg .dfW
    let h := s.reg .dfH
    h * (4 * w + 1) ≤ s.reg .zlen → h * (4 * w) ≤ s.params.pixCap →
    ∃ t t', exec .pxrun s = .next t ∧ exec .pxrun s' = .next t' ∧ t'.reg .pixLen = t.reg .pixLen ∧
      ∀ r j, r < h → j < 4 * w → t'.byte .pix (r * (4 * w) + j) = t.byte .pix ((h - 1 - r) * (4 * w) + j)

/-- DECPNG (R215; the signature, the starting address and the chunk corner cases are decisions D18, D25, D32, the order of
the cursor's checks D15). It fails where the first 8 bytes are not there or are not PNG_SIG, the latter with BadSignature of
the first four; after the signature, a failure of CHUNKS from address 8, of INFLATE after it, or of DFRUN on the frame of the
IHDR registers is its own. It completes on the signature, a good chunk stream, an inflate answer that fits and holds the
image, filter types 0 to 4: ST_DONE, OUT_W and OUT_H of the last IHDR, PIX the reconstructed rows of the answer (log entry 9),
flipped if CFG_FLIP. -/
def Obligations.DecpngDecodesAWellFormedImage : Prop :=
  ∀ s : State, Idle s →
    let fails := fun (k : ErrKind) (info p : Nat) => ∃ u, exec .decpng s = .next (takeFailure k info u) ∧
      u.reg .pos = p ∧ u.reg .zlen = 0 ∧ SameExcept [.stDone, .pixLen, .zlen, .pos] [.zbuf, .pix] s u
    let u := (startPng s).setPos 8
    (s.reg .srcValid = 0 → fails .unreadableSource 0 0) ∧
    (s.reg .srcValid = 1 → s.reg .srcLen < 8 → fails .truncatedStream 0 0) ∧
    (s.reg .srcValid = 1 → 8 ≤ s.reg .srcLen → sourceBytes s 0 8 ≠ s.params.pngSig →
      fails .badSignature (beNat (sourceBytes s 0 4)) 8) ∧
    (s.reg .srcValid = 1 → SourceHolds s 0 s.params.pngSig → s.params.wf →
      ∃ t v x, exec .chunks u = .next t ∧ exec .inflate t = .next v ∧ exec .dfrun (frameFromIhdr v) = .next x ∧
        (t.reg .stState = 1 → exec .decpng s = .next t) ∧
        (t.reg .stState = 0 → v.reg .stState = 1 → exec .decpng s = .next v) ∧
        (v.reg .stState = 0 → x.reg .stState = 1 → exec .decpng s = .next x)) ∧
    ∀ (body : List PngChunk) (iend : PngChunk) (r : List Byte) (f : Nat → FilterType),
      s.params.wf → s.reg .srcValid = 1 → GoodStream s.params body iend →
      SourceHolds s 0 (s.params.pngSig ++ streamBytes (body ++ [iend])) →
      inflateOf s.params (idatBytes body) = some r → r.length ≤ s.params.zbufCap →
      let head := ihdrAfter s.ihdr body
      let w := head.ihWidth.toNat
      let h := head.ihHeight.toNat
      h * recordLen w ≤ r.length → (∀ y, y < h → (r[rowStart w y]?).bind filterOf = some (f y)) →
      ∃ t, exec .decpng s = .next t ∧ t.reg .stDone = 1 ∧ t.reg .stState = 0 ∧ t.reg .outW = w ∧ t.reg .outH = h ∧
        t.reg .pixLen = h * (4 * w) ∧
        (∀ y, y < h → Reconstructs (predictorOf (f y)) w y (s.zbuf.holding r) t.zbuf) ∧
        (∀ y j, y < h → j < 4 * w →
          t.byte .pix (y * (4 * w) + j) =
            t.byte .zbuf (rowStart w (if s.reg .cfgFlip = 1 then h - 1 - y else y) + 1 + j)) ∧
        t.ihdr = head ∧ t.reg .zlen = r.length ∧ t.reg .clen = (idatBytes body).length ∧
        t.reg .pos = 8 + (streamBytes (body ++ [iend])).length ∧ t.reg .dfW = w ∧ t.reg .dfH = h ∧
        SameExcept [.stDone, .outW, .outH, .pixLen, .zlen, .clen, .pos, .dfW, .dfH, .dfY, .dfFt, .ihWidth, .ihHeight,
          .ihDepth, .ihCtype, .ihComp, .ihFilter, .ihInterlace, .ihdrSeen, .chLen, .chTag, .chCrc] [.cbuf, .zbuf, .pix] s t

/-- A whole decode is determined by the source, the parameters and, for PNG, CFG_FLIP (R66; example E4): from two idle
states that agree on these it ends the same way, with the same PIX, PIX_LEN, OUT_W and OUT_H when it completes and the same
failure record when it fails, whatever else the states held. -/
def Obligations.DecodeDependsOnTheSourceOnly : Prop :=
  ∀ (s s' : State) (i : Instr), Idle s → Idle s' → s.params.wf → s'.params = s.params →
    (i = .decbmp ∨ i = .decpng ∧ s'.reg .cfgFlip = s.reg .cfgFlip) →
    (∀ a, s'.byte .src a = s.byte .src a) → s'.reg .srcLen = s.reg .srcLen → s'.reg .srcValid = s.reg .srcValid →
    ∃ t t', exec i s = .next t ∧ exec i s' = .next t' ∧
      t'.reg .stDone = t.reg .stDone ∧ t'.reg .stState = t.reg .stState ∧ t'.reg .pixLen = t.reg .pixLen ∧
      (t.reg .stState = 1 → t'.reg .stErr = t.reg .stErr ∧ t'.reg .stErrinfo = t.reg .stErrinfo) ∧
      (t.reg .stDone = 1 → t'.reg .outW = t.reg .outW ∧ t'.reg .outH = t.reg .outH ∧
        ∀ a, a < t.reg .pixLen → t'.byte .pix a = t.byte .pix a)
end

