-- ==== Sys2Proof/Laws/State.lean ====
section
/-! SUPPORT. One lemma per field per update of the state, each true by rfl: what a register group's update leaves in every
field. -/

namespace Sys2Proof.Machine

/-! `setCursor` -/

@[simp] theorem State.setCursor_cursor (s : State) (x : Cursor) : (s.setCursor x).cursor = x := rfl
@[simp] theorem State.setCursor_src (s : State) (x : Cursor) : (s.setCursor x).src = s.src := rfl
@[simp] theorem State.setCursor_cbuf (s : State) (x : Cursor) : (s.setCursor x).cbuf = s.cbuf := rfl
@[simp] theorem State.setCursor_zbuf (s : State) (x : Cursor) : (s.setCursor x).zbuf = s.zbuf := rfl
@[simp] theorem State.setCursor_pix (s : State) (x : Cursor) : (s.setCursor x).pix = s.pix := rfl
@[simp] theorem State.setCursor_bmpFile (s : State) (x : Cursor) : (s.setCursor x).bmpFile = s.bmpFile := rfl
@[simp] theorem State.setCursor_bmpInfo (s : State) (x : Cursor) : (s.setCursor x).bmpInfo = s.bmpInfo := rfl
@[simp] theorem State.setCursor_bmpColour (s : State) (x : Cursor) : (s.setCursor x).bmpColour = s.bmpColour := rfl
@[simp] theorem State.setCursor_chunk (s : State) (x : Cursor) : (s.setCursor x).chunk = s.chunk := rfl
@[simp] theorem State.setCursor_ihdr (s : State) (x : Cursor) : (s.setCursor x).ihdr = s.ihdr := rfl
@[simp] theorem State.setCursor_defilter (s : State) (x : Cursor) : (s.setCursor x).defilter = s.defilter := rfl
@[simp] theorem State.setCursor_cfgFlip (s : State) (x : Cursor) : (s.setCursor x).cfgFlip = s.cfgFlip := rfl
@[simp] theorem State.setCursor_status (s : State) (x : Cursor) : (s.setCursor x).status = s.status := rfl
@[simp] theorem State.setCursor_out (s : State) (x : Cursor) : (s.setCursor x).out = s.out := rfl
@[simp] theorem State.setCursor_inputs (s : State) (x : Cursor) : (s.setCursor x).inputs = s.inputs := rfl
@[simp] theorem State.setCursor_params (s : State) (x : Cursor) : (s.setCursor x).params = s.params := rfl
@[simp] theorem State.setCursor_setCursor (s : State) (x y : Cursor) : (s.setCursor x).setCursor y = s.setCursor y := rfl
@[simp] theorem State.setCursor_self (s : State) : s.setCursor s.cursor = s := rfl

/-! `setSrc` -/

@[simp] theorem State.setSrc_cursor (s : State) (x : Buffer) : (s.setSrc x).cursor = s.cursor := rfl
@[simp] theorem State.setSrc_src (s : State) (x : Buffer) : (s.setSrc x).src = x := rfl
@[simp] theorem State.setSrc_cbuf (s : State) (x : Buffer) : (s.setSrc x).cbuf = s.cbuf := rfl
@[simp] theorem State.setSrc_zbuf (s : State) (x : Buffer) : (s.setSrc x).zbuf = s.zbuf := rfl
@[simp] theorem State.setSrc_pix (s : State) (x : Buffer) : (s.setSrc x).pix = s.pix := rfl
@[simp] theorem State.setSrc_bmpFile (s : State) (x : Buffer) : (s.setSrc x).bmpFile = s.bmpFile := rfl
@[simp] theorem State.setSrc_bmpInfo (s : State) (x : Buffer) : (s.setSrc x).bmpInfo = s.bmpInfo := rfl
@[simp] theorem State.setSrc_bmpColour (s : State) (x : Buffer) : (s.setSrc x).bmpColour = s.bmpColour := rfl
@[simp] theorem State.setSrc_chunk (s : State) (x : Buffer) : (s.setSrc x).chunk = s.chunk := rfl
@[simp] theorem State.setSrc_ihdr (s : State) (x : Buffer) : (s.setSrc x).ihdr = s.ihdr := rfl
@[simp] theorem State.setSrc_defilter (s : State) (x : Buffer) : (s.setSrc x).defilter = s.defilter := rfl
@[simp] theorem State.setSrc_cfgFlip (s : State) (x : Buffer) : (s.setSrc x).cfgFlip = s.cfgFlip := rfl
@[simp] theorem State.setSrc_status (s : State) (x : Buffer) : (s.setSrc x).status = s.status := rfl
@[simp] theorem State.setSrc_out (s : State) (x : Buffer) : (s.setSrc x).out = s.out := rfl
@[simp] theorem State.setSrc_inputs (s : State) (x : Buffer) : (s.setSrc x).inputs = s.inputs := rfl
@[simp] theorem State.setSrc_params (s : State) (x : Buffer) : (s.setSrc x).params = s.params := rfl
@[simp] theorem State.setSrc_setSrc (s : State) (x y : Buffer) : (s.setSrc x).setSrc y = s.setSrc y := rfl
@[simp] theorem State.setSrc_self (s : State) : s.setSrc s.src = s := rfl

/-! `setCbuf` -/

@[simp] theorem State.setCbuf_cursor (s : State) (x : Buffer) : (s.setCbuf x).cursor = s.cursor := rfl
@[simp] theorem State.setCbuf_src (s : State) (x : Buffer) : (s.setCbuf x).src = s.src := rfl
@[simp] theorem State.setCbuf_cbuf (s : State) (x : Buffer) : (s.setCbuf x).cbuf = x := rfl
@[simp] theorem State.setCbuf_zbuf (s : State) (x : Buffer) : (s.setCbuf x).zbuf = s.zbuf := rfl
@[simp] theorem State.setCbuf_pix (s : State) (x : Buffer) : (s.setCbuf x).pix = s.pix := rfl
@[simp] theorem State.setCbuf_bmpFile (s : State) (x : Buffer) : (s.setCbuf x).bmpFile = s.bmpFile := rfl
@[simp] theorem State.setCbuf_bmpInfo (s : State) (x : Buffer) : (s.setCbuf x).bmpInfo = s.bmpInfo := rfl
@[simp] theorem State.setCbuf_bmpColour (s : State) (x : Buffer) : (s.setCbuf x).bmpColour = s.bmpColour := rfl
@[simp] theorem State.setCbuf_chunk (s : State) (x : Buffer) : (s.setCbuf x).chunk = s.chunk := rfl
@[simp] theorem State.setCbuf_ihdr (s : State) (x : Buffer) : (s.setCbuf x).ihdr = s.ihdr := rfl
@[simp] theorem State.setCbuf_defilter (s : State) (x : Buffer) : (s.setCbuf x).defilter = s.defilter := rfl
@[simp] theorem State.setCbuf_cfgFlip (s : State) (x : Buffer) : (s.setCbuf x).cfgFlip = s.cfgFlip := rfl
@[simp] theorem State.setCbuf_status (s : State) (x : Buffer) : (s.setCbuf x).status = s.status := rfl
@[simp] theorem State.setCbuf_out (s : State) (x : Buffer) : (s.setCbuf x).out = s.out := rfl
@[simp] theorem State.setCbuf_inputs (s : State) (x : Buffer) : (s.setCbuf x).inputs = s.inputs := rfl
@[simp] theorem State.setCbuf_params (s : State) (x : Buffer) : (s.setCbuf x).params = s.params := rfl
@[simp] theorem State.setCbuf_setCbuf (s : State) (x y : Buffer) : (s.setCbuf x).setCbuf y = s.setCbuf y := rfl
@[simp] theorem State.setCbuf_self (s : State) : s.setCbuf s.cbuf = s := rfl

/-! `setZbuf` -/

@[simp] theorem State.setZbuf_cursor (s : State) (x : Buffer) : (s.setZbuf x).cursor = s.cursor := rfl
@[simp] theorem State.setZbuf_src (s : State) (x : Buffer) : (s.setZbuf x).src = s.src := rfl
@[simp] theorem State.setZbuf_cbuf (s : State) (x : Buffer) : (s.setZbuf x).cbuf = s.cbuf := rfl
@[simp] theorem State.setZbuf_zbuf (s : State) (x : Buffer) : (s.setZbuf x).zbuf = x := rfl
@[simp] theorem State.setZbuf_pix (s : State) (x : Buffer) : (s.setZbuf x).pix = s.pix := rfl
@[simp] theorem State.setZbuf_bmpFile (s : State) (x : Buffer) : (s.setZbuf x).bmpFile = s.bmpFile := rfl
@[simp] theorem State.setZbuf_bmpInfo (s : State) (x : Buffer) : (s.setZbuf x).bmpInfo = s.bmpInfo := rfl
@[simp] theorem State.setZbuf_bmpColour (s : State) (x : Buffer) : (s.setZbuf x).bmpColour = s.bmpColour := rfl
@[simp] theorem State.setZbuf_chunk (s : State) (x : Buffer) : (s.setZbuf x).chunk = s.chunk := rfl
@[simp] theorem State.setZbuf_ihdr (s : State) (x : Buffer) : (s.setZbuf x).ihdr = s.ihdr := rfl
@[simp] theorem State.setZbuf_defilter (s : State) (x : Buffer) : (s.setZbuf x).defilter = s.defilter := rfl
@[simp] theorem State.setZbuf_cfgFlip (s : State) (x : Buffer) : (s.setZbuf x).cfgFlip = s.cfgFlip := rfl
@[simp] theorem State.setZbuf_status (s : State) (x : Buffer) : (s.setZbuf x).status = s.status := rfl
@[simp] theorem State.setZbuf_out (s : State) (x : Buffer) : (s.setZbuf x).out = s.out := rfl
@[simp] theorem State.setZbuf_inputs (s : State) (x : Buffer) : (s.setZbuf x).inputs = s.inputs := rfl
@[simp] theorem State.setZbuf_params (s : State) (x : Buffer) : (s.setZbuf x).params = s.params := rfl
@[simp] theorem State.setZbuf_setZbuf (s : State) (x y : Buffer) : (s.setZbuf x).setZbuf y = s.setZbuf y := rfl
@[simp] theorem State.setZbuf_self (s : State) : s.setZbuf s.zbuf = s := rfl

/-! `setPix` -/

@[simp] theorem State.setPix_cursor (s : State) (x : Buffer) : (s.setPix x).cursor = s.cursor := rfl
@[simp] theorem State.setPix_src (s : State) (x : Buffer) : (s.setPix x).src = s.src := rfl
@[simp] theorem State.setPix_cbuf (s : State) (x : Buffer) : (s.setPix x).cbuf = s.cbuf := rfl
@[simp] theorem State.setPix_zbuf (s : State) (x : Buffer) : (s.setPix x).zbuf = s.zbuf := rfl
@[simp] theorem State.setPix_pix (s : State) (x : Buffer) : (s.setPix x).pix = x := rfl
@[simp] theorem State.setPix_bmpFile (s : State) (x : Buffer) : (s.setPix x).bmpFile = s.bmpFile := rfl
@[simp] theorem State.setPix_bmpInfo (s : State) (x : Buffer) : (s.setPix x).bmpInfo = s.bmpInfo := rfl
@[simp] theorem State.setPix_bmpColour (s : State) (x : Buffer) : (s.setPix x).bmpColour = s.bmpColour := rfl
@[simp] theorem State.setPix_chunk (s : State) (x : Buffer) : (s.setPix x).chunk = s.chunk := rfl
@[simp] theorem State.setPix_ihdr (s : State) (x : Buffer) : (s.setPix x).ihdr = s.ihdr := rfl
@[simp] theorem State.setPix_defilter (s : State) (x : Buffer) : (s.setPix x).defilter = s.defilter := rfl
@[simp] theorem State.setPix_cfgFlip (s : State) (x : Buffer) : (s.setPix x).cfgFlip = s.cfgFlip := rfl
@[simp] theorem State.setPix_status (s : State) (x : Buffer) : (s.setPix x).status = s.status := rfl
@[simp] theorem State.setPix_out (s : State) (x : Buffer) : (s.setPix x).out = s.out := rfl
@[simp] theorem State.setPix_inputs (s : State) (x : Buffer) : (s.setPix x).inputs = s.inputs := rfl
@[simp] theorem State.setPix_params (s : State) (x : Buffer) : (s.setPix x).params = s.params := rfl
@[simp] theorem State.setPix_setPix (s : State) (x y : Buffer) : (s.setPix x).setPix y = s.setPix y := rfl
@[simp] theorem State.setPix_self (s : State) : s.setPix s.pix = s := rfl

/-! `setBmpFile` -/

@[simp] theorem State.setBmpFile_cursor (s : State) (x : BmpFile) : (s.setBmpFile x).cursor = s.cursor := rfl
@[simp] theorem State.setBmpFile_src (s : State) (x : BmpFile) : (s.setBmpFile x).src = s.src := rfl
@[simp] theorem State.setBmpFile_cbuf (s : State) (x : BmpFile) : (s.setBmpFile x).cbuf = s.cbuf := rfl
@[simp] theorem State.setBmpFile_zbuf (s : State) (x : BmpFile) : (s.setBmpFile x).zbuf = s.zbuf := rfl
@[simp] theorem State.setBmpFile_pix (s : State) (x : BmpFile) : (s.setBmpFile x).pix = s.pix := rfl
@[simp] theorem State.setBmpFile_bmpFile (s : State) (x : BmpFile) : (s.setBmpFile x).bmpFile = x := rfl
@[simp] theorem State.setBmpFile_bmpInfo (s : State) (x : BmpFile) : (s.setBmpFile x).bmpInfo = s.bmpInfo := rfl
@[simp] theorem State.setBmpFile_bmpColour (s : State) (x : BmpFile) : (s.setBmpFile x).bmpColour = s.bmpColour := rfl
@[simp] theorem State.setBmpFile_chunk (s : State) (x : BmpFile) : (s.setBmpFile x).chunk = s.chunk := rfl
@[simp] theorem State.setBmpFile_ihdr (s : State) (x : BmpFile) : (s.setBmpFile x).ihdr = s.ihdr := rfl
@[simp] theorem State.setBmpFile_defilter (s : State) (x : BmpFile) : (s.setBmpFile x).defilter = s.defilter := rfl
@[simp] theorem State.setBmpFile_cfgFlip (s : State) (x : BmpFile) : (s.setBmpFile x).cfgFlip = s.cfgFlip := rfl
@[simp] theorem State.setBmpFile_status (s : State) (x : BmpFile) : (s.setBmpFile x).status = s.status := rfl
@[simp] theorem State.setBmpFile_out (s : State) (x : BmpFile) : (s.setBmpFile x).out = s.out := rfl
@[simp] theorem State.setBmpFile_inputs (s : State) (x : BmpFile) : (s.setBmpFile x).inputs = s.inputs := rfl
@[simp] theorem State.setBmpFile_params (s : State) (x : BmpFile) : (s.setBmpFile x).params = s.params := rfl
@[simp] theorem State.setBmpFile_setBmpFile (s : State) (x y : BmpFile) : (s.setBmpFile x).setBmpFile y = s.setBmpFile y := rfl
@[simp] theorem State.setBmpFile_self (s : State) : s.setBmpFile s.bmpFile = s := rfl

/-! `setBmpInfo` -/

@[simp] theorem State.setBmpInfo_cursor (s : State) (x : BmpInfo) : (s.setBmpInfo x).cursor = s.cursor := rfl
@[simp] theorem State.setBmpInfo_src (s : State) (x : BmpInfo) : (s.setBmpInfo x).src = s.src := rfl
@[simp] theorem State.setBmpInfo_cbuf (s : State) (x : BmpInfo) : (s.setBmpInfo x).cbuf = s.cbuf := rfl
@[simp] theorem State.setBmpInfo_zbuf (s : State) (x : BmpInfo) : (s.setBmpInfo x).zbuf = s.zbuf := rfl
@[simp] theorem State.setBmpInfo_pix (s : State) (x : BmpInfo) : (s.setBmpInfo x).pix = s.pix := rfl
@[simp] theorem State.setBmpInfo_bmpFile (s : State) (x : BmpInfo) : (s.setBmpInfo x).bmpFile = s.bmpFile := rfl
@[simp] theorem State.setBmpInfo_bmpInfo (s : State) (x : BmpInfo) : (s.setBmpInfo x).bmpInfo = x := rfl
@[simp] theorem State.setBmpInfo_bmpColour (s : State) (x : BmpInfo) : (s.setBmpInfo x).bmpColour = s.bmpColour := rfl
@[simp] theorem State.setBmpInfo_chunk (s : State) (x : BmpInfo) : (s.setBmpInfo x).chunk = s.chunk := rfl
@[simp] theorem State.setBmpInfo_ihdr (s : State) (x : BmpInfo) : (s.setBmpInfo x).ihdr = s.ihdr := rfl
@[simp] theorem State.setBmpInfo_defilter (s : State) (x : BmpInfo) : (s.setBmpInfo x).defilter = s.defilter := rfl
@[simp] theorem State.setBmpInfo_cfgFlip (s : State) (x : BmpInfo) : (s.setBmpInfo x).cfgFlip = s.cfgFlip := rfl
@[simp] theorem State.setBmpInfo_status (s : State) (x : BmpInfo) : (s.setBmpInfo x).status = s.status := rfl
@[simp] theorem State.setBmpInfo_out (s : State) (x : BmpInfo) : (s.setBmpInfo x).out = s.out := rfl
@[simp] theorem State.setBmpInfo_inputs (s : State) (x : BmpInfo) : (s.setBmpInfo x).inputs = s.inputs := rfl
@[simp] theorem State.setBmpInfo_params (s : State) (x : BmpInfo) : (s.setBmpInfo x).params = s.params := rfl
@[simp] theorem State.setBmpInfo_setBmpInfo (s : State) (x y : BmpInfo) : (s.setBmpInfo x).setBmpInfo y = s.setBmpInfo y := rfl
@[simp] theorem State.setBmpInfo_self (s : State) : s.setBmpInfo s.bmpInfo = s := rfl

/-! `setBmpColour` -/

@[simp] theorem State.setBmpColour_cursor (s : State) (x : BmpColour) : (s.setBmpColour x).cursor = s.cursor := rfl
@[simp] theorem State.setBmpColour_src (s : State) (x : BmpColour) : (s.setBmpColour x).src = s.src := rfl
@[simp] theorem State.setBmpColour_cbuf (s : State) (x : BmpColour) : (s.setBmpColour x).cbuf = s.cbuf := rfl
@[simp] theorem State.setBmpColour_zbuf (s : State) (x : BmpColour) : (s.setBmpColour x).zbuf = s.zbuf := rfl
@[simp] theorem State.setBmpColour_pix (s : State) (x : BmpColour) : (s.setBmpColour x).pix = s.pix := rfl
@[simp] theorem State.setBmpColour_bmpFile (s : State) (x : BmpColour) : (s.setBmpColour x).bmpFile = s.bmpFile := rfl
@[simp] theorem State.setBmpColour_bmpInfo (s : State) (x : BmpColour) : (s.setBmpColour x).bmpInfo = s.bmpInfo := rfl
@[simp] theorem State.setBmpColour_bmpColour (s : State) (x : BmpColour) : (s.setBmpColour x).bmpColour = x := rfl
@[simp] theorem State.setBmpColour_chunk (s : State) (x : BmpColour) : (s.setBmpColour x).chunk = s.chunk := rfl
@[simp] theorem State.setBmpColour_ihdr (s : State) (x : BmpColour) : (s.setBmpColour x).ihdr = s.ihdr := rfl
@[simp] theorem State.setBmpColour_defilter (s : State) (x : BmpColour) : (s.setBmpColour x).defilter = s.defilter := rfl
@[simp] theorem State.setBmpColour_cfgFlip (s : State) (x : BmpColour) : (s.setBmpColour x).cfgFlip = s.cfgFlip := rfl
@[simp] theorem State.setBmpColour_status (s : State) (x : BmpColour) : (s.setBmpColour x).status = s.status := rfl
@[simp] theorem State.setBmpColour_out (s : State) (x : BmpColour) : (s.setBmpColour x).out = s.out := rfl
@[simp] theorem State.setBmpColour_inputs (s : State) (x : BmpColour) : (s.setBmpColour x).inputs = s.inputs := rfl
@[simp] theorem State.setBmpColour_params (s : State) (x : BmpColour) : (s.setBmpColour x).params = s.params := rfl
@[simp] theorem State.setBmpColour_setBmpColour (s : State) (x y : BmpColour) : (s.setBmpColour x).setBmpColour y = s.setBmpColour y := rfl
@[simp] theorem State.setBmpColour_self (s : State) : s.setBmpColour s.bmpColour = s := rfl

/-! `setChunk` -/

@[simp] theorem State.setChunk_cursor (s : State) (x : Chunk) : (s.setChunk x).cursor = s.cursor := rfl
@[simp] theorem State.setChunk_src (s : State) (x : Chunk) : (s.setChunk x).src = s.src := rfl
@[simp] theorem State.setChunk_cbuf (s : State) (x : Chunk) : (s.setChunk x).cbuf = s.cbuf := rfl
@[simp] theorem State.setChunk_zbuf (s : State) (x : Chunk) : (s.setChunk x).zbuf = s.zbuf := rfl
@[simp] theorem State.setChunk_pix (s : State) (x : Chunk) : (s.setChunk x).pix = s.pix := rfl
@[simp] theorem State.setChunk_bmpFile (s : State) (x : Chunk) : (s.setChunk x).bmpFile = s.bmpFile := rfl
@[simp] theorem State.setChunk_bmpInfo (s : State) (x : Chunk) : (s.setChunk x).bmpInfo = s.bmpInfo := rfl
@[simp] theorem State.setChunk_bmpColour (s : State) (x : Chunk) : (s.setChunk x).bmpColour = s.bmpColour := rfl
@[simp] theorem State.setChunk_chunk (s : State) (x : Chunk) : (s.setChunk x).chunk = x := rfl
@[simp] theorem State.setChunk_ihdr (s : State) (x : Chunk) : (s.setChunk x).ihdr = s.ihdr := rfl
@[simp] theorem State.setChunk_defilter (s : State) (x : Chunk) : (s.setChunk x).defilter = s.defilter := rfl
@[simp] theorem State.setChunk_cfgFlip (s : State) (x : Chunk) : (s.setChunk x).cfgFlip = s.cfgFlip := rfl
@[simp] theorem State.setChunk_status (s : State) (x : Chunk) : (s.setChunk x).status = s.status := rfl
@[simp] theorem State.setChunk_out (s : State) (x : Chunk) : (s.setChunk x).out = s.out := rfl
@[simp] theorem State.setChunk_inputs (s : State) (x : Chunk) : (s.setChunk x).inputs = s.inputs := rfl
@[simp] theorem State.setChunk_params (s : State) (x : Chunk) : (s.setChunk x).params = s.params := rfl
@[simp] theorem State.setChunk_setChunk (s : State) (x y : Chunk) : (s.setChunk x).setChunk y = s.setChunk y := rfl
@[simp] theorem State.setChunk_self (s : State) : s.setChunk s.chunk = s := rfl

/-! `setIhdr` -/

@[simp] theorem State.setIhdr_cursor (s : State) (x : Ihdr) : (s.setIhdr x).cursor = s.cursor := rfl
@[simp] theorem State.setIhdr_src (s : State) (x : Ihdr) : (s.setIhdr x).src = s.src := rfl
@[simp] theorem State.setIhdr_cbuf (s : State) (x : Ihdr) : (s.setIhdr x).cbuf = s.cbuf := rfl
@[simp] theorem State.setIhdr_zbuf (s : State) (x : Ihdr) : (s.setIhdr x).zbuf = s.zbuf := rfl
@[simp] theorem State.setIhdr_pix (s : State) (x : Ihdr) : (s.setIhdr x).pix = s.pix := rfl
@[simp] theorem State.setIhdr_bmpFile (s : State) (x : Ihdr) : (s.setIhdr x).bmpFile = s.bmpFile := rfl
@[simp] theorem State.setIhdr_bmpInfo (s : State) (x : Ihdr) : (s.setIhdr x).bmpInfo = s.bmpInfo := rfl
@[simp] theorem State.setIhdr_bmpColour (s : State) (x : Ihdr) : (s.setIhdr x).bmpColour = s.bmpColour := rfl
@[simp] theorem State.setIhdr_chunk (s : State) (x : Ihdr) : (s.setIhdr x).chunk = s.chunk := rfl
@[simp] theorem State.setIhdr_ihdr (s : State) (x : Ihdr) : (s.setIhdr x).ihdr = x := rfl
@[simp] theorem State.setIhdr_defilter (s : State) (x : Ihdr) : (s.setIhdr x).defilter = s.defilter := rfl
@[simp] theorem State.setIhdr_cfgFlip (s : State) (x : Ihdr) : (s.setIhdr x).cfgFlip = s.cfgFlip := rfl
@[simp] theorem State.setIhdr_status (s : State) (x : Ihdr) : (s.setIhdr x).status = s.status := rfl
@[simp] theorem State.setIhdr_out (s : State) (x : Ihdr) : (s.setIhdr x).out = s.out := rfl
@[simp] theorem State.setIhdr_inputs (s : State) (x : Ihdr) : (s.setIhdr x).inputs = s.inputs := rfl
@[simp] theorem State.setIhdr_params (s : State) (x : Ihdr) : (s.setIhdr x).params = s.params := rfl
@[simp] theorem State.setIhdr_setIhdr (s : State) (x y : Ihdr) : (s.setIhdr x).setIhdr y = s.setIhdr y := rfl
@[simp] theorem State.setIhdr_self (s : State) : s.setIhdr s.ihdr = s := rfl

/-! `setDefilter` -/

@[simp] theorem State.setDefilter_cursor (s : State) (x : Defilter) : (s.setDefilter x).cursor = s.cursor := rfl
@[simp] theorem State.setDefilter_src (s : State) (x : Defilter) : (s.setDefilter x).src = s.src := rfl
@[simp] theorem State.setDefilter_cbuf (s : State) (x : Defilter) : (s.setDefilter x).cbuf = s.cbuf := rfl
@[simp] theorem State.setDefilter_zbuf (s : State) (x : Defilter) : (s.setDefilter x).zbuf = s.zbuf := rfl
@[simp] theorem State.setDefilter_pix (s : State) (x : Defilter) : (s.setDefilter x).pix = s.pix := rfl
@[simp] theorem State.setDefilter_bmpFile (s : State) (x : Defilter) : (s.setDefilter x).bmpFile = s.bmpFile := rfl
@[simp] theorem State.setDefilter_bmpInfo (s : State) (x : Defilter) : (s.setDefilter x).bmpInfo = s.bmpInfo := rfl
@[simp] theorem State.setDefilter_bmpColour (s : State) (x : Defilter) : (s.setDefilter x).bmpColour = s.bmpColour := rfl
@[simp] theorem State.setDefilter_chunk (s : State) (x : Defilter) : (s.setDefilter x).chunk = s.chunk := rfl
@[simp] theorem State.setDefilter_ihdr (s : State) (x : Defilter) : (s.setDefilter x).ihdr = s.ihdr := rfl
@[simp] theorem State.setDefilter_defilter (s : State) (x : Defilter) : (s.setDefilter x).defilter = x := rfl
@[simp] theorem State.setDefilter_cfgFlip (s : State) (x : Defilter) : (s.setDefilter x).cfgFlip = s.cfgFlip := rfl
@[simp] theorem State.setDefilter_status (s : State) (x : Defilter) : (s.setDefilter x).status = s.status := rfl
@[simp] theorem State.setDefilter_out (s : State) (x : Defilter) : (s.setDefilter x).out = s.out := rfl
@[simp] theorem State.setDefilter_inputs (s : State) (x : Defilter) : (s.setDefilter x).inputs = s.inputs := rfl
@[simp] theorem State.setDefilter_params (s : State) (x : Defilter) : (s.setDefilter x).params = s.params := rfl
@[simp] theorem State.setDefilter_setDefilter (s : State) (x y : Defilter) : (s.setDefilter x).setDefilter y = s.setDefilter y := rfl
@[simp] theorem State.setDefilter_self (s : State) : s.setDefilter s.defilter = s := rfl

/-! `setCfgFlip` -/

@[simp] theorem State.setCfgFlip_cursor (s : State) (x : Bit) : (s.setCfgFlip x).cursor = s.cursor := rfl
@[simp] theorem State.setCfgFlip_src (s : State) (x : Bit) : (s.setCfgFlip x).src = s.src := rfl
@[simp] theorem State.setCfgFlip_cbuf (s : State) (x : Bit) : (s.setCfgFlip x).cbuf = s.cbuf := rfl
@[simp] theorem State.setCfgFlip_zbuf (s : State) (x : Bit) : (s.setCfgFlip x).zbuf = s.zbuf := rfl
@[simp] theorem State.setCfgFlip_pix (s : State) (x : Bit) : (s.setCfgFlip x).pix = s.pix := rfl
@[simp] theorem State.setCfgFlip_bmpFile (s : State) (x : Bit) : (s.setCfgFlip x).bmpFile = s.bmpFile := rfl
@[simp] theorem State.setCfgFlip_bmpInfo (s : State) (x : Bit) : (s.setCfgFlip x).bmpInfo = s.bmpInfo := rfl
@[simp] theorem State.setCfgFlip_bmpColour (s : State) (x : Bit) : (s.setCfgFlip x).bmpColour = s.bmpColour := rfl
@[simp] theorem State.setCfgFlip_chunk (s : State) (x : Bit) : (s.setCfgFlip x).chunk = s.chunk := rfl
@[simp] theorem State.setCfgFlip_ihdr (s : State) (x : Bit) : (s.setCfgFlip x).ihdr = s.ihdr := rfl
@[simp] theorem State.setCfgFlip_defilter (s : State) (x : Bit) : (s.setCfgFlip x).defilter = s.defilter := rfl
@[simp] theorem State.setCfgFlip_cfgFlip (s : State) (x : Bit) : (s.setCfgFlip x).cfgFlip = x := rfl
@[simp] theorem State.setCfgFlip_status (s : State) (x : Bit) : (s.setCfgFlip x).status = s.status := rfl
@[simp] theorem State.setCfgFlip_out (s : State) (x : Bit) : (s.setCfgFlip x).out = s.out := rfl
@[simp] theorem State.setCfgFlip_inputs (s : State) (x : Bit) : (s.setCfgFlip x).inputs = s.inputs := rfl
@[simp] theorem State.setCfgFlip_params (s : State) (x : Bit) : (s.setCfgFlip x).params = s.params := rfl
@[simp] theorem State.setCfgFlip_setCfgFlip (s : State) (x y : Bit) : (s.setCfgFlip x).setCfgFlip y = s.setCfgFlip y := rfl
@[simp] theorem State.setCfgFlip_self (s : State) : s.setCfgFlip s.cfgFlip = s := rfl

/-! `setStatus` -/

@[simp] theorem State.setStatus_cursor (s : State) (x : Status) : (s.setStatus x).cursor = s.cursor := rfl
@[simp] theorem State.setStatus_src (s : State) (x : Status) : (s.setStatus x).src = s.src := rfl
@[simp] theorem State.setStatus_cbuf (s : State) (x : Status) : (s.setStatus x).cbuf = s.cbuf := rfl
@[simp] theorem State.setStatus_zbuf (s : State) (x : Status) : (s.setStatus x).zbuf = s.zbuf := rfl
@[simp] theorem State.setStatus_pix (s : State) (x : Status) : (s.setStatus x).pix = s.pix := rfl
@[simp] theorem State.setStatus_bmpFile (s : State) (x : Status) : (s.setStatus x).bmpFile = s.bmpFile := rfl
@[simp] theorem State.setStatus_bmpInfo (s : State) (x : Status) : (s.setStatus x).bmpInfo = s.bmpInfo := rfl
@[simp] theorem State.setStatus_bmpColour (s : State) (x : Status) : (s.setStatus x).bmpColour = s.bmpColour := rfl
@[simp] theorem State.setStatus_chunk (s : State) (x : Status) : (s.setStatus x).chunk = s.chunk := rfl
@[simp] theorem State.setStatus_ihdr (s : State) (x : Status) : (s.setStatus x).ihdr = s.ihdr := rfl
@[simp] theorem State.setStatus_defilter (s : State) (x : Status) : (s.setStatus x).defilter = s.defilter := rfl
@[simp] theorem State.setStatus_cfgFlip (s : State) (x : Status) : (s.setStatus x).cfgFlip = s.cfgFlip := rfl
@[simp] theorem State.setStatus_status (s : State) (x : Status) : (s.setStatus x).status = x := rfl
@[simp] theorem State.setStatus_out (s : State) (x : Status) : (s.setStatus x).out = s.out := rfl
@[simp] theorem State.setStatus_inputs (s : State) (x : Status) : (s.setStatus x).inputs = s.inputs := rfl
@[simp] theorem State.setStatus_params (s : State) (x : Status) : (s.setStatus x).params = s.params := rfl
@[simp] theorem State.setStatus_setStatus (s : State) (x y : Status) : (s.setStatus x).setStatus y = s.setStatus y := rfl
@[simp] theorem State.setStatus_self (s : State) : s.setStatus s.status = s := rfl

/-! `setOut` -/

@[simp] theorem State.setOut_cursor (s : State) (x : Output) : (s.setOut x).cursor = s.cursor := rfl
@[simp] theorem State.setOut_src (s : State) (x : Output) : (s.setOut x).src = s.src := rfl
@[simp] theorem State.setOut_cbuf (s : State) (x : Output) : (s.setOut x).cbuf = s.cbuf := rfl
@[simp] theorem State.setOut_zbuf (s : State) (x : Output) : (s.setOut x).zbuf = s.zbuf := rfl
@[simp] theorem State.setOut_pix (s : State) (x : Output) : (s.setOut x).pix = s.pix := rfl
@[simp] theorem State.setOut_bmpFile (s : State) (x : Output) : (s.setOut x).bmpFile = s.bmpFile := rfl
@[simp] theorem State.setOut_bmpInfo (s : State) (x : Output) : (s.setOut x).bmpInfo = s.bmpInfo := rfl
@[simp] theorem State.setOut_bmpColour (s : State) (x : Output) : (s.setOut x).bmpColour = s.bmpColour := rfl
@[simp] theorem State.setOut_chunk (s : State) (x : Output) : (s.setOut x).chunk = s.chunk := rfl
@[simp] theorem State.setOut_ihdr (s : State) (x : Output) : (s.setOut x).ihdr = s.ihdr := rfl
@[simp] theorem State.setOut_defilter (s : State) (x : Output) : (s.setOut x).defilter = s.defilter := rfl
@[simp] theorem State.setOut_cfgFlip (s : State) (x : Output) : (s.setOut x).cfgFlip = s.cfgFlip := rfl
@[simp] theorem State.setOut_status (s : State) (x : Output) : (s.setOut x).status = s.status := rfl
@[simp] theorem State.setOut_out (s : State) (x : Output) : (s.setOut x).out = x := rfl
@[simp] theorem State.setOut_inputs (s : State) (x : Output) : (s.setOut x).inputs = s.inputs := rfl
@[simp] theorem State.setOut_params (s : State) (x : Output) : (s.setOut x).params = s.params := rfl
@[simp] theorem State.setOut_setOut (s : State) (x y : Output) : (s.setOut x).setOut y = s.setOut y := rfl
@[simp] theorem State.setOut_self (s : State) : s.setOut s.out = s := rfl

/-! `setInputs` -/

@[simp] theorem State.setInputs_cursor (s : State) (x : List HostInput) : (s.setInputs x).cursor = s.cursor := rfl
@[simp] theorem State.setInputs_src (s : State) (x : List HostInput) : (s.setInputs x).src = s.src := rfl
@[simp] theorem State.setInputs_cbuf (s : State) (x : List HostInput) : (s.setInputs x).cbuf = s.cbuf := rfl
@[simp] theorem State.setInputs_zbuf (s : State) (x : List HostInput) : (s.setInputs x).zbuf = s.zbuf := rfl
@[simp] theorem State.setInputs_pix (s : State) (x : List HostInput) : (s.setInputs x).pix = s.pix := rfl
@[simp] theorem State.setInputs_bmpFile (s : State) (x : List HostInput) : (s.setInputs x).bmpFile = s.bmpFile := rfl
@[simp] theorem State.setInputs_bmpInfo (s : State) (x : List HostInput) : (s.setInputs x).bmpInfo = s.bmpInfo := rfl
@[simp] theorem State.setInputs_bmpColour (s : State) (x : List HostInput) : (s.setInputs x).bmpColour = s.bmpColour := rfl
@[simp] theorem State.setInputs_chunk (s : State) (x : List HostInput) : (s.setInputs x).chunk = s.chunk := rfl
@[simp] theorem State.setInputs_ihdr (s : State) (x : List HostInput) : (s.setInputs x).ihdr = s.ihdr := rfl
@[simp] theorem State.setInputs_defilter (s : State) (x : List HostInput) : (s.setInputs x).defilter = s.defilter := rfl
@[simp] theorem State.setInputs_cfgFlip (s : State) (x : List HostInput) : (s.setInputs x).cfgFlip = s.cfgFlip := rfl
@[simp] theorem State.setInputs_status (s : State) (x : List HostInput) : (s.setInputs x).status = s.status := rfl
@[simp] theorem State.setInputs_out (s : State) (x : List HostInput) : (s.setInputs x).out = s.out := rfl
@[simp] theorem State.setInputs_inputs (s : State) (x : List HostInput) : (s.setInputs x).inputs = x := rfl
@[simp] theorem State.setInputs_params (s : State) (x : List HostInput) : (s.setInputs x).params = s.params := rfl
@[simp] theorem State.setInputs_setInputs (s : State) (x y : List HostInput) : (s.setInputs x).setInputs y = s.setInputs y := rfl
@[simp] theorem State.setInputs_self (s : State) : s.setInputs s.inputs = s := rfl

/-! `setPos` and `setVal` -/

@[simp] theorem State.setPos_src (s : State) (n : Nat) : (s.setPos n).src = s.src := rfl
@[simp] theorem State.setPos_cbuf (s : State) (n : Nat) : (s.setPos n).cbuf = s.cbuf := rfl
@[simp] theorem State.setPos_zbuf (s : State) (n : Nat) : (s.setPos n).zbuf = s.zbuf := rfl
@[simp] theorem State.setPos_pix (s : State) (n : Nat) : (s.setPos n).pix = s.pix := rfl
@[simp] theorem State.setPos_bmpFile (s : State) (n : Nat) : (s.setPos n).bmpFile = s.bmpFile := rfl
@[simp] theorem State.setPos_bmpInfo (s : State) (n : Nat) : (s.setPos n).bmpInfo = s.bmpInfo := rfl
@[simp] theorem State.setPos_bmpColour (s : State) (n : Nat) : (s.setPos n).bmpColour = s.bmpColour := rfl
@[simp] theorem State.setPos_chunk (s : State) (n : Nat) : (s.setPos n).chunk = s.chunk := rfl
@[simp] theorem State.setPos_ihdr (s : State) (n : Nat) : (s.setPos n).ihdr = s.ihdr := rfl
@[simp] theorem State.setPos_defilter (s : State) (n : Nat) : (s.setPos n).defilter = s.defilter := rfl
@[simp] theorem State.setPos_cfgFlip (s : State) (n : Nat) : (s.setPos n).cfgFlip = s.cfgFlip := rfl
@[simp] theorem State.setPos_status (s : State) (n : Nat) : (s.setPos n).status = s.status := rfl
@[simp] theorem State.setPos_out (s : State) (n : Nat) : (s.setPos n).out = s.out := rfl
@[simp] theorem State.setPos_inputs (s : State) (n : Nat) : (s.setPos n).inputs = s.inputs := rfl
@[simp] theorem State.setPos_params (s : State) (n : Nat) : (s.setPos n).params = s.params := rfl
@[simp] theorem State.setPos_cursor_pos (s : State) (n : Nat) : (s.setPos n).cursor.pos = BitVec.ofNat 64 n := rfl
@[simp] theorem State.setPos_cursor_srcValid (s : State) (n : Nat) : (s.setPos n).cursor.srcValid = s.cursor.srcValid := rfl
@[simp] theorem State.setPos_cursor_val (s : State) (n : Nat) : (s.setPos n).cursor.val = s.cursor.val := rfl

@[simp] theorem State.setVal_src (s : State) (n : Nat) : (s.setVal n).src = s.src := rfl
@[simp] theorem State.setVal_cbuf (s : State) (n : Nat) : (s.setVal n).cbuf = s.cbuf := rfl
@[simp] theorem State.setVal_zbuf (s : State) (n : Nat) : (s.setVal n).zbuf = s.zbuf := rfl
@[simp] theorem State.setVal_pix (s : State) (n : Nat) : (s.setVal n).pix = s.pix := rfl
@[simp] theorem State.setVal_bmpFile (s : State) (n : Nat) : (s.setVal n).bmpFile = s.bmpFile := rfl
@[simp] theorem State.setVal_bmpInfo (s : State) (n : Nat) : (s.setVal n).bmpInfo = s.bmpInfo := rfl
@[simp] theorem State.setVal_bmpColour (s : State) (n : Nat) : (s.setVal n).bmpColour = s.bmpColour := rfl
@[simp] theorem State.setVal_chunk (s : State) (n : Nat) : (s.setVal n).chunk = s.chunk := rfl
@[simp] theorem State.setVal_ihdr (s : State) (n : Nat) : (s.setVal n).ihdr = s.ihdr := rfl
@[simp] theorem State.setVal_defilter (s : State) (n : Nat) : (s.setVal n).defilter = s.defilter := rfl
@[simp] theorem State.setVal_cfgFlip (s : State) (n : Nat) : (s.setVal n).cfgFlip = s.cfgFlip := rfl
@[simp] theorem State.setVal_status (s : State) (n : Nat) : (s.setVal n).status = s.status := rfl
@[simp] theorem State.setVal_out (s : State) (n : Nat) : (s.setVal n).out = s.out := rfl
@[simp] theorem State.setVal_inputs (s : State) (n : Nat) : (s.setVal n).inputs = s.inputs := rfl
@[simp] theorem State.setVal_params (s : State) (n : Nat) : (s.setVal n).params = s.params := rfl
@[simp] theorem State.setVal_cursor_pos (s : State) (n : Nat) : (s.setVal n).cursor.pos = s.cursor.pos := rfl
@[simp] theorem State.setVal_cursor_srcValid (s : State) (n : Nat) : (s.setVal n).cursor.srcValid = s.cursor.srcValid := rfl
@[simp] theorem State.setVal_cursor_val (s : State) (n : Nat) : (s.setVal n).cursor.val = BitVec.ofNat 32 n := rfl

/-! Buffers by space -/

@[simp] theorem State.buf_src (s : State) : s.buf .src = s.src := rfl
@[simp] theorem State.buf_cbuf (s : State) : s.buf .cbuf = s.cbuf := rfl
@[simp] theorem State.buf_zbuf (s : State) : s.buf .zbuf = s.zbuf := rfl
@[simp] theorem State.buf_pix (s : State) : s.buf .pix = s.pix := rfl

/-! Registers by name -/

@[simp] theorem State.reg_cfgFlip (s : State) : s.reg .cfgFlip = s.cfgFlip.toNat := rfl
@[simp] theorem State.reg_pos (s : State) : s.reg .pos = s.cursor.pos.toNat := rfl
@[simp] theorem State.reg_val (s : State) : s.reg .val = s.cursor.val.toNat := rfl
@[simp] theorem State.reg_srcLen (s : State) : s.reg .srcLen = s.src.len.toNat := rfl
@[simp] theorem State.reg_srcValid (s : State) : s.reg .srcValid = s.cursor.srcValid.toNat := rfl
@[simp] theorem State.reg_clen (s : State) : s.reg .clen = s.cbuf.len.toNat := rfl
@[simp] theorem State.reg_zlen (s : State) : s.reg .zlen = s.zbuf.len.toNat := rfl
@[simp] theorem State.reg_pixLen (s : State) : s.reg .pixLen = s.pix.len.toNat := rfl
@[simp] theorem State.reg_bfType (s : State) : s.reg .bfType = s.bmpFile.bfType.toNat := rfl
@[simp] theorem State.reg_bfSize (s : State) : s.reg .bfSize = s.bmpFile.bfSize.toNat := rfl
@[simp] theorem State.reg_bfRes1 (s : State) : s.reg .bfRes1 = s.bmpFile.bfRes1.toNat := rfl
@[simp] theorem State.reg_bfRes2 (s : State) : s.reg .bfRes2 = s.bmpFile.bfRes2.toNat := rfl
@[simp] theorem State.reg_bfOffbits (s : State) : s.reg .bfOffbits = s.bmpFile.bfOffbits.toNat := rfl
@[simp] theorem State.reg_declOff (s : State) : s.reg .declOff = s.bmpFile.declOff.toNat := rfl
@[simp] theorem State.reg_biSize (s : State) : s.reg .biSize = s.bmpInfo.biSize.toNat := rfl
@[simp] theorem State.reg_biWidth (s : State) : s.reg .biWidth = s.bmpInfo.biWidth.toNat := rfl
@[simp] theorem State.reg_biHeight (s : State) : s.reg .biHeight = s.bmpInfo.biHeight.toNat := rfl
@[simp] theorem State.reg_biPlanes (s : State) : s.reg .biPlanes = s.bmpInfo.biPlanes.toNat := rfl
@[simp] theorem State.reg_biBitcount (s : State) : s.reg .biBitcount = s.bmpInfo.biBitcount.toNat := rfl
@[simp] theorem State.reg_biCompression (s : State) : s.reg .biCompression = s.bmpInfo.biCompression.toNat := rfl
@[simp] theorem State.reg_biSizeimage (s : State) : s.reg .biSizeimage = s.bmpInfo.biSizeimage.toNat := rfl
@[simp] theorem State.reg_biXppm (s : State) : s.reg .biXppm = s.bmpInfo.biXppm.toNat := rfl
@[simp] theorem State.reg_biYppm (s : State) : s.reg .biYppm = s.bmpInfo.biYppm.toNat := rfl
@[simp] theorem State.reg_biClrused (s : State) : s.reg .biClrused = s.bmpInfo.biClrused.toNat := rfl
@[simp] theorem State.reg_biClrimportant (s : State) : s.reg .biClrimportant = s.bmpInfo.biClrimportant.toNat := rfl
@[simp] theorem State.reg_bcRmask (s : State) : s.reg .bcRmask = s.bmpColour.bcRmask.toNat := rfl
@[simp] theorem State.reg_bcGmask (s : State) : s.reg .bcGmask = s.bmpColour.bcGmask.toNat := rfl
@[simp] theorem State.reg_bcBmask (s : State) : s.reg .bcBmask = s.bmpColour.bcBmask.toNat := rfl
@[simp] theorem State.reg_bcAmask (s : State) : s.reg .bcAmask = s.bmpColour.bcAmask.toNat := rfl
@[simp] theorem State.reg_bcCstype (s : State) : s.reg .bcCstype = s.bmpColour.bcCstype.toNat := rfl
@[simp] theorem State.reg_chLen (s : State) : s.reg .chLen = s.chunk.chLen.toNat := rfl
@[simp] theorem State.reg_chTag (s : State) : s.reg .chTag = s.chunk.chTag.toNat := rfl
@[simp] theorem State.reg_chCrc (s : State) : s.reg .chCrc = s.chunk.chCrc.toNat := rfl
@[simp] theorem State.reg_ihdrSeen (s : State) : s.reg .ihdrSeen = s.chunk.ihdrSeen.toNat := rfl
@[simp] theorem State.reg_ihWidth (s : State) : s.reg .ihWidth = s.ihdr.ihWidth.toNat := rfl
@[simp] theorem State.reg_ihHeight (s : State) : s.reg .ihHeight = s.ihdr.ihHeight.toNat := rfl
@[simp] theorem State.reg_ihDepth (s : State) : s.reg .ihDepth = s.ihdr.ihDepth.toNat := rfl
@[simp] theorem State.reg_ihCtype (s : State) : s.reg .ihCtype = s.ihdr.ihCtype.toNat := rfl
@[simp] theorem State.reg_ihComp (s : State) : s.reg .ihComp = s.ihdr.ihComp.toNat := rfl
@[simp] theorem State.reg_ihFilter (s : State) : s.reg .ihFilter = s.ihdr.ihFilter.toNat := rfl
@[simp] theorem State.reg_ihInterlace (s : State) : s.reg .ihInterlace = s.ihdr.ihInterlace.toNat := rfl
@[simp] theorem State.reg_dfW (s : State) : s.reg .dfW = s.defilter.dfW.toNat := rfl
@[simp] theorem State.reg_dfH (s : State) : s.reg .dfH = s.defilter.dfH.toNat := rfl
@[simp] theorem State.reg_dfY (s : State) : s.reg .dfY = s.defilter.dfY.toNat := rfl
@[simp] theorem State.reg_dfFt (s : State) : s.reg .dfFt = s.defilter.dfFt.toNat := rfl
@[simp] theorem State.reg_stState (s : State) : s.reg .stState = s.status.stState.toNat := rfl
@[simp] theorem State.reg_stDone (s : State) : s.reg .stDone = s.status.stDone.toNat := rfl
@[simp] theorem State.reg_stErr (s : State) : s.reg .stErr = s.status.stErr.toNat := rfl
@[simp] theorem State.reg_stErrinfo (s : State) : s.reg .stErrinfo = s.status.stErrinfo.toNat := rfl
@[simp] theorem State.reg_stWarnTopdown (s : State) : s.reg .stWarnTopdown = s.status.stWarnTopdown.toNat := rfl
@[simp] theorem State.reg_outW (s : State) : s.reg .outW = s.out.outW.toNat := rfl
@[simp] theorem State.reg_outH (s : State) : s.reg .outH = s.out.outH.toNat := rfl

end Sys2Proof.Machine
end

