-- ==== Sys2Proof/Laws/Memory.lean ====
section
/-! SUPPORT. Memory and buffers: a read after a write, the canonical form, byte sequences read and written. -/

namespace Sys2Proof.Machine

/-! ### Cells -/

theorem lookupCells_insertCells (l : List Host.Cell) (a : Nat) (v : Byte) (x : Nat) :
    lookupCells (insertCells l a v) x = if x = a then some v else lookupCells l x := by
  induction l with
  | nil => simp [insertCells, lookupCells]
  | cons c rest ih =>
    obtain ⟨k, w⟩ := c
    simp only [insertCells]
    split
    · simp only [lookupCells]
    · split
      · subst k; simp only [lookupCells]; split <;> rfl
      · simp only [lookupCells, ih]; split <;> split <;> first | rfl | omega

theorem lookupCells_filter (l : List Host.Cell) (n x : Nat) :
    lookupCells (l.filter fun c => decide (c.1 < n)) x = if x < n then lookupCells l x else none := by
  induction l with
  | nil => simp [lookupCells]
  | cons c rest ih =>
    obtain ⟨k, w⟩ := c
    by_cases hk : k < n
    · simp only [List.filter_cons, hk, decide_true, if_true, lookupCells, ih]
      split <;> split <;> first | rfl | omega
    · simp only [List.filter_cons, hk, decide_false, Bool.false_eq_true, if_false, lookupCells, ih]
      split
      · rw [if_neg (by omega)]
      · rfl

theorem mem_insertCells_fst (l : List Host.Cell) (a : Nat) (v : Byte) (c : Host.Cell) (h : c ∈ insertCells l a v) :
    c.1 = a ∨ c ∈ l := by
  induction l with
  | nil => simp [insertCells] at h; simp [h]
  | cons d rest ih =>
    obtain ⟨k, w⟩ := d
    simp only [insertCells] at h
    split at h
    · simp only [List.mem_cons] at h ⊢; rcases h with rfl | h <;> simp_all
    · split at h
      · simp only [List.mem_cons] at h ⊢; rcases h with rfl | h <;> simp_all
      · simp only [List.mem_cons] at h ⊢
        rcases h with h | h
        · exact .inr (.inl h)
        · rcases ih h with h | h
          · exact .inl h
          · exact .inr (.inr h)

/-- Inserting keeps the addresses strictly rising. -/
theorem insertCells_pairwise (l : List Host.Cell) (a : Nat) (v : Byte) (h : l.Pairwise fun x y => x.1 < y.1) :
    (insertCells l a v).Pairwise fun x y => x.1 < y.1 := by
  induction l with
  | nil => simp [insertCells]
  | cons d rest ih =>
    obtain ⟨k, w⟩ := d
    have hk := (List.pairwise_cons.mp h).1
    have hr := (List.pairwise_cons.mp h).2
    simp only [insertCells]
    split
    · refine List.pairwise_cons.mpr ⟨fun c hc => ?_, h⟩
      rcases List.mem_cons.mp hc with rfl | hc
      · assumption
      · have := hk c hc; simp only at this ⊢; omega
    · split
      · subst k; exact List.pairwise_cons.mpr ⟨hk, hr⟩
      · refine List.pairwise_cons.mpr ⟨fun c hc => ?_, ih hr⟩
        rcases mem_insertCells_fst rest a v c hc with h1 | h1
        · simp only; omega
        · exact hk c h1

/-! ### Memory -/

@[simp] theorem Memory.get?_empty (a : Nat) : Memory.empty.get? a = none := rfl

@[simp] theorem Memory.get?_write (m : Memory) (a : Nat) (v : Byte) (x : Nat) :
    (m.write a v).get? x = if x = a then some v else m.get? x :=
  lookupCells_insertCells m.cells a v x

@[simp] theorem Memory.get?_below (m : Memory) (n x : Nat) : (m.below n).get? x = if x < n then m.get? x else none :=
  lookupCells_filter m.cells n x

theorem Memory.get?_writeBytes (vs : List Byte) : ∀ (m : Memory) (a x : Nat),
    (m.writeBytes a vs).get? x = if a ≤ x ∧ x < a + vs.length then vs[x - a]? else m.get? x := by
  induction vs with
  | nil => intro m a x; simp only [Memory.writeBytes, List.length_nil]; rw [if_neg (by omega)]
  | cons v vs ih =>
    intro m a x
    simp only [Memory.writeBytes, ih, Memory.get?_write, List.length_cons]
    by_cases h1 : a + 1 ≤ x ∧ x < a + 1 + vs.length
    · rw [if_pos h1, if_pos (by omega)]
      obtain ⟨d, rfl⟩ := Nat.exists_eq_add_of_le h1.1
      rw [show a + 1 + d - (a + 1) = d by omega, show a + 1 + d - a = d + 1 by omega]
      simp
    · rw [if_neg h1]
      by_cases h2 : x = a
      · subst h2; rw [if_pos rfl, if_pos (by omega)]; simp
      · rw [if_neg h2, if_neg (by omega)]

theorem Memory.wf_empty : Memory.empty.wf := List.Pairwise.nil

theorem Memory.wf_write {m : Memory} (h : m.wf) (a : Nat) (v : Byte) : (m.write a v).wf :=
  insertCells_pairwise m.cells a v h

theorem Memory.wf_writeBytes (vs : List Byte) : ∀ {m : Memory} (_ : m.wf) (a : Nat), (m.writeBytes a vs).wf := by
  induction vs with
  | nil => intro m h a; exact h
  | cons v vs ih => intro m h a; exact ih (wf_write h a v) (a + 1)

theorem Memory.wf_below {m : Memory} (h : m.wf) (n : Nat) : (m.below n).wf := List.Pairwise.filter _ h

/-! ### Buffers: bytes -/

@[simp] theorem Buffer.byte_write (sp : Space) (b : Buffer) (a : Nat) (v : Byte) (x : Nat) :
    (b.write a v).byte sp x = if x = a then v else b.byte sp x := by
  simp only [Buffer.byte, Buffer.write, Memory.get?_write]
  split <;> rfl

theorem Buffer.byte_writeBytes (sp : Space) (b : Buffer) (a : Nat) (vs : List Byte) (x : Nat) :
    (b.writeBytes a vs).byte sp x = if h : a ≤ x ∧ x < a + vs.length then vs[x - a] else b.byte sp x := by
  simp only [Buffer.byte, Buffer.writeBytes, Memory.get?_writeBytes]
  by_cases h : a ≤ x ∧ x < a + vs.length
  · rw [if_pos h, dif_pos h, List.getElem?_eq_getElem (by omega)]; rfl
  · rw [if_neg h, dif_neg h]

theorem Buffer.byte_writeBytes_in (sp : Space) (b : Buffer) (a : Nat) (vs : List Byte) (j : Nat) (h : j < vs.length) :
    (b.writeBytes a vs).byte sp (a + j) = vs[j] := by
  rw [Buffer.byte_writeBytes, dif_pos (by omega)]
  simp

theorem Buffer.byte_writeBytes_out (sp : Space) (b : Buffer) (a : Nat) (vs : List Byte) (x : Nat)
    (h : x < a ∨ a + vs.length ≤ x) : (b.writeBytes a vs).byte sp x = b.byte sp x := by
  rw [Buffer.byte_writeBytes, dif_neg (by omega)]

@[simp] theorem Buffer.byte_setLen (sp : Space) (b : Buffer) (n x : Nat) : (b.setLen n).byte sp x = b.byte sp x := rfl

@[simp] theorem Buffer.bytes_length (sp : Space) (b : Buffer) (n : Nat) : ∀ a, (b.bytes sp a n).length = n := by
  induction n with
  | zero => intro a; rfl
  | succ n ih => intro a; simp [Buffer.bytes, ih]

theorem Buffer.bytes_getElem (sp : Space) (b : Buffer) (n : Nat) :
    ∀ (a j : Nat) (h : j < (b.bytes sp a n).length), (b.bytes sp a n)[j] = b.byte sp (a + j) := by
  induction n with
  | zero => intro a j h; simp [Buffer.bytes] at h
  | succ n ih =>
    intro a j h
    cases j with
    | zero => simp [Buffer.bytes]
    | succ j =>
      simp only [Buffer.bytes, List.getElem_cons_succ]
      rw [ih]
      congr 1; omega

/-- Two buffers that agree on a range give the same bytes there. -/
theorem Buffer.bytes_congr {sp : Space} {b c : Buffer} {a n : Nat}
    (h : ∀ x, a ≤ x → x < a + n → b.byte sp x = c.byte sp x) : b.bytes sp a n = c.bytes sp a n := by
  apply List.ext_getElem (by simp)
  intro j h1 h2
  rw [Buffer.bytes_getElem, Buffer.bytes_getElem]
  simp only [Buffer.bytes_length] at h1
  exact h _ (by omega) (by omega)

/-- A list is the bytes of a range when it is so byte by byte. -/
theorem Buffer.bytes_eq {sp : Space} {b : Buffer} {a n : Nat} {vs : List Byte} (hl : vs.length = n)
    (h : ∀ (j : Nat) (hj : j < vs.length), b.byte sp (a + j) = vs[j]) : b.bytes sp a n = vs := by
  apply List.ext_getElem (by simp [hl])
  intro j h1 h2
  rw [Buffer.bytes_getElem]
  exact h j h2

theorem Buffer.bytes_add (sp : Space) (b : Buffer) (m n : Nat) :
    ∀ a, b.bytes sp a (m + n) = b.bytes sp a m ++ b.bytes sp (a + m) n := by
  induction m with
  | zero => intro a; simp [Buffer.bytes]
  | succ m ih =>
    intro a
    rw [show m + 1 + n = (m + n) + 1 by omega]
    simp only [Buffer.bytes, List.cons_append, ih]
    rw [show a + 1 + m = a + (m + 1) by omega]

theorem Buffer.drop_bytes (sp : Space) (b : Buffer) (a n d : Nat) :
    (b.bytes sp a n).drop d = b.bytes sp (a + d) (n - d) := by
  by_cases h : d ≤ n
  · obtain ⟨k, rfl⟩ := Nat.exists_eq_add_of_le h
    rw [Buffer.bytes_add, List.drop_left' (by simp)]
    congr 1; omega
  · rw [List.drop_eq_nil_of_le (by simp; omega), show n - d = 0 by omega]; rfl

theorem Buffer.take_bytes (sp : Space) (b : Buffer) (a n d : Nat) (h : d ≤ n) :
    (b.bytes sp a n).take d = b.bytes sp a d := by
  obtain ⟨k, rfl⟩ := Nat.exists_eq_add_of_le h
  rw [Buffer.bytes_add, List.take_left' (by simp)]

/-! ### Buffers: fields -/

@[simp] theorem Buffer.write_len (b : Buffer) (a : Nat) (v : Byte) : (b.write a v).len = b.len := rfl
@[simp] theorem Buffer.write_gen (b : Buffer) (a : Nat) (v : Byte) : (b.write a v).gen = b.gen := rfl
@[simp] theorem Buffer.writeBytes_len (b : Buffer) (a : Nat) (vs : List Byte) : (b.writeBytes a vs).len = b.len := rfl
@[simp] theorem Buffer.setLen_len (b : Buffer) (n : Nat) : (b.setLen n).len = BitVec.ofNat 64 n := rfl
@[simp] theorem Buffer.setLen_mem (b : Buffer) (n : Nat) : (b.setLen n).mem = b.mem := rfl
@[simp] theorem Buffer.forget_len (b : Buffer) : b.forget.len = b.len := rfl
@[simp] theorem Buffer.forget_mem (b : Buffer) : b.forget.mem = Memory.empty := rfl
@[simp] theorem Buffer.emptied_len (b : Buffer) : b.emptied.len = 0 := rfl
@[simp] theorem Buffer.emptied_mem (b : Buffer) : b.emptied.mem = Memory.empty := rfl
@[simp] theorem Buffer.holding_len (b : Buffer) (vs : List Byte) : (b.holding vs).len = BitVec.ofNat 64 vs.length := rfl

theorem Buffer.wf_write {b : Buffer} (h : b.mem.wf) (a : Nat) (v : Byte) : (b.write a v).mem.wf := Memory.wf_write h a v

theorem Buffer.wf_writeBytes {b : Buffer} (h : b.mem.wf) (a : Nat) (vs : List Byte) : (b.writeBytes a vs).mem.wf :=
  Memory.wf_writeBytes vs h a

theorem Buffer.wf_holding (b : Buffer) (vs : List Byte) : (b.holding vs).mem.wf :=
  Memory.wf_writeBytes vs Memory.wf_empty 0

theorem Buffer.wf_hostSetLen {b : Buffer} (h : b.mem.wf) (n : Nat) : (b.hostSetLen n).mem.wf := by
  unfold Buffer.hostSetLen
  split
  · exact Memory.wf_below h n
  · exact h

@[simp] theorem Buffer.hostSetLen_len (b : Buffer) (n : Nat) : (b.hostSetLen n).len = BitVec.ofNat 64 n := by
  unfold Buffer.hostSetLen; split <;> rfl

theorem Buffer.holding_byte (sp : Space) (b : Buffer) (vs : List Byte) (j : Nat) (h : j < vs.length) :
    (b.holding vs).byte sp j = vs[j] := by
  have := Buffer.byte_writeBytes_in sp b.emptied 0 vs j h
  simpa [Buffer.holding] using this

theorem Buffer.holding_bytes (sp : Space) (b : Buffer) (vs : List Byte) :
    (b.holding vs).bytes sp 0 vs.length = vs :=
  Buffer.bytes_eq rfl fun j hj => by rw [Nat.zero_add]; exact Buffer.holding_byte sp b vs j hj

/-! ### Which addresses are listed -/

theorem Memory.isSome_write (m : Memory) (a : Nat) (v : Byte) (x : Nat) :
    ((m.write a v).get? x).isSome ↔ x = a ∨ (m.get? x).isSome := by
  rw [Memory.get?_write]; split <;> simp_all

theorem Memory.isSome_writeBytes (m : Memory) (a : Nat) (vs : List Byte) (x : Nat) :
    ((m.writeBytes a vs).get? x).isSome ↔ (a ≤ x ∧ x < a + vs.length) ∨ (m.get? x).isSome := by
  rw [Memory.get?_writeBytes]
  split
  · rename_i h; rw [List.getElem?_eq_getElem (by omega)]; simp [h]
  · rename_i h; simp [h]

/-- A byte that is listed does not depend on the free value. -/
theorem Buffer.byte_of_listed {b c : Buffer} {sp : Space} {a : Nat} (h : (b.mem.get? a).isSome)
    (e : b.mem.get? a = c.mem.get? a) : b.byte sp a = c.byte sp a := by
  obtain ⟨v, hv⟩ := Option.isSome_iff_exists.mp h
  simp only [Buffer.byte, ← e, hv, Option.getD_some]

end Sys2Proof.Machine
end

