-- ==== Sys2Proof/Laws/Frame.lean ====
section
/-! SUPPORT. Frames: they compose, they weaken, and what each update of a register group leaves. -/

namespace Sys2Proof.Safety

open Sys2Proof.Machine

theorem SameExcept.refl (R : List Reg) (S : List Space) (s : State) : SameExcept R S s s :=
  ⟨fun _ _ => rfl, fun _ _ _ => rfl, rfl, rfl⟩

theorem SameExcept.trans {R R' : List Reg} {S S' : List Space} {s t u : State}
    (h : SameExcept R S s t) (h' : SameExcept R' S' t u) : SameExcept (R ++ R') (S ++ S') s u := by
  refine ⟨fun r hr => ?_, fun sp hs a => ?_, h'.2.2.1.trans h.2.2.1, h'.2.2.2.trans h.2.2.2⟩
  · simp only [List.mem_append, not_or] at hr
    rw [h'.1 r hr.2, h.1 r hr.1]
  · simp only [List.mem_append, not_or] at hs
    rw [h'.2.1 sp hs.2 a, h.2.1 sp hs.1 a]

theorem SameExcept.mono {R R' : List Reg} {S S' : List Space} {s t : State}
    (h : SameExcept R S s t) (hR : ∀ r ∈ R, r ∈ R') (hS : ∀ sp ∈ S, sp ∈ S') : SameExcept R' S' s t :=
  ⟨fun r hr => h.1 r fun hm => hr (hR r hm), fun sp hs a => h.2.1 sp (fun hm => hs (hS sp hm)) a, h.2.2⟩

/-- Two frames over the same names compose to that frame. -/
theorem SameExcept.trans' {R : List Reg} {S : List Space} {s t u : State}
    (h : SameExcept R S s t) (h' : SameExcept R S t u) : SameExcept R S s u :=
  (h.trans h').mono (fun r hr => by simpa using hr) (fun sp hs => by simpa using hs)

theorem SameExcept.reg {R : List Reg} {S : List Space} {s t : State} (h : SameExcept R S s t) {r : Reg} (hr : r ∉ R) :
    t.reg r = s.reg r := h.1 r hr

theorem SameExcept.byte {R : List Reg} {S : List Space} {s t : State} (h : SameExcept R S s t) {sp : Space} (hs : sp ∉ S)
    (a : Nat) : t.byte sp a = s.byte sp a := h.2.1 sp hs a

theorem sameExcept_setPos (s : State) (n : Nat) : SameExcept [.pos] [] s (s.setPos n) :=
  ⟨fun r hr => by cases r <;> first | rfl | simp at hr, fun sp _ _ => by cases sp <;> rfl, rfl, rfl⟩

theorem sameExcept_setVal (s : State) (n : Nat) : SameExcept [.val] [] s (s.setVal n) :=
  ⟨fun r hr => by cases r <;> first | rfl | simp at hr, fun sp _ _ => by cases sp <;> rfl, rfl, rfl⟩

theorem sameExcept_setPix (s : State) (b : Buffer) : SameExcept [.pixLen] [.pix] s (s.setPix b) :=
  ⟨fun r hr => by cases r <;> first | rfl | simp at hr,
    fun sp hs _ => by cases sp <;> first | rfl | simp at hs, rfl, rfl⟩

theorem sameExcept_setZbuf (s : State) (b : Buffer) : SameExcept [.zlen] [.zbuf] s (s.setZbuf b) :=
  ⟨fun r hr => by cases r <;> first | rfl | simp at hr,
    fun sp hs _ => by cases sp <;> first | rfl | simp at hs, rfl, rfl⟩

theorem sameExcept_setCbuf (s : State) (b : Buffer) : SameExcept [.clen] [.cbuf] s (s.setCbuf b) :=
  ⟨fun r hr => by cases r <;> first | rfl | simp at hr,
    fun sp hs _ => by cases sp <;> first | rfl | simp at hs, rfl, rfl⟩

/-- ZBUF rewritten with its length kept. -/
theorem sameExcept_setZbuf_len (s : State) (b : Buffer) (h : b.len = s.zbuf.len) :
    SameExcept [] [.zbuf] s (s.setZbuf b) :=
  ⟨fun r _ => by cases r <;> first | rfl | (simp [h]),
    fun sp hs _ => by cases sp <;> first | rfl | simp at hs, rfl, rfl⟩

/-- PIX rewritten with its length kept. -/
theorem sameExcept_setPix_len (s : State) (b : Buffer) (h : b.len = s.pix.len) :
    SameExcept [] [.pix] s (s.setPix b) :=
  ⟨fun r _ => by cases r <;> first | rfl | (simp [h]),
    fun sp hs _ => by cases sp <;> first | rfl | simp at hs, rfl, rfl⟩

theorem sameExcept_setStatus (s : State) (f : Status) :
    SameExcept [.stState, .stDone, .stErr, .stErrinfo, .stWarnTopdown] [] s (s.setStatus f) :=
  ⟨fun r hr => by cases r <;> first | rfl | simp at hr, fun sp _ _ => by cases sp <;> rfl, rfl, rfl⟩

theorem sameExcept_setDefilter (s : State) (d : Defilter) :
    SameExcept [.dfW, .dfH, .dfY, .dfFt] [] s (s.setDefilter d) :=
  ⟨fun r hr => by cases r <;> first | rfl | simp at hr, fun sp _ _ => by cases sp <;> rfl, rfl, rfl⟩

theorem sameExcept_setChunk (s : State) (c : Chunk) :
    SameExcept [.chLen, .chTag, .chCrc, .ihdrSeen] [] s (s.setChunk c) :=
  ⟨fun r hr => by cases r <;> first | rfl | simp at hr, fun sp _ _ => by cases sp <;> rfl, rfl, rfl⟩

theorem sameExcept_setIhdr (s : State) (h : Ihdr) :
    SameExcept [.ihWidth, .ihHeight, .ihDepth, .ihCtype, .ihComp, .ihFilter, .ihInterlace] [] s (s.setIhdr h) :=
  ⟨fun r hr => by cases r <;> first | rfl | simp at hr, fun sp _ _ => by cases sp <;> rfl, rfl, rfl⟩

theorem sameExcept_setOut (s : State) (o : Output) : SameExcept [.outW, .outH] [] s (s.setOut o) :=
  ⟨fun r hr => by cases r <;> first | rfl | simp at hr, fun sp _ _ => by cases sp <;> rfl, rfl, rfl⟩

theorem sameExcept_setBmpFile (s : State) (b : BmpFile) :
    SameExcept [.bfType, .bfSize, .bfRes1, .bfRes2, .bfOffbits, .declOff] [] s (s.setBmpFile b) :=
  ⟨fun r hr => by cases r <;> first | rfl | simp at hr, fun sp _ _ => by cases sp <;> rfl, rfl, rfl⟩

theorem sameExcept_setBmpInfo (s : State) (b : BmpInfo) :
    SameExcept [.biSize, .biWidth, .biHeight, .biPlanes, .biBitcount, .biCompression, .biSizeimage, .biXppm, .biYppm,
      .biClrused, .biClrimportant] [] s (s.setBmpInfo b) :=
  ⟨fun r hr => by cases r <;> first | rfl | simp at hr, fun sp _ _ => by cases sp <;> rfl, rfl, rfl⟩

theorem sameExcept_setBmpColour (s : State) (b : BmpColour) :
    SameExcept [.bcRmask, .bcGmask, .bcBmask, .bcAmask, .bcCstype] [] s (s.setBmpColour b) :=
  ⟨fun r hr => by cases r <;> first | rfl | simp at hr, fun sp _ _ => by cases sp <;> rfl, rfl, rfl⟩

end Sys2Proof.Safety
end

