-- ==== Sys2Proof/Laws/Ops.lean ====
section
/-! SUPPORT. The shared operations: how a command's result is sequenced, the failure entry and the return, the gate of the
FAULTED state, byte order, and the cursor primitives in every case. -/

namespace Sys2Proof.Machine

open Sys2Proof.Safety

/-! ### Results -/

@[simp] theorem Res.andThen_ok {α β : Type} (v : α) (s : State) (f : α → State → Res β) :
    (Res.ok v s).andThen f = f v s := rfl

@[simp] theorem Res.andThen_raised {α β : Type} (k : ErrKind) (n : Nat) (s : State) (f : α → State → Res β) :
    (Res.raised k n s).andThen f = .raised k n s := rfl

/-- A sequence ends well exactly when both parts do. -/
theorem Res.andThen_eq_ok {α β : Type} {r : Res α} {f : α → State → Res β} {w : β} {t : State} :
    r.andThen f = .ok w t ↔ ∃ v s, r = .ok v s ∧ f v s = .ok w t := by
  cases r <;> simp [Res.andThen]

/-- A sequence raises in its first part or in its second. -/
theorem Res.andThen_eq_raised {α β : Type} {r : Res α} {f : α → State → Res β} {k : ErrKind} {n : Nat} {t : State} :
    r.andThen f = .raised k n t ↔ r = .raised k n t ∨ ∃ v s, r = .ok v s ∧ f v s = .raised k n t := by
  cases r <;> simp [Res.andThen]

@[simp] theorem Res.finish_ok (u : Unit) (s : State) : (Res.ok u s).finish = s := rfl

@[simp] theorem Res.finish_raised (k : ErrKind) (n : Nat) (s : State) :
    (Res.raised k n s : Res Unit).finish = takeFailure k n s := rfl

/-- The state in which a result leaves the pseudocode, before the failure entry. -/
def Res.last {α : Type} : Res α → State
  | .ok _ s => s
  | .raised _ _ s => s

@[simp] theorem Res.last_ok {α : Type} (v : α) (s : State) : (Res.ok v s).last = s := rfl
@[simp] theorem Res.last_raised {α : Type} (k : ErrKind) (n : Nat) (s : State) : (Res.raised k n s : Res α).last = s := rfl

/-! ### The failure entry and the return, field by field -/

@[simp] theorem takeFailure_cursor (k : ErrKind) (n : Nat) (s : State) : (takeFailure k n s).cursor = s.cursor := rfl
@[simp] theorem takeFailure_src (k : ErrKind) (n : Nat) (s : State) : (takeFailure k n s).src = s.src := rfl
@[simp] theorem takeFailure_cbuf (k : ErrKind) (n : Nat) (s : State) : (takeFailure k n s).cbuf = s.cbuf.forget := rfl
@[simp] theorem takeFailure_zbuf (k : ErrKind) (n : Nat) (s : State) : (takeFailure k n s).zbuf = s.zbuf.forget := rfl
@[simp] theorem takeFailure_pix (k : ErrKind) (n : Nat) (s : State) : (takeFailure k n s).pix = s.pix.emptied := rfl
@[simp] theorem takeFailure_status (k : ErrKind) (n : Nat) (s : State) :
    (takeFailure k n s).status = s.status.failed k n := rfl
@[simp] theorem takeFailure_out (k : ErrKind) (n : Nat) (s : State) : (takeFailure k n s).out = s.out := rfl
@[simp] theorem takeFailure_params (k : ErrKind) (n : Nat) (s : State) : (takeFailure k n s).params = s.params := rfl
@[simp] theorem takeFailure_inputs (k : ErrKind) (n : Nat) (s : State) : (takeFailure k n s).inputs = s.inputs := rfl
@[simp] theorem takeFailure_cfgFlip (k : ErrKind) (n : Nat) (s : State) : (takeFailure k n s).cfgFlip = s.cfgFlip := rfl

@[simp] theorem Status.failed_stState (k : ErrKind) (n : Nat) (f : Status) : (f.failed k n).stState = 1 := rfl
@[simp] theorem Status.failed_stDone (k : ErrKind) (n : Nat) (f : Status) : (f.failed k n).stDone = 0 := rfl
@[simp] theorem Status.failed_stErr (k : ErrKind) (n : Nat) (f : Status) : (f.failed k n).stErr = k.code := rfl
@[simp] theorem Status.failed_stErrinfo (k : ErrKind) (n : Nat) (f : Status) :
    (f.failed k n).stErrinfo = BitVec.ofNat 64 n := rfl
@[simp] theorem Status.failed_stWarnTopdown (k : ErrKind) (n : Nat) (f : Status) :
    (f.failed k n).stWarnTopdown = f.stWarnTopdown := rfl

theorem ErrKind.code_range (k : ErrKind) : 1 ≤ k.code.toNat ∧ k.code.toNat ≤ 5 := by cases k <;> decide

/-- What the failure entry leaves as it was. -/
theorem takeFailure_frame (k : ErrKind) (n : Nat) (s : State) :
    SameExcept [.stState, .stErr, .stErrinfo, .stDone, .pixLen] [.cbuf, .zbuf, .pix] s (takeFailure k n s) :=
  ⟨fun r hr => by cases r <;> first | rfl | simp at hr,
    fun sp hs _ => by cases sp <;> first | rfl | simp at hs, rfl, rfl⟩

/-- A space that lists nothing is unreadable for the host. -/
theorem unreadable_of_empty {sp : Space} {s : State} (h : (s.buf sp).mem = Memory.empty) : Unreadable sp s := by
  intro a
  unfold hostByte
  rw [h]
  split <;> rfl

theorem takeFailure_unreadable (k : ErrKind) (n : Nat) (s : State) :
    Unreadable .cbuf (takeFailure k n s) ∧ Unreadable .zbuf (takeFailure k n s) ∧ Unreadable .pix (takeFailure k n s) :=
  ⟨unreadable_of_empty rfl, unreadable_of_empty rfl, unreadable_of_empty rfl⟩

/-! ### The FAULTED state -/

theorem idle_iff {s : State} : Idle s ↔ s.status.stState = 0 := by
  unfold Idle
  simp only [State.reg_stState]
  constructor
  · intro h; exact BitVec.eq_of_toNat_eq h
  · intro h; rw [h]; rfl

theorem faulted_iff {s : State} : s.faulted ↔ s.reg .stState = 1 := by
  simp only [State.reg_stState]
  constructor
  · intro h; rw [h]; rfl
  · intro h; exact BitVec.eq_of_toNat_eq h

theorem command_faulted {body : State → Res Unit} {s : State} (h : s.reg .stState = 1) : command body s = .next s := by
  unfold command
  rw [if_pos (faulted_iff.mpr h)]

theorem command_idle {body : State → Res Unit} {s : State} (h : Idle s) : command body s = .next (body s).finish := by
  unfold command
  rw [if_neg]
  intro hf
  have hf : s.status.stState = 1 := hf
  rw [idle_iff.mp h] at hf
  exact absurd hf (by decide)

theorem command_ok {body : State → Res Unit} {s t : State} (h : Idle s) (e : body s = .ok () t) :
    command body s = .next t := by rw [command_idle h, e]; rfl

theorem command_raised {body : State → Res Unit} {s t : State} {k : ErrKind} {n : Nat} (h : Idle s)
    (e : body s = .raised k n t) : command body s = .next (takeFailure k n t) := by rw [command_idle h, e]; rfl

/-- The three ways a command ends: turned away, done, failed. -/
theorem command_cases {body : State → Res Unit} {s t : State} (h : command body s = .next t) :
    (s.reg .stState = 1 ∧ t = s) ∨ (Idle s ∧ body s = .ok () t) ∨
      (Idle s ∧ ∃ k n u, body s = .raised k n u ∧ t = takeFailure k n u) := by
  unfold command at h
  have e := (Host.Outcome.next.inj h).symm
  by_cases hf : s.faulted
  · rw [if_pos hf] at e
    exact .inl ⟨faulted_iff.mp hf, e⟩
  · rw [if_neg hf] at e
    have hi : Idle s := by
      rw [idle_iff]
      have : s.status.stState.toNat < 2 := s.status.stState.isLt
      apply BitVec.eq_of_toNat_eq
      have h1 : s.status.stState.toNat ≠ 1 := fun hh => hf (BitVec.eq_of_toNat_eq hh)
      have : (0 : BitVec 1).toNat = 0 := rfl
      omega
    cases hb : body s with
    | ok v u => rw [hb] at e; exact .inr (.inl ⟨hi, by rw [e]; rfl⟩)
    | raised k n u => rw [hb] at e; exact .inr (.inr ⟨hi, k, n, u, rfl, e⟩)

/-! ### Byte order -/

theorem leNat_lt (bs : List Byte) : leNat bs < 256 ^ bs.length := by
  induction bs with
  | nil => simp [leNat]
  | cons b bs ih =>
    have := b.isLt
    simp only [leNat, List.length_cons, Nat.pow_succ]
    omega

theorem beNat_lt (bs : List Byte) : beNat bs < 256 ^ bs.length := by
  have := leNat_lt bs.reverse
  simpa [beNat] using this

theorem leField_lt (bs : List Byte) (off n : Nat) : leField bs off n < 256 ^ n :=
  (leNat_lt _).trans_le (Nat.pow_le_pow_right (by decide) (by simp))

theorem beField_lt (bs : List Byte) (off n : Nat) : beField bs off n < 256 ^ n :=
  (beNat_lt _).trans_le (Nat.pow_le_pow_right (by decide) (by simp))

/-- A little-endian field of a byte range is the number of the bytes at its place. -/
theorem leField_bytes (sp : Space) (b : Buffer) (a m off n : Nat) (h : off + n ≤ m) :
    leField (b.bytes sp a m) off n = leNat (b.bytes sp (a + off) n) := by
  unfold leField
  rw [Buffer.drop_bytes, Buffer.take_bytes _ _ _ _ _ (by omega)]

theorem beField_bytes (sp : Space) (b : Buffer) (a m off n : Nat) (h : off + n ≤ m) :
    beField (b.bytes sp a m) off n = beNat (b.bytes sp (a + off) n) := by
  unfold beField
  rw [Buffer.drop_bytes, Buffer.take_bytes _ _ _ _ _ (by omega)]

theorem leNat_bytes_1 (sp : Space) (b : Buffer) (a : Nat) : leNat (b.bytes sp a 1) = (b.byte sp a).toNat := by
  simp [Buffer.bytes, leNat]

theorem beNat_bytes_1 (sp : Space) (b : Buffer) (a : Nat) : beNat (b.bytes sp a 1) = (b.byte sp a).toNat := by
  simp [Buffer.bytes, leNat, beNat]

theorem leNat_bytes_2 (sp : Space) (b : Buffer) (a : Nat) :
    leNat (b.bytes sp a 2) = (b.byte sp a).toNat + 2 ^ 8 * (b.byte sp (a + 1)).toNat := by
  simp [Buffer.bytes, leNat]

theorem leNat_bytes_4 (sp : Space) (b : Buffer) (a : Nat) :
    leNat (b.bytes sp a 4) = (b.byte sp a).toNat + 2 ^ 8 * (b.byte sp (a + 1)).toNat +
      2 ^ 16 * (b.byte sp (a + 2)).toNat + 2 ^ 24 * (b.byte sp (a + 3)).toNat := by
  simp [Buffer.bytes, leNat, Nat.add_assoc]
  omega

theorem beNat_bytes_4 (sp : Space) (b : Buffer) (a : Nat) :
    beNat (b.bytes sp a 4) = 2 ^ 24 * (b.byte sp a).toNat + 2 ^ 16 * (b.byte sp (a + 1)).toNat +
      2 ^ 8 * (b.byte sp (a + 2)).toNat + (b.byte sp (a + 3)).toNat := by
  simp [Buffer.bytes, leNat, beNat, Nat.add_assoc]
  omega

/-- A field no wider than the register is kept whole. -/
theorem toNat_ofNat_of_lt {w x : Nat} (h : x < 2 ^ w) : (BitVec.ofNat w x).toNat = x := by
  rw [BitVec.toNat_ofNat, Nat.mod_eq_of_lt h]

theorem toNat_leField_16 (bs : List Byte) (off : Nat) : (BitVec.ofNat 16 (leField bs off 2)).toNat = leField bs off 2 :=
  toNat_ofNat_of_lt (by simpa using leField_lt bs off 2)

theorem toNat_leField_32 (bs : List Byte) (off : Nat) : (BitVec.ofNat 32 (leField bs off 4)).toNat = leField bs off 4 :=
  toNat_ofNat_of_lt (by simpa using leField_lt bs off 4)

theorem toNat_beField_32 (bs : List Byte) (off : Nat) : (BitVec.ofNat 32 (beField bs off 4)).toNat = beField bs off 4 :=
  toNat_ofNat_of_lt (by simpa using beField_lt bs off 4)

theorem toNat_beField_8 (bs : List Byte) (off : Nat) : (BitVec.ofNat 8 (beField bs off 1)).toNat = beField bs off 1 :=
  toNat_ofNat_of_lt (by simpa using beField_lt bs off 1)

/-! ### The cursor primitives -/

theorem canRead_iff {n : Nat} {s : State} :
    CanRead n s ↔ s.cursor.srcValid = 1 ∧ n ≤ s.src.len.toNat - s.cursor.pos.toNat := by
  unfold CanRead avail
  simp only [State.reg_srcValid, State.reg_srcLen, State.reg_pos]
  constructor
  · rintro ⟨h, h'⟩; exact ⟨BitVec.eq_of_toNat_eq h, h'⟩
  · rintro ⟨h, h'⟩; exact ⟨by rw [h]; rfl, h'⟩

/-- `CurRead(n)` where it succeeds. -/
theorem curRead_ok {n : Nat} {s : State} (h : CanRead n s) :
    curRead n s = .ok (s.src.bytes .src s.cursor.pos.toNat n) (s.setPos (s.cursor.pos.toNat + n)) := by
  obtain ⟨hv, hn⟩ := canRead_iff.mp h
  unfold curRead
  rw [if_neg (by rw [hv]; decide), if_neg (by omega)]

theorem curRead_invalid {n : Nat} {s : State} (h : s.reg .srcValid = 0) : curRead n s = .raised .unreadableSource 0 s := by
  unfold curRead
  rw [if_pos]
  exact BitVec.eq_of_toNat_eq h

theorem curRead_short {n : Nat} {s : State} (h : s.reg .srcValid = 1) (hn : avail s < n) :
    curRead n s = .raised .truncatedStream (s.reg .pos) s := by
  unfold curRead
  rw [if_neg, if_pos]
  · rfl
  · exact hn
  · intro h0
    simp only [State.reg_srcValid, h0] at h
    exact absurd h (by decide)

/-- Everything `CurRead(n)` can do. -/
theorem curRead_cases (n : Nat) (s : State) :
    (CanRead n s ∧
      curRead n s = .ok (s.src.bytes .src s.cursor.pos.toNat n) (s.setPos (s.cursor.pos.toNat + n))) ∨
    (s.reg .srcValid = 0 ∧ curRead n s = .raised .unreadableSource 0 s) ∨
    (s.reg .srcValid = 1 ∧ avail s < n ∧ curRead n s = .raised .truncatedStream (s.reg .pos) s) := by
  have hb : s.reg .srcValid < 2 := s.cursor.srcValid.isLt
  by_cases h0 : s.reg .srcValid = 0
  · exact .inr (.inl ⟨h0, curRead_invalid h0⟩)
  · have h1 : s.reg .srcValid = 1 := by omega
    by_cases hn : n ≤ avail s
    · exact .inl ⟨⟨h1, hn⟩, curRead_ok ⟨h1, hn⟩⟩
    · exact .inr (.inr ⟨h1, by omega, curRead_short h1 (by omega)⟩)

/-- `CurRead` answers only where it can read, and then moves POS by `n` and gives the bytes. -/
theorem curRead_eq_ok {n : Nat} {s t : State} {v : List Byte} (h : curRead n s = .ok v t) :
    CanRead n s ∧ v = s.src.bytes .src s.cursor.pos.toNat n ∧ t = s.setPos (s.cursor.pos.toNat + n) := by
  rcases curRead_cases n s with ⟨hc, e⟩ | ⟨_, e⟩ | ⟨_, _, e⟩ <;> rw [e] at h
  · injection h with h1 h2; exact ⟨hc, h1.symm, h2.symm⟩
  · cases h
  · cases h

/-- A failing `CurRead` leaves the state as it was. -/
theorem curRead_eq_raised {n m : Nat} {s t : State} {k : ErrKind} (h : curRead n s = .raised k m t) : t = s := by
  rcases curRead_cases n s with ⟨_, e⟩ | ⟨_, e⟩ | ⟨_, _, e⟩ <;> rw [e] at h
  · cases h
  · injection h with _ _ h; exact h.symm
  · injection h with _ _ h; exact h.symm

/-- POS after a read that succeeds: no wrap. -/
theorem pos_after {n : Nat} {s : State} (h : CanRead n s) :
    (s.setPos (s.cursor.pos.toNat + n)).cursor.pos.toNat = s.cursor.pos.toNat + n := by
  have h1 := s.src.len.isLt
  have h2 := s.cursor.pos.isLt
  have h3 := (canRead_iff.mp h).2
  simp only [State.setPos_cursor_pos]
  rw [toNat_ofNat_of_lt]
  omega

theorem pos_add_le {n : Nat} {s : State} (h : CanRead n s) (hn : 0 < n) : s.cursor.pos.toNat + n ≤ s.src.len.toNat := by
  have := (canRead_iff.mp h).2
  omega

theorem curSkip_ok {n : Nat} {s : State} (h : CanRead n s) :
    curSkip n s = .ok () (s.setPos (s.cursor.pos.toNat + n)) := by
  unfold curSkip; rw [curRead_ok h]; rfl

theorem curSkip_eq_ok {n : Nat} {s t : State} {u : Unit} (h : curSkip n s = .ok u t) :
    CanRead n s ∧ t = s.setPos (s.cursor.pos.toNat + n) := by
  obtain ⟨v, s1, h1, h2⟩ := Res.andThen_eq_ok.mp h
  obtain ⟨hc, _, rfl⟩ := curRead_eq_ok h1
  injection h2 with _ h2
  exact ⟨hc, h2.symm⟩

theorem curSkip_eq_raised {n m : Nat} {s t : State} {k : ErrKind} (h : curSkip n s = .raised k m t) : t = s := by
  rcases Res.andThen_eq_raised.mp h with h | ⟨v, s1, _, h2⟩
  · exact curRead_eq_raised h
  · cases h2

/-- Every command that begins with `CurRead(n)` has the two failures of R121. -/
theorem readFailures_of {n : Nat} {i : Instr} {s : State} {body : State → Res Unit} {f : List Byte → State → Res Unit}
    (hs : Idle s) (hx : exec i s = command body s) (hb : body s = (curRead n s).andThen f) : ReadFailures n i s := by
  refine ⟨fun h => ?_, fun h hn => ?_⟩
  · rw [hx]; exact command_raised hs (by rw [hb, curRead_invalid h]; rfl)
  · rw [hx]; exact command_raised hs (by rw [hb, curRead_short h hn]; rfl)

/-! ### The host's accesses -/

/-- A host write of a fitting value to a register it may write goes on. -/
theorem hostWriteReg_next {r : Reg} {v : Nat} (s : State) (hr : r.hostWritable = true) (hv : v < 2 ^ r.width) :
    hostWriteReg r v s = .next (hostSetReg r v s) := by
  unfold hostWriteReg
  rw [if_neg (by simp [hr]), if_neg (Nat.not_le.mpr hv)]

theorem hostWriteReg_refused {r : Reg} (v : Nat) (s : State) (hr : r.hostWritable = false) :
    hostWriteReg r v s = .refused (.notHostWritable r) := by
  unfold hostWriteReg
  rw [if_pos hr]

/-- A byte below both lengths stays listed when the host writes a length. -/
theorem Buffer.hostSetLen_get? (b : Buffer) {n x : Nat} (h : x < n) : (b.hostSetLen n).mem.get? x = b.mem.get? x := by
  unfold Buffer.hostSetLen
  split
  · simp [h]
  · rfl

theorem hostByte_eq_ok {sp : Space} {a : Nat} {s : State} {c : Byte} :
    hostByte sp a s = .ok c ↔ a < (s.buf sp).len.toNat ∧ (s.buf sp).mem.get? a = some c := by
  unfold hostByte
  by_cases h : a < (s.buf sp).len.toNat
  · rw [if_pos h]
    cases hg : (s.buf sp).mem.get? a <;> simp [h]
  · rw [if_neg h]
    simp [h]

end Sys2Proof.Machine
end

