-- ==== Sys2Proof/Laws/Body.lean ====
section
/-! SUPPORT. The bodies of the format K commands in one table, a Hoare rule for them, and what no body touches: the source
and its validity, the parameters, the host's actions, the mode; OUT_W and OUT_H but at a completion; CFG_FLIP but by
SETFLIP. -/

namespace Sys2Proof.Machine

open Sys2Proof.Safety

/-! ### The table of bodies -/

/-- The pseudocode of a format K command other than CLR. -/
def bodyOf : Instr → State → Res Unit
  | .setflip flag => fun s => .ok () (s.setCfgFlip flag)
  | .rd8 => readVal 1 leNat
  | .rd16le => readVal 2 leNat
  | .rd32le => readVal 4 leNat
  | .rd32be => readVal 4 beNat
  | .skip count => curSkip count
  | .seek target => seekTo target
  | .pbmpf => parseBmpFile
  | .pbmpi => parseBmpInfo
  | .pbmpc => parseBmpColour
  | .pihdr => parseIhdr
  | .pchunk => parseChunk
  | .bxrows => readRows
  | .bxswap => swapChannels
  | .decbmp => decodeBmp
  | .dfrow row => defilterRow row
  | .dfrun => defilterImage
  | .chunks => readChunks
  | .inflate => inflateStream
  | .pxrun => extractPixels
  | .decpng => decodePng
  | .nop | .clr | .fNone | .fSub | .fUp | .fAvg | .fPaeth => fun s => .ok () s

theorem exec_eq_command {i : Instr} (hk : i.format = .k) (hc : i ≠ .clr) (s : State) :
    exec i s = command (bodyOf i) s := by
  cases i <;> first | rfl | exact absurd hk (by decide) | exact absurd rfl hc

/-- The record's row operation of a format F instruction. -/
def rowOf : Instr → Nat → State → State
  | .fSub => rowSub
  | .fUp => rowUp
  | .fAvg => rowAvg
  | .fPaeth => rowPaeth
  | _ => rowNone

theorem exec_eq_row {i : Instr} (hf : i.format = .f) (s : State) :
    exec i s = .next (rowOf i s.defilter.dfY.toNat s) := by
  cases i <;> first | rfl | (exfalso; revert hf; simp [Instr.format])

/-! ### The Hoare rule -/

/-- A result ends well in a state of `Q` or raises in a state of `R`. -/
def Res.Post {α : Type} (r : Res α) (Q R : State → Prop) : Prop :=
  match r with
  | .ok _ t => Q t
  | .raised _ _ t => R t

@[simp] theorem Res.post_ok {α : Type} (v : α) (t : State) (Q R : State → Prop) : (Res.ok v t).Post Q R ↔ Q t := Iff.rfl

@[simp] theorem Res.post_raised {α : Type} (k : ErrKind) (n : Nat) (t : State) (Q R : State → Prop) :
    (Res.raised k n t : Res α).Post Q R ↔ R t := Iff.rfl

theorem Res.Post.andThen {α β : Type} {r : Res α} {f : α → State → Res β} {Q Q' R : State → Prop} (h : r.Post Q R)
    (hf : ∀ v t, Q t → (f v t).Post Q' R) : (r.andThen f).Post Q' R := by
  cases r with
  | ok v t => exact hf v t h
  | raised k n t => exact h

theorem Res.Post.mono {α : Type} {r : Res α} {Q Q' R R' : State → Prop} (h : r.Post Q R) (hQ : ∀ t, Q t → Q' t)
    (hR : ∀ t, R t → R' t) : r.Post Q' R' := by
  cases r with
  | ok v t => exact hQ t h
  | raised k n t => exact hR t h

/-- `CurRead` moves POS only, and only where it can read. -/
theorem curRead_post {n : Nat} {s : State} {Q R : State → Prop}
    (hQ : CanRead n s → Q (s.setPos (s.cursor.pos.toNat + n))) (hR : R s) : (curRead n s).Post Q R := by
  rcases curRead_cases n s with ⟨hc, e⟩ | ⟨_, e⟩ | ⟨_, _, e⟩ <;> rw [e]
  · exact hQ hc
  · exact hR
  · exact hR

theorem curSkip_post {n : Nat} {s : State} {Q R : State → Prop}
    (hQ : CanRead n s → Q (s.setPos (s.cursor.pos.toNat + n))) (hR : R s) : (curSkip n s).Post Q R :=
  (curRead_post hQ hR).andThen fun _ _ h => h

/-- The gates change nothing. -/
theorem bmpGate_post {s : State} {Q R : State → Prop} (hQ : Q s) (hR : R s) : (bmpGate s).Post Q R := by
  unfold bmpGate
  simp only
  repeat' split
  all_goals first | exact hR | exact hQ

theorem ihdrGate_post {s : State} {Q R : State → Prop} (hQ : Q s) (hR : R s) : (ihdrGate s).Post Q R := by
  unfold ihdrGate
  simp only
  repeat' split
  all_goals first | exact hR | exact hQ

/-! ### What no body touches -/

/-- The fields no command's pseudocode touches, OUT_W and OUT_H counted among them. -/
structure Held (s t : State) : Prop where
  src : t.src = s.src
  srcValid : t.cursor.srcValid = s.cursor.srcValid
  params : t.params = s.params
  inputs : t.inputs = s.inputs
  cfgFlip : t.cfgFlip = s.cfgFlip
  stState : t.status.stState = s.status.stState
  out : t.out = s.out

theorem Held.refl (s : State) : Held s s := ⟨rfl, rfl, rfl, rfl, rfl, rfl, rfl⟩

theorem Held.trans {s t u : State} (h : Held s t) (h' : Held t u) : Held s u :=
  ⟨h'.src.trans h.src, h'.srcValid.trans h.srcValid, h'.params.trans h.params, h'.inputs.trans h.inputs,
    h'.cfgFlip.trans h.cfgFlip, h'.stState.trans h.stState, h'.out.trans h.out⟩

/-- A body keeps the held fields, however it ends. -/
abbrev Keeps {α : Type} (r : Res α) (s : State) : Prop := r.Post (Held s) (Held s)

theorem Keeps.andThen {α β : Type} {r : Res α} {f : α → State → Res β} {s : State} (h : Keeps r s)
    (hf : ∀ v t, Keeps (f v t) t) : Keeps (r.andThen f) s :=
  Res.Post.andThen h fun v t ht => (hf v t).mono (fun _ => ht.trans) (fun _ => ht.trans)

theorem Keeps.of {α : Type} {r : Res α} {s t : State} (h : Keeps r t) (ht : Held s t) : Keeps r s :=
  Res.Post.mono h (fun _ => ht.trans) (fun _ => ht.trans)

theorem keeps_curRead (n : Nat) (s : State) : Keeps (curRead n s) s :=
  curRead_post (fun _ => ⟨rfl, rfl, rfl, rfl, rfl, rfl, rfl⟩) (Held.refl s)

theorem keeps_curSkip (n : Nat) (s : State) : Keeps (curSkip n s) s :=
  curSkip_post (fun _ => ⟨rfl, rfl, rfl, rfl, rfl, rfl, rfl⟩) (Held.refl s)

theorem keeps_readVal (n : Nat) (order : List Byte → Nat) (s : State) : Keeps (readVal n order s) s :=
  (keeps_curRead n s).andThen fun _ _ => ⟨rfl, rfl, rfl, rfl, rfl, rfl, rfl⟩

theorem keeps_parseBmpFile (s : State) : Keeps (parseBmpFile s) s :=
  (keeps_curRead _ s).andThen fun _ t => by
    split <;> exact ⟨rfl, rfl, rfl, rfl, rfl, rfl, rfl⟩

theorem keeps_parseBmpInfo (s : State) : Keeps (parseBmpInfo s) s :=
  (keeps_curRead _ s).andThen fun _ _ => ⟨rfl, rfl, rfl, rfl, rfl, rfl, rfl⟩

theorem keeps_parseBmpColour (s : State) : Keeps (parseBmpColour s) s :=
  (keeps_curRead _ s).andThen fun _ _ => ⟨rfl, rfl, rfl, rfl, rfl, rfl, rfl⟩

theorem keeps_parseIhdr (s : State) : Keeps (parseIhdr s) s :=
  (keeps_curRead _ s).andThen fun _ _ => ⟨rfl, rfl, rfl, rfl, rfl, rfl, rfl⟩

theorem keeps_parseChunk (s : State) : Keeps (parseChunk s) s :=
  (keeps_curRead _ s).andThen fun _ _ => ⟨rfl, rfl, rfl, rfl, rfl, rfl, rfl⟩

theorem keeps_bmpRowLoop (rowBytes pad : Nat) : ∀ (n r : Nat) (s : State), Keeps (bmpRowLoop rowBytes pad n r s) s
  | 0, _, s => Held.refl s
  | n + 1, r, s =>
    (keeps_curRead _ s).andThen fun v t =>
      Keeps.andThen
        (Keeps.of (s := t) (keeps_curSkip pad (t.setPix (t.pix.writeBytes (r * rowBytes) v)))
          ⟨rfl, rfl, rfl, rfl, rfl, rfl, rfl⟩)
        fun _ u => keeps_bmpRowLoop rowBytes pad n (r + 1) u

theorem keeps_bmpPixels (h : BmpInfo) (s : State) : Keeps (bmpPixels h s) s := by
  unfold bmpPixels
  split
  · exact (keeps_curRead _ s).andThen fun _ _ => ⟨rfl, rfl, rfl, rfl, rfl, rfl, rfl⟩
  · exact keeps_bmpRowLoop _ _ _ _ s

@[simp] theorem Status.warned_stState (height : Int) (f : Status) : (f.warned height).stState = f.stState := by
  unfold Status.warned; split <;> rfl
@[simp] theorem Status.warned_stDone (height : Int) (f : Status) : (f.warned height).stDone = f.stDone := by
  unfold Status.warned; split <;> rfl
@[simp] theorem Status.warned_stErr (height : Int) (f : Status) : (f.warned height).stErr = f.stErr := by
  unfold Status.warned; split <;> rfl
@[simp] theorem Status.warned_stErrinfo (height : Int) (f : Status) : (f.warned height).stErrinfo = f.stErrinfo := by
  unfold Status.warned; split <;> rfl
@[simp] theorem Status.warned_stWarnTopdown (height : Int) (f : Status) :
    (f.warned height).stWarnTopdown = if height < 0 then 1 else f.stWarnTopdown := by
  unfold Status.warned; split <;> rfl

theorem keeps_readRows (s : State) : Keeps (readRows s) s :=
  Keeps.andThen (bmpGate_post (Held.refl s) (Held.refl s)) fun _ _ =>
    Keeps.andThen ((keeps_bmpPixels _ _).of ⟨rfl, rfl, rfl, rfl, rfl, Status.warned_stState _ _, rfl⟩) fun _ _ =>
      ⟨rfl, rfl, rfl, rfl, rfl, rfl, rfl⟩

theorem keeps_swapChannels (s : State) : Keeps (swapChannels s) s := by
  unfold swapChannels
  simp only
  split <;> exact ⟨rfl, rfl, rfl, rfl, rfl, rfl, rfl⟩

/-- What DECBMP keeps: OUT_W and OUT_H too where it fails. -/
theorem decodeBmp_post (s : State) :
    (decodeBmp s).Post (fun t => Held s { t with out := s.out } ∧ t.status.stDone = 1) (Held s) := by
  refine Res.Post.andThen (Q := Held s) ((keeps_parseBmpFile _).of ⟨rfl, rfl, rfl, rfl, rfl, rfl, rfl⟩) fun _ t h => ?_
  refine Res.Post.andThen (Q := Held s) ((keeps_parseBmpInfo t).of h) fun _ t h => ?_
  refine Res.Post.andThen (Q := Held s) (bmpGate_post h h) fun _ t h => ?_
  refine Res.Post.andThen (Q := Held s) ?_ fun _ t h => ?_
  · unfold colourIfDeep
    split
    · exact (keeps_parseBmpColour t).of h
    · exact h
  refine Res.Post.andThen (Q := Held s) (h.trans ⟨rfl, rfl, rfl, rfl, rfl, rfl, rfl⟩) fun _ t h => ?_
  refine Res.Post.andThen (Q := Held s) ((keeps_readRows t).of h) fun _ t h => ?_
  refine Res.Post.andThen (Q := Held s) ((keeps_swapChannels t).of h) fun _ t h => ?_
  exact ⟨⟨h.src, h.srcValid, h.params, h.inputs, h.cfgFlip, h.stState, rfl⟩, rfl⟩

theorem held_applyFilter (f : FilterType) (y : Nat) (s : State) : Held s (applyFilter f y s) := by
  cases f <;> exact ⟨rfl, rfl, rfl, rfl, rfl, rfl, rfl⟩

theorem keeps_defilterRow (y : Nat) (s : State) : Keeps (defilterRow y s) s := by
  unfold defilterRow
  repeat' split
  · exact Held.refl s
  · exact Held.refl s
  · exact Held.trans (t := fetchRow y s) ⟨rfl, rfl, rfl, rfl, rfl, rfl, rfl⟩ (held_applyFilter _ y _)
  · exact ⟨rfl, rfl, rfl, rfl, rfl, rfl, rfl⟩

theorem keeps_defilterRows : ∀ (n y : Nat) (s : State), Keeps (defilterRows n y s) s
  | 0, _, s => Held.refl s
  | n + 1, y, s => (keeps_defilterRow y s).andThen fun _ t => keeps_defilterRows n (y + 1) t

theorem keeps_defilterImage (s : State) : Keeps (defilterImage s) s := by
  unfold defilterImage
  split
  · exact Held.refl s
  · exact keeps_defilterRows _ _ s

theorem keeps_chunkPayload (tag : Word) (len : Nat) (s : State) : Keeps (chunkPayload tag len s) s := by
  unfold chunkPayload
  split
  · unfold ihdrPayload
    split
    · exact Held.refl s
    · exact (keeps_parseIhdr s).andThen fun _ t =>
        Keeps.andThen (ihdrGate_post (Held.refl t) (Held.refl t)) fun _ u => keeps_curSkip _ u
  split
  · unfold idatPayload
    split
    · exact Held.refl s
    · exact (keeps_curRead _ s).andThen fun _ _ => ⟨rfl, rfl, rfl, rfl, rfl, rfl, rfl⟩
  · exact keeps_curSkip _ s

theorem keeps_chunkCrc (s : State) : Keeps (chunkCrc s) s :=
  (keeps_curRead _ s).andThen fun _ _ => ⟨rfl, rfl, rfl, rfl, rfl, rfl, rfl⟩

theorem keeps_chunkTurn (first : Bool) (s : State) : Keeps (chunkTurn first s) s :=
  (keeps_parseChunk s).andThen fun _ t => by
    simp only
    split
    · exact Held.refl t
    · exact (keeps_chunkPayload _ _ t).andThen fun _ u => (keeps_chunkCrc u).andThen fun _ v => Held.refl v

theorem keeps_chunkLoop : ∀ (n : Nat) (first : Bool) (s : State), Keeps (chunkLoop n first s) s
  | 0, _, s => Held.refl s
  | n + 1, first, s => (keeps_chunkTurn first s).andThen fun stop t => by
      split
      · exact Held.refl t
      · exact keeps_chunkLoop n false t

theorem keeps_readChunks (s : State) : Keeps (readChunks s) s :=
  (keeps_chunkLoop _ _ _).of ⟨rfl, rfl, rfl, rfl, rfl, rfl, rfl⟩

theorem keeps_inflateStream (s : State) : Keeps (inflateStream s) s := by
  unfold inflateStream
  repeat' split
  all_goals exact ⟨rfl, rfl, rfl, rfl, rfl, rfl, rfl⟩

theorem keeps_extractPixels (s : State) : Keeps (extractPixels s) s := by
  unfold extractPixels
  simp only
  repeat' split
  all_goals exact ⟨rfl, rfl, rfl, rfl, rfl, rfl, rfl⟩

/-- What DECPNG keeps: OUT_W and OUT_H too where it fails. -/
theorem decodePng_post (s : State) :
    (decodePng s).Post (fun t => Held s { t with out := s.out } ∧ t.status.stDone = 1) (Held s) := by
  refine Res.Post.andThen (Q := Held s) ?_ fun _ t h => ?_
  · exact Keeps.of (t := startPng s) ((keeps_curRead _ _).andThen fun _ t => by
      split <;> exact Held.refl t) ⟨rfl, rfl, rfl, rfl, rfl, rfl, rfl⟩
  refine Res.Post.andThen (Q := Held s) ((keeps_readChunks t).of h) fun _ t h => ?_
  refine Res.Post.andThen (Q := Held s) ((keeps_inflateStream t).of h) fun _ t h => ?_
  refine Res.Post.andThen (Q := Held s)
    ((keeps_defilterImage (frameFromIhdr t)).of (h.trans ⟨rfl, rfl, rfl, rfl, rfl, rfl, rfl⟩)) fun _ t h => ?_
  refine Res.Post.andThen (Q := Held s) ((keeps_extractPixels t).of h) fun _ t h => ?_
  exact ⟨⟨h.src, h.srcValid, h.params, h.inputs, h.cfgFlip, h.stState, rfl⟩, rfl⟩

/-- Every body but those of SETFLIP and the two whole decodes keeps all the held fields. -/
theorem keeps_bodyOf {i : Instr} (h1 : ∀ b, i ≠ .setflip b) (h2 : i ≠ .decbmp) (h3 : i ≠ .decpng) (s : State) :
    Keeps (bodyOf i s) s := by
  cases i with
  | setflip b => exact absurd rfl (h1 b)
  | decbmp => exact absurd rfl h2
  | decpng => exact absurd rfl h3
  | rd8 => exact keeps_readVal _ _ s
  | rd16le => exact keeps_readVal _ _ s
  | rd32le => exact keeps_readVal _ _ s
  | rd32be => exact keeps_readVal _ _ s
  | skip n => exact keeps_curSkip n s
  | seek n => exact ⟨rfl, rfl, rfl, rfl, rfl, rfl, rfl⟩
  | pbmpf => exact keeps_parseBmpFile s
  | pbmpi => exact keeps_parseBmpInfo s
  | pbmpc => exact keeps_parseBmpColour s
  | pihdr => exact keeps_parseIhdr s
  | pchunk => exact keeps_parseChunk s
  | bxrows => exact keeps_readRows s
  | bxswap => exact keeps_swapChannels s
  | dfrow y => exact keeps_defilterRow y s
  | dfrun => exact keeps_defilterImage s
  | chunks => exact keeps_readChunks s
  | inflate => exact keeps_inflateStream s
  | pxrun => exact keeps_extractPixels s
  | nop => exact Held.refl s
  | clr => exact Held.refl s
  | fNone => exact Held.refl s
  | fSub => exact Held.refl s
  | fUp => exact Held.refl s
  | fAvg => exact Held.refl s
  | fPaeth => exact Held.refl s

end Sys2Proof.Machine
end

