-- ==== Sys2Proof/Laws/Encoding.lean ====
section
/-! SUPPORT. The two fields and the five bytes of a command word put together and taken apart. -/

namespace Sys2Proof

/-- The five bytes of a command word make the word again. -/
theorem commandOfBytes_bytes (w : CmdWord) :
    commandOfBytes (w.extractLsb' 0 8) (w.extractLsb' 8 8) (w.extractLsb' 16 8) (w.extractLsb' 24 8)
      (w.extractLsb' 32 8) = w := by
  unfold commandOfBytes
  apply BitVec.eq_of_getLsbD_eq
  intro i hi
  simp only [BitVec.getLsbD_append, BitVec.getLsbD_extractLsb']
  interval_cases i <;> simp

theorem opField_append (arg : Word) (op : Byte) : opField (arg ++ op) = op := by
  unfold opField
  apply BitVec.eq_of_getLsbD_eq
  intro i hi
  simp only [BitVec.getLsbD_append, BitVec.getLsbD_extractLsb']
  simp [hi]

theorem argField_append (arg : Word) (op : Byte) : argField (arg ++ op) = arg := by
  unfold argField
  apply BitVec.eq_of_getLsbD_eq
  intro i hi
  simp only [BitVec.getLsbD_append, BitVec.getLsbD_extractLsb']
  simp [hi]

/-- SETFLIP's flag survives the operand field. -/
theorem extractLsb'_setWidth_bit (b : Bit) : (b.setWidth 32 : Word).extractLsb' 0 1 = b := by
  apply BitVec.eq_of_getLsbD_eq
  intro i hi
  simp [hi]
  omega

end Sys2Proof
end

