-- ==== Sys2Proof/Laws/Rows.lean ====
section
/-! SUPPORT. Rows written one after another into a buffer: the common shape of BXROWS and PXRUN, byte by byte, and the two
row loops as instances of it. -/

namespace Sys2Proof.Machine

open Sys2Proof.Safety

/-- Rows `r`, `r+1`, … of `len` bytes each, written densely. -/
def rowsWritten (len : Nat) (row : Nat → List Byte) : Nat → Nat → Buffer → Buffer
  | 0, _, b => b
  | n + 1, r, b => rowsWritten len row n (r + 1) (b.writeBytes (r * len) (row r))

@[simp] theorem rowsWritten_len (len : Nat) (row : Nat → List Byte) :
    ∀ (n r : Nat) (b : Buffer), (rowsWritten len row n r b).len = b.len
  | 0, _, _ => rfl
  | n + 1, r, b => rowsWritten_len len row n (r + 1) (b.writeBytes (r * len) (row r))

theorem rowsWritten_wf (len : Nat) (row : Nat → List Byte) :
    ∀ (n r : Nat) (b : Buffer), b.mem.wf → (rowsWritten len row n r b).mem.wf
  | 0, _, _, h => h
  | n + 1, r, _, h => rowsWritten_wf len row n (r + 1) _ (Buffer.wf_writeBytes h (r * len) (row r))

/-- Outside the rows nothing changes. -/
theorem rowsWritten_byte_out {len : Nat} {row : Nat → List Byte} (sp : Space) {x : Nat} :
    ∀ (n r : Nat) (b : Buffer), (∀ k, r ≤ k → k < r + n → (row k).length = len) → x < r * len ∨ (r + n) * len ≤ x →
      (rowsWritten len row n r b).byte sp x = b.byte sp x
  | 0, _, _, _, _ => rfl
  | n + 1, r, b, hl, h => by
    have e1 : (r + 1) * len = r * len + len := Nat.succ_mul r len
    have e2 : (r + 1 + n) * len = (r + (n + 1)) * len := by congr 1; omega
    have e3 : (r + 1) * len ≤ (r + 1 + n) * len := Nat.mul_le_mul_right _ (by omega)
    rw [rowsWritten, rowsWritten_byte_out sp n (r + 1) _ (fun k h1 h2 => hl k (by omega) (by omega)) (by omega),
      Buffer.byte_writeBytes_out _ _ _ _ _ (by rw [hl r (by omega) (by omega)]; omega)]

/-- Every byte of a row comes to its place. -/
theorem rowsWritten_byte_in {len : Nat} {row : Nat → List Byte} (sp : Space) {k j : Nat} :
    ∀ (n r : Nat) (b : Buffer), (∀ k, r ≤ k → k < r + n → (row k).length = len) → r ≤ k → k < r + n → j < len →
      some ((rowsWritten len row n r b).byte sp (k * len + j)) = (row k)[j]?
  | 0, r, _, _, h1, h2, _ => by omega
  | n + 1, r, b, hl, h1, h2, hj => by
    rw [rowsWritten]
    by_cases e : k = r
    · subst e
      have e1 : (k + 1) * len = k * len + len := Nat.succ_mul k len
      rw [rowsWritten_byte_out sp n (k + 1) _ (fun k h1 h2 => hl k (by omega) (by omega)) (by omega),
        Buffer.byte_writeBytes_in _ _ _ _ _ (by rw [hl k (by omega) (by omega)]; exact hj),
        List.getElem?_eq_getElem (by rw [hl k (by omega) (by omega)]; exact hj)]
    · exact rowsWritten_byte_in sp n (r + 1) _ (fun k h1 h2 => hl k (by omega) (by omega)) (by omega) (by omega) hj

/-- Exactly the rows' bytes become listed. -/
theorem rowsWritten_listed {len : Nat} {row : Nat → List Byte} {x : Nat} :
    ∀ (n r : Nat) (b : Buffer), (∀ k, r ≤ k → k < r + n → (row k).length = len) →
      (((rowsWritten len row n r b).mem.get? x).isSome ↔
        (r * len ≤ x ∧ x < (r + n) * len) ∨ (b.mem.get? x).isSome)
  | 0, _, _, _ => by simp [rowsWritten]
  | n + 1, r, b, hl => by
    have e1 : (r + 1) * len = r * len + len := Nat.succ_mul r len
    have e2 : (r + 1 + n) * len = (r + (n + 1)) * len := by congr 1; omega
    have e3 : (r + 1) * len ≤ (r + 1 + n) * len := Nat.mul_le_mul_right _ (by omega)
    rw [rowsWritten, rowsWritten_listed n (r + 1) _ (fun k h1 h2 => hl k (by omega) (by omega))]
    simp only [Buffer.writeBytes, Memory.isSome_writeBytes, hl r (Nat.le_refl r) (by omega)]
    constructor
    · rintro (h | h | h)
      · exact .inl (by omega)
      · exact .inl (by omega)
      · exact .inr h
    · rintro (h | h)
      · by_cases h' : x < (r + 1) * len
        · exact .inr (.inl (by omega))
        · exact .inl (by omega)
      · exact .inr (.inr h)

/-- The row loop of PXRUN. -/
theorem pixelLoop_eq (flip : Bit) (w h : Nat) (z : Buffer) : ∀ (n r : Nat) (b : Buffer),
    pixelLoop flip w h z n r b =
      rowsWritten (4 * w) (fun r => z.bytes .zbuf (rowStart w (sourceRow flip h r) + 1) (4 * w)) n r b
  | 0, _, _ => rfl
  | n + 1, r, _ => pixelLoop_eq flip w h z n (r + 1) _

/-! ### BMP rows -/

/-- Two consecutive reads. -/
theorem canRead_setPos {m n : Nat} {s : State} (h : CanRead (m + n) s) :
    CanRead n (s.setPos (s.cursor.pos.toNat + m)) := by
  obtain ⟨hv, hn⟩ := canRead_iff.mp h
  refine canRead_iff.mpr ⟨hv, ?_⟩
  have e := pos_after (n := m) (canRead_iff.mpr ⟨hv, by omega⟩)
  rw [e]
  simp only [State.setPos_src]
  omega

/-- The state after `n` rows of `stride` bytes each, their first `rowBytes` bytes copied. -/
def afterRows (rowBytes stride n r : Nat) (s : State) : State :=
  (s.setPix (rowsWritten rowBytes (fun k => s.src.bytes .src (s.cursor.pos.toNat + (k - r) * stride) rowBytes) n r s.pix)).setPos
    (s.cursor.pos.toNat + n * stride)

theorem rowsWritten_congr {len : Nat} {row row' : Nat → List Byte} :
    ∀ (n r : Nat) (b : Buffer), (∀ k, r ≤ k → k < r + n → row k = row' k) →
      rowsWritten len row n r b = rowsWritten len row' n r b
  | 0, _, _, _ => rfl
  | n + 1, r, b, h => by
    rw [rowsWritten, rowsWritten, h r (by omega) (by omega)]
    exact rowsWritten_congr n (r + 1) _ fun k h1 h2 => h k (by omega) (by omega)

/-- The row loop of BXROWS where the source holds all the rows, padding included. -/
theorem bmpRowLoop_ok (rowBytes pad : Nat) : ∀ (n r : Nat) (s : State), CanRead (n * (rowBytes + pad)) s →
    bmpRowLoop rowBytes pad n r s = .ok () (afterRows rowBytes (rowBytes + pad) n r s)
  | 0, r, s, _ => by
    simp only [bmpRowLoop, afterRows, rowsWritten, Nat.zero_mul, Nat.add_zero]
    simp [State.setPos]
    rfl
  | n + 1, r, s, h => by
    rw [show (n + 1) * (rowBytes + pad) = rowBytes + (pad + n * (rowBytes + pad)) by ring] at h
    have h1 : CanRead rowBytes s := ⟨h.1, by have := h.2; omega⟩
    have h2 := canRead_setPos h
    have p1 := pos_after h1
    rw [bmpRowLoop, curRead_ok h1, Res.andThen_ok]
    have h3 : CanRead pad ((s.setPos (s.cursor.pos.toNat + rowBytes)).setPix
        ((s.setPos (s.cursor.pos.toNat + rowBytes)).pix.writeBytes (r * rowBytes)
          (s.src.bytes .src s.cursor.pos.toNat rowBytes))) := ⟨h2.1, by have := h2.2; exact Nat.le_trans (by omega) this⟩
    rw [curSkip_ok h3, Res.andThen_ok]
    have h4 : CanRead (n * (rowBytes + pad)) (((s.setPos (s.cursor.pos.toNat + rowBytes)).setPix
        ((s.setPos (s.cursor.pos.toNat + rowBytes)).pix.writeBytes (r * rowBytes)
          (s.src.bytes .src s.cursor.pos.toNat rowBytes))).setPos
          ((s.setPos (s.cursor.pos.toNat + rowBytes)).cursor.pos.toNat + pad)) :=
      canRead_setPos (s := (s.setPos (s.cursor.pos.toNat + rowBytes)).setPix
        ((s.setPos (s.cursor.pos.toNat + rowBytes)).pix.writeBytes (r * rowBytes)
          (s.src.bytes .src s.cursor.pos.toNat rowBytes))) h2
    have p2 := pos_after h3
    refine (bmpRowLoop_ok rowBytes pad n (r + 1) _ h4).trans ?_
    simp only [State.setPix_cursor] at p2
    congr 1
    unfold afterRows
    have e : ∀ x : Nat, (((s.setPos (s.cursor.pos.toNat + rowBytes)).setPix
        ((s.setPos (s.cursor.pos.toNat + rowBytes)).pix.writeBytes (r * rowBytes)
          (s.src.bytes .src s.cursor.pos.toNat rowBytes))).setPos
          ((s.setPos (s.cursor.pos.toNat + rowBytes)).cursor.pos.toNat + pad)).cursor.pos.toNat + x =
          s.cursor.pos.toNat + (rowBytes + pad) + x := by
      intro x
      have := p2
      simp only [State.setPos_cursor_pos] at this p1 ⊢
      rw [this, p1, Nat.add_assoc _ rowBytes pad]
    rw [e]
    simp only [e, rowsWritten]
    have e5 : s.cursor.pos.toNat + (rowBytes + pad) + n * (rowBytes + pad) =
        s.cursor.pos.toNat + (n + 1) * (rowBytes + pad) := by ring
    rw [e5]
    have e6 : ∀ b : Buffer, rowsWritten rowBytes
        (fun k => s.src.bytes .src (s.cursor.pos.toNat + (rowBytes + pad) + (k - (r + 1)) * (rowBytes + pad)) rowBytes)
        n (r + 1) b =
      rowsWritten rowBytes (fun k => s.src.bytes .src (s.cursor.pos.toNat + (k - r) * (rowBytes + pad)) rowBytes)
        n (r + 1) b := fun b => rowsWritten_congr n (r + 1) b fun k h1 h2 => by
          rw [show k - r = (k - (r + 1)) + 1 by omega, Nat.succ_mul]
          congr 1; omega
    simp only [State.setPos_src, State.setPix_src, State.setPos_pix, State.setPix_pix, e6, Nat.sub_self, Nat.zero_mul,
      Nat.add_zero]
    rfl

/-- Where the row loop stops in rows of which the source holds only `a` bytes, counted from their first byte. -/
def loopStop (rowBytes pad a : Nat) : Nat :=
  a / (rowBytes + pad) * (rowBytes + pad) + (if a % (rowBytes + pad) < rowBytes then 0 else rowBytes)

theorem loopStop_row {rowBytes pad a : Nat} (h : a < rowBytes) : loopStop rowBytes pad a = 0 := by
  have h1 : a < rowBytes + pad := by omega
  simp [loopStop, Nat.div_eq_of_lt h1, Nat.mod_eq_of_lt h1, h]

theorem loopStop_padding {rowBytes pad a : Nat} (h : rowBytes ≤ a) (h1 : a < rowBytes + pad) :
    loopStop rowBytes pad a = rowBytes := by
  simp [loopStop, Nat.div_eq_of_lt h1, Nat.mod_eq_of_lt h1, Nat.not_lt.mpr h]

theorem loopStop_next {rowBytes pad a : Nat} (h : rowBytes + pad ≤ a) (h0 : 0 < rowBytes + pad) :
    loopStop rowBytes pad a = rowBytes + pad + loopStop rowBytes pad (a - (rowBytes + pad)) := by
  unfold loopStop
  rw [Nat.div_eq_sub_div h0 h, Nat.mod_eq_sub_mod h, Nat.succ_mul]
  omega

/-- The row loop of BXROWS where the source ends early: the row read or padding skip that fails, and nothing changed but
POS and the bytes of PIX. -/
theorem bmpRowLoop_short (rowBytes pad : Nat) : ∀ (n r : Nat) (s : State), s.reg .srcValid = 1 →
    avail s < n * (rowBytes + pad) → ∃ b, b.len = s.pix.len ∧
      bmpRowLoop rowBytes pad n r s = .raised .truncatedStream (s.reg .pos + loopStop rowBytes pad (avail s))
        ((s.setPix b).setPos (s.reg .pos + loopStop rowBytes pad (avail s)))
  | 0, r, s, _, h => by simp at h
  | n + 1, r, s, hv, h => by
    rw [bmpRowLoop]
    by_cases h1 : rowBytes ≤ avail s
    · have c1 : CanRead rowBytes s := ⟨hv, h1⟩
      have p1 := pos_after c1
      rw [curRead_ok c1, Res.andThen_ok]
      generalize hb : s.pix.writeBytes (r * rowBytes) (s.src.bytes .src s.cursor.pos.toNat rowBytes) = b
      have hl : b.len = s.pix.len := by rw [← hb]; rfl
      have hu : (s.setPos (s.cursor.pos.toNat + rowBytes)).setPix
          ((s.setPos (s.cursor.pos.toNat + rowBytes)).pix.writeBytes (r * rowBytes)
            (s.src.bytes .src s.cursor.pos.toNat rowBytes)) =
          (s.setPix b).setPos (s.cursor.pos.toNat + rowBytes) := by rw [← hb]; rfl
      rw [hu]
      generalize hu' : (s.setPix b).setPos (s.cursor.pos.toNat + rowBytes) = u
      have hvu : u.reg .srcValid = 1 := by rw [← hu']; exact hv
      have hpu : u.cursor.pos.toNat = s.cursor.pos.toNat + rowBytes := by rw [← hu']; exact p1
      have hau : avail u = avail s - rowBytes := by
        simp only [avail, State.reg_srcLen, State.reg_pos, hpu]
        rw [← hu']
        simp only [State.setPos_src, State.setPix_src]; omega
      by_cases h2 : pad ≤ avail u
      · have c2 : CanRead pad u := ⟨hvu, h2⟩
        have p2 := pos_after c2
        rw [curSkip_ok c2, Res.andThen_ok]
        have hav : avail (u.setPos (u.cursor.pos.toNat + pad)) = avail s - (rowBytes + pad) := by
          have : avail (u.setPos (u.cursor.pos.toNat + pad)) = avail u - pad := by
            simp only [avail, State.reg_srcLen, State.reg_pos, State.setPos_src] at *
            rw [p2]; omega
          omega
        rw [Nat.succ_mul] at h
        have h0 : 0 < rowBytes + pad := by
          by_contra hz
          simp [show rowBytes + pad = 0 by omega] at h
        obtain ⟨b', hl', e⟩ := bmpRowLoop_short rowBytes pad n (r + 1) (u.setPos (u.cursor.pos.toNat + pad)) hvu
          (by omega)
        refine ⟨b', by rw [hl', ← hl, ← hu']; rfl, e.trans ?_⟩
        have hp : (u.setPos (u.cursor.pos.toNat + pad)).reg .pos = s.cursor.pos.toNat + (rowBytes + pad) := by
          rw [State.reg_pos, p2, hpu]; omega
        rw [hav, hp, loopStop_next (a := avail s) (by omega) h0, State.reg_pos, Nat.add_assoc, ← hu']
        rfl
      · refine ⟨b, hl, ?_⟩
        unfold curSkip
        rw [curRead_short hvu (by omega), loopStop_padding h1 (by omega), State.reg_pos, hpu, State.reg_pos, ← hu']
        rfl
    · refine ⟨s.pix, rfl, ?_⟩
      rw [curRead_short hv (by omega), loopStop_row (by omega)]
      simp [State.setPos]
      rfl

/-! ### The pixels of BXROWS -/

theorem BmpInfo.pad_add (h : BmpInfo) : h.rowBytes + h.pad = h.stride := by
  simp only [BmpInfo.pad, BmpInfo.stride, alignUp, Config.align]; omega

/-- `BmpGate` passes exactly on the headers of `BmpOk`. -/
theorem bmpGate_ok {s : State} (h : BmpOk s.params s.bmpInfo) : bmpGate s = .ok () s := by
  obtain ⟨h1, h2, h3, h4, h5⟩ := h
  unfold bmpGate
  simp only
  rw [if_neg (by tauto), if_neg (by simp [h2]), if_neg (by push Not; exact ⟨by omega, h4⟩), if_neg (by omega)]

/-- `BmpGate` fails with the info of the first check that is not passed, and changes nothing. -/
theorem bmpGate_failures (s : State) :
    BmpGateFailures s.params s.bmpInfo fun info => bmpGate s = .raised .unsupportedVariant info s := by
  unfold BmpGateFailures bmpGate
  simp only
  refine ⟨fun h1 => ?_, fun h1 h2 => ?_, fun h1 h2 h3 => ?_, fun h1 h2 h3 h4 => ?_⟩
  · rw [if_pos (by tauto)]
  · rw [if_neg (by tauto), if_pos (by simpa using h2)]
  · rw [if_neg (by tauto), if_neg (by simp [h2]), if_pos (by by_contra hh; push Not at hh; exact h3 ⟨by omega, hh.2⟩)]
  · rw [if_neg (by tauto), if_neg (by simp [h2]), if_neg (by push Not; exact ⟨by omega, h3.2⟩)]
    exact if_pos h4

/-- What holds of every info of a failing gate follows from what holds of the gate. -/
theorem bmpGateFailures_imp {p : Config.Params} {h : BmpInfo} {f g : Nat → Prop} (hf : BmpGateFailures p h f)
    (hi : ∀ n, f n → g n) : BmpGateFailures p h g :=
  ⟨fun h1 => hi _ (hf.1 h1), fun h1 h2 => hi _ (hf.2.1 h1 h2), fun h1 h2 h3 => hi _ (hf.2.2.1 h1 h2 h3),
    fun h1 h2 h3 h4 => hi _ (hf.2.2.2 h1 h2 h3 h4)⟩

theorem bmpGate_eq_ok {s t : State} {u : Unit} (h : bmpGate s = .ok u t) : t = s ∧ BmpOk s.params s.bmpInfo := by
  unfold bmpGate at h
  simp only at h
  repeat' split at h
  all_goals cases h
  rename_i h1 h2 h3 h4
  refine ⟨rfl, ?_, by simpa using h2, ?_, ?_, by omega⟩
  · by_contra hh; apply h1; push Not at hh; exact hh
  · push Not at h3; omega
  · push Not at h3; exact h3.2

/-- The pixels of BXROWS where the source holds all the rows. -/
theorem bmpPixels_ok (h : BmpInfo) (s : State) (hc : CanRead (h.rows * h.stride) s) :
    ∃ b, bmpPixels h s = .ok () ((s.setPix b).setPos (s.cursor.pos.toNat + h.rows * h.stride)) ∧ b.len = s.pix.len ∧
      (∀ r j, r < h.rows → j < h.rowBytes →
        b.byte .pix (r * h.rowBytes + j) = s.src.byte .src (s.cursor.pos.toNat + r * h.stride + j)) ∧
      (∀ x, (b.mem.get? x).isSome ↔ x < h.need ∨ (s.pix.mem.get? x).isSome) ∧ (s.pix.mem.wf → b.mem.wf) := by
  have hp := h.pad_add
  unfold bmpPixels
  by_cases h0 : h.pad = 0
  · rw [if_pos h0]
    have hs : h.stride = h.rowBytes := by omega
    have hn : h.need = h.rows * h.stride := by rw [hs, BmpInfo.need, Nat.mul_comm]
    refine ⟨s.pix.writeBytes 0 (s.src.bytes .src s.cursor.pos.toNat h.need), ?_, rfl, fun r j hr hj => ?_, fun x => ?_,
      fun hw => Buffer.wf_writeBytes hw _ _⟩
    · unfold bmpBlock
      rw [hn, curRead_ok hc]
      rfl
    · have hlt : r * h.rowBytes + j < h.need := by
        have : (r + 1) * h.rowBytes ≤ h.rows * h.rowBytes := Nat.mul_le_mul_right _ hr
        rw [Nat.succ_mul] at this
        rw [BmpInfo.need, Nat.mul_comm h.rowBytes]; omega
      have := Buffer.byte_writeBytes_in .pix s.pix 0 (s.src.bytes .src s.cursor.pos.toNat h.need) (r * h.rowBytes + j)
        (by simpa using hlt)
      rw [Nat.zero_add] at this
      rw [this, Buffer.bytes_getElem, hs]
      congr 1; omega
    · simp [Buffer.writeBytes, Memory.isSome_writeBytes]
  · rw [if_neg h0]
    have hl : ∀ k, 0 ≤ k → k < 0 + h.rows →
        (s.src.bytes .src (s.cursor.pos.toNat + (k - 0) * h.stride) h.rowBytes).length = h.rowBytes := fun k _ _ => by simp
    rw [← hp] at hc
    refine ⟨_, (bmpRowLoop_ok h.rowBytes h.pad h.rows 0 s hc).trans (by unfold afterRows; rw [hp]), rowsWritten_len _ _ _ _ _,
      fun r j hr hj => ?_, fun x => ?_, rowsWritten_wf _ _ _ _ _⟩
    · have := rowsWritten_byte_in (k := r) (j := j) .pix h.rows 0 s.pix hl (by omega) (by omega) hj
      rw [List.getElem?_eq_getElem (by simpa using hj), Buffer.bytes_getElem] at this
      exact Option.some.inj this
    · rw [rowsWritten_listed h.rows 0 s.pix hl, Nat.zero_mul, Nat.zero_add, BmpInfo.need, Nat.mul_comm h.rowBytes]
      simp

/-- BXROWS stops within the bytes the source holds. -/
theorem rowsStop_le (h : BmpInfo) (n : Nat) : rowsStop h n ≤ n := by
  have := Nat.div_add_mod' n h.stride
  unfold rowsStop
  repeat' split
  all_goals omega

theorem rowsStop_of_pad {h : BmpInfo} (n : Nat) (hp : h.pad ≠ 0) : rowsStop h n = loopStop h.rowBytes h.pad n := by
  rw [rowsStop, if_neg hp, loopStop, h.pad_add]

/-- The pixels of BXROWS where the source ends early, the last padding included. -/
theorem bmpPixels_short (h : BmpInfo) (s : State) (hv : s.reg .srcValid = 1) (ha : avail s < h.rows * h.stride) :
    ∃ b, b.len = s.pix.len ∧ bmpPixels h s = .raised .truncatedStream (s.reg .pos + rowsStop h (avail s))
      ((s.setPix b).setPos (s.reg .pos + rowsStop h (avail s))) := by
  have hp := h.pad_add
  unfold bmpPixels
  by_cases h0 : h.pad = 0
  · refine ⟨s.pix, rfl, ?_⟩
    rw [if_pos h0, bmpBlock,
      curRead_short hv (by rw [BmpInfo.need, Nat.mul_comm]; rwa [show h.stride = h.rowBytes by omega] at ha), rowsStop,
      if_pos h0]
    simp [State.setPos]
    rfl
  · rw [if_neg h0, rowsStop_of_pad _ h0]
    exact bmpRowLoop_short _ _ _ _ s hv (by rwa [hp])

/-- The pixels of BXROWS where the source is not readable and there is a row. -/
theorem bmpPixels_invalid (h : BmpInfo) (s : State) (hv : s.reg .srcValid = 0) (hr : 1 ≤ h.rows) :
    bmpPixels h s = .raised .unreadableSource 0 s := by
  obtain ⟨n, hn⟩ : ∃ n, h.rows = n + 1 := ⟨h.rows - 1, by omega⟩
  unfold bmpPixels bmpBlock
  rw [hn, bmpRowLoop, curRead_invalid hv, curRead_invalid hv]
  split <;> rfl

/-! ### BXROWS -/

/-- The state in which BXROWS begins to read: the warning given, PIX empty. -/
abbrev rowsBegun (s : State) : State := (s.setStatus (s.status.warned s.bmpInfo.height)).setPix s.pix.emptied

/-- Reading rows changes PIX with its length, POS and the warning only. -/
theorem sameExcept_rows (s : State) (b : Buffer) (n : Nat) :
    SameExcept [.pixLen, .pos, .stWarnTopdown] [.pix] s (((rowsBegun s).setPix b).setPos n) :=
  ⟨fun r hr => by cases r <;> first | rfl | (simp; done) | simp at hr,
    fun sp hs _ => by cases sp <;> first | rfl | simp at hs, rfl, rfl⟩

/-- The state a completed BXROWS leaves, up to the bytes of PIX. -/
def rowsRead (b : Buffer) (s : State) : State :=
  ((rowsBegun s).setPix (b.setLen s.bmpInfo.need)).setPos
    (s.cursor.pos.toNat + s.bmpInfo.rows * s.bmpInfo.stride)

/-- BXROWS where the gate passes and the source holds all the rows. -/
theorem readRows_ok {s : State} (hg : BmpOk s.params s.bmpInfo) (hc : CanRead (s.bmpInfo.rows * s.bmpInfo.stride) s) :
    ∃ b, readRows s = .ok () (rowsRead b s) ∧
      (∀ r j, r < s.bmpInfo.rows → j < s.bmpInfo.rowBytes →
        b.byte .pix (r * s.bmpInfo.rowBytes + j) = s.src.byte .src (s.cursor.pos.toNat + r * s.bmpInfo.stride + j)) ∧
      (∀ x, (b.mem.get? x).isSome ↔ x < s.bmpInfo.need) ∧ b.mem.wf := by
  obtain ⟨b, e, hl, hb, hs, hw⟩ := bmpPixels_ok s.bmpInfo (rowsBegun s) hc
  refine ⟨b, ?_, hb, fun x => ?_, hw Memory.wf_empty⟩
  · unfold readRows
    rw [bmpGate_ok hg, Res.andThen_ok, e]
    rfl
  · rw [hs x]; simp

/-- A positive number of bytes is needed where the gate passes. -/
theorem bmpOk_need_pos {p : Config.Params} {h : BmpInfo} (hg : BmpOk p h) : 3 ≤ h.need ∧ 1 ≤ h.rows ∧ 3 ≤ h.bpp := by
  obtain ⟨h1, _, h3, h4, _⟩ := hg
  have hb : 3 ≤ h.bpp := by rcases h1 with h1 | h1 <;> simp [BmpInfo.bpp, h1]
  have hr : 1 ≤ h.rows := by simp only [BmpInfo.rows]; omega
  have hw : 1 ≤ h.width.toNat := by omega
  refine ⟨?_, hr, hb⟩
  have e1 : 1 * 3 ≤ h.rowBytes := Nat.mul_le_mul hw hb
  have e2 : 3 * 1 ≤ h.rowBytes * h.rows := Nat.mul_le_mul e1 hr
  exact e2

/-- BXROWS where the gate passes and the source ends early. -/
theorem readRows_short {s : State} (hg : BmpOk s.params s.bmpInfo) (hv : s.reg .srcValid = 1)
    (ha : avail s < s.bmpInfo.rows * s.bmpInfo.stride) : ∃ b, b.len = 0 ∧
      readRows s = .raised .truncatedStream (s.reg .pos + rowsStop s.bmpInfo (avail s))
        (((rowsBegun s).setPix b).setPos (s.reg .pos + rowsStop s.bmpInfo (avail s))) := by
  obtain ⟨b, hl, e⟩ := bmpPixels_short s.bmpInfo (rowsBegun s) hv ha
  refine ⟨b, hl, ?_⟩
  unfold readRows
  rw [bmpGate_ok hg, Res.andThen_ok, e]
  rfl

/-- BXROWS where the gate passes and the source is not readable. -/
theorem readRows_invalid {s : State} (hg : BmpOk s.params s.bmpInfo) (hv : s.reg .srcValid = 0) :
    readRows s = .raised .unreadableSource 0 (rowsBegun s) := by
  unfold readRows
  rw [bmpGate_ok hg, Res.andThen_ok, bmpPixels_invalid _ (rowsBegun s) hv (bmpOk_need_pos hg).2.1]
  rfl

/-- BXROWS fails as its gate does. -/
theorem readRows_gate {s t : State} {k : ErrKind} {n : Nat} (h : bmpGate s = .raised k n t) :
    readRows s = .raised k n t := by
  unfold readRows
  rw [h, Res.andThen_raised]

/-- BXROWS answers only where the gate passes and the source holds all the rows. -/
theorem readRows_eq_ok {s t : State} {u : Unit} (h : readRows s = .ok u t) :
    BmpOk s.params s.bmpInfo ∧ CanRead (s.bmpInfo.rows * s.bmpInfo.stride) s := by
  obtain ⟨_, s1, h1, h2⟩ := Res.andThen_eq_ok.mp h
  obtain ⟨rfl, hg⟩ := bmpGate_eq_ok h1
  refine ⟨hg, ?_⟩
  have hp := s1.bmpInfo.pad_add
  have hpos : 0 < s1.bmpInfo.rows * s1.bmpInfo.stride := by
    obtain ⟨h3, h4, _⟩ := bmpOk_need_pos hg
    have : s1.bmpInfo.stride ≠ 0 := by
      intro e
      have : s1.bmpInfo.rowBytes = 0 := by omega
      simp [BmpInfo.need, this] at h3
    exact Nat.mul_pos h4 (by omega)
  by_cases hv : s1.reg .srcValid = 1
  · by_cases ha : s1.bmpInfo.rows * s1.bmpInfo.stride ≤ avail s1
    · exact ⟨hv, ha⟩
    · obtain ⟨b, _, e⟩ := readRows_short hg hv (by omega)
      rw [e] at h; cases h
  · have hb : s1.reg .srcValid < 2 := s1.cursor.srcValid.isLt
    rw [readRows_invalid hg (by omega)] at h; cases h

/-! ### BXSWAP -/

theorem swapPixel_len (bpp p : Nat) (b : Buffer) : (swapPixel bpp p b).len = b.len := rfl

theorem swapLoop_len (bpp : Nat) : ∀ (n p : Nat) (b : Buffer), (swapLoop bpp n p b).len = b.len
  | 0, _, _ => rfl
  | n + 1, p, b => (swapLoop_len bpp n (p + 1) _).trans (swapPixel_len bpp p b)

theorem swapLoop_wf (bpp : Nat) : ∀ (n p : Nat) (b : Buffer), b.mem.wf → (swapLoop bpp n p b).mem.wf
  | 0, _, _, h => h
  | n + 1, p, _, h => swapLoop_wf bpp n (p + 1) _ (Buffer.wf_write (Buffer.wf_write h _ _) _ _)

theorem swapLoop_byte_out {bpp x : Nat} (hb : 3 ≤ bpp) : ∀ (n p : Nat) (b : Buffer),
    x < p * bpp ∨ (p + n) * bpp ≤ x → (swapLoop bpp n p b).byte .pix x = b.byte .pix x
  | 0, _, _, _ => rfl
  | n + 1, p, b, h => by
    have e1 : (p + 1) * bpp = p * bpp + bpp := Nat.succ_mul p bpp
    have e2 : (p + 1 + n) * bpp = (p + (n + 1)) * bpp := by congr 1; omega
    have e3 : (p + 1) * bpp ≤ (p + 1 + n) * bpp := Nat.mul_le_mul_right _ (by omega)
    rw [swapLoop, swapLoop_byte_out hb n (p + 1) _ (by omega), swapPixel]
    simp only [Buffer.byte_write]
    rw [if_neg (by omega), if_neg (by omega)]

/-- The first and the third byte of a pixel change places. -/
theorem swapLoop_byte_in {bpp k c : Nat} (hb : 3 ≤ bpp) (hc : c < bpp) : ∀ (n p : Nat) (b : Buffer),
    p ≤ k → k < p + n → (swapLoop bpp n p b).byte .pix (k * bpp + c) = b.byte .pix (k * bpp + swapped c)
  | 0, p, _, h1, h2 => by omega
  | n + 1, p, b, h1, h2 => by
    rw [swapLoop]
    by_cases e : k = p
    · subst e
      have e1 : (k + 1) * bpp = k * bpp + bpp := Nat.succ_mul k bpp
      rw [swapLoop_byte_out hb n (k + 1) _ (by omega), swapPixel]
      simp only [Buffer.byte_write, swapped]
      by_cases c0 : c = 0
      · subst c0; simp
      · by_cases c2 : c = 2
        · subst c2; simp
        · simp [c0, c2]
    · have hs : swapped c < bpp := by unfold swapped; split <;> [omega; (split <;> omega)]
      have e3 : (p + 1) * bpp ≤ k * bpp := Nat.mul_le_mul_right _ (by omega)
      have e1 : (p + 1) * bpp = p * bpp + bpp := Nat.succ_mul p bpp
      rw [swapLoop_byte_in hb hc n (p + 1) _ (by omega) (by omega), swapPixel]
      simp only [Buffer.byte_write]
      rw [if_neg (by omega), if_neg (by omega)]

/-- No new byte is listed by swapping listed pixels. -/
theorem swapLoop_listed {bpp m x : Nat} (hb : 3 ≤ bpp) : ∀ (n p : Nat) (b : Buffer), (p + n) * bpp ≤ m →
    (∀ a, (b.mem.get? a).isSome ↔ a < m) → (((swapLoop bpp n p b).mem.get? x).isSome ↔ x < m)
  | 0, _, _, _, h => h x
  | n + 1, p, b, hm, h => by
    have e1 : (p + 1) * bpp = p * bpp + bpp := Nat.succ_mul p bpp
    have e2 : (p + 1 + n) * bpp = (p + (n + 1)) * bpp := by congr 1; omega
    have e3 : (p + 1) * bpp ≤ (p + 1 + n) * bpp := Nat.mul_le_mul_right _ (by omega)
    refine swapLoop_listed hb n (p + 1) _ (by omega) fun a => ?_
    simp only [swapPixel, Buffer.write, Memory.isSome_write, h]
    omega

end Sys2Proof.Machine
end

