-- ==== Sys2Proof/Laws/Header.lean ====
section
/-! SUPPORT. The parser commands where they succeed, the PNG gate, and DECBMP as its phases one after another. -/

namespace Sys2Proof.Machine

open Sys2Proof.Safety

/-- The bytes a `CurRead(n)` gives. -/
abbrev State.ahead (s : State) (n : Nat) : List Byte := s.src.bytes .src s.cursor.pos.toNat n

/-- The state after the bytes were consumed. -/
abbrev State.past (s : State) (n : Nat) : State := s.setPos (s.cursor.pos.toNat + n)

theorem parseBmpFile_ok {s : State} (h : CanRead 14 s) (hm : (bmpFileOf (s.ahead 14)).bfType = magicBM) :
    parseBmpFile s = .ok () ((s.past 14).setBmpFile (bmpFileOf (s.ahead 14))) := by
  unfold parseBmpFile
  rw [curRead_ok h, Res.andThen_ok, if_pos hm]

/-- PBMPF on a record without the signature: the registers are written, then it fails. -/
theorem parseBmpFile_badSignature {s : State} (h : CanRead 14 s) (hm : (bmpFileOf (s.ahead 14)).bfType ≠ magicBM) :
    parseBmpFile s = .raised .badSignature (bmpFileOf (s.ahead 14)).bfType.toNat
      ((s.past 14).setBmpFile (bmpFileOf (s.ahead 14))) := by
  unfold parseBmpFile
  rw [curRead_ok h, Res.andThen_ok, if_neg hm]

theorem parseBmpFile_eq_ok {s t : State} {u : Unit} (h : parseBmpFile s = .ok u t) :
    CanRead 14 s ∧ (bmpFileOf (s.ahead 14)).bfType = magicBM ∧
      t = (s.past 14).setBmpFile (bmpFileOf (s.ahead 14)) := by
  obtain ⟨v, s1, h1, h2⟩ := Res.andThen_eq_ok.mp h
  obtain ⟨hc, rfl, rfl⟩ := curRead_eq_ok h1
  split at h2
  · rename_i hm
    injection h2 with _ h2
    exact ⟨hc, hm, h2.symm⟩
  · cases h2

theorem parseBmpInfo_ok {s : State} (h : CanRead 40 s) :
    parseBmpInfo s = .ok () ((s.past 40).setBmpInfo (bmpInfoOf (s.ahead 40))) := by
  unfold parseBmpInfo
  rw [curRead_ok h, Res.andThen_ok]

theorem parseBmpInfo_eq_ok {s t : State} {u : Unit} (h : parseBmpInfo s = .ok u t) :
    CanRead 40 s ∧ t = (s.past 40).setBmpInfo (bmpInfoOf (s.ahead 40)) := by
  obtain ⟨v, s1, h1, h2⟩ := Res.andThen_eq_ok.mp h
  obtain ⟨hc, rfl, rfl⟩ := curRead_eq_ok h1
  injection h2 with _ h2
  exact ⟨hc, h2.symm⟩

theorem parseBmpColour_ok {s : State} (h : CanRead s.params.colourHdrBytes s) :
    parseBmpColour s =
      .ok () ((s.past s.params.colourHdrBytes).setBmpColour (bmpColourOf (s.ahead s.params.colourHdrBytes))) := by
  unfold parseBmpColour
  rw [curRead_ok h, Res.andThen_ok]

theorem parseBmpColour_eq_ok {s t : State} {u : Unit} (h : parseBmpColour s = .ok u t) :
    CanRead s.params.colourHdrBytes s ∧
      t = (s.past s.params.colourHdrBytes).setBmpColour (bmpColourOf (s.ahead s.params.colourHdrBytes)) := by
  obtain ⟨v, s1, h1, h2⟩ := Res.andThen_eq_ok.mp h
  obtain ⟨hc, rfl, rfl⟩ := curRead_eq_ok h1
  injection h2 with _ h2
  exact ⟨hc, h2.symm⟩

theorem parseIhdr_ok {s : State} (h : CanRead 13 s) :
    parseIhdr s = .ok () (((s.past 13).setIhdr (ihdrOf (s.ahead 13))).setChunk { s.chunk with ihdrSeen := 1 }) := by
  unfold parseIhdr
  rw [curRead_ok h, Res.andThen_ok]
  rfl

theorem parseChunk_ok {s : State} (h : CanRead 8 s) :
    parseChunk s = .ok () ((s.past 8).setChunk
      { s.chunk with
        chLen := BitVec.ofNat 32 (beField (s.ahead 8) 0 4), chTag := BitVec.ofNat 32 (beField (s.ahead 8) 4 4) }) := by
  unfold parseChunk
  rw [curRead_ok h, Res.andThen_ok]
  rfl

theorem chunkCrc_ok {s : State} (h : CanRead 4 s) :
    chunkCrc s = .ok () ((s.past 4).setChunk { s.chunk with chCrc := BitVec.ofNat 32 (beNat (s.ahead 4)) }) := by
  unfold chunkCrc
  rw [curRead_ok h, Res.andThen_ok]
  rfl

/-- `IhdrGate` passes exactly on the headers of `IhdrOk`. -/
theorem ihdrGate_ok {s : State} (h : IhdrOk s.params s.ihdr) : ihdrGate s = .ok () s := by
  obtain ⟨h1, h2, h3, h4, h5, h6⟩ := h
  unfold ihdrGate
  simp only
  rw [if_neg (by simp [h1]), if_neg (by simp [h2]), if_neg (by simp [h3]), if_neg (by tauto), if_neg (by omega)]

theorem ihdrGate_eq_ok {s t : State} {u : Unit} (h : ihdrGate s = .ok u t) : t = s ∧ IhdrOk s.params s.ihdr := by
  unfold ihdrGate at h
  simp only at h
  repeat' split at h
  all_goals cases h
  rename_i h1 h2 h3 h4 h5
  exact ⟨rfl, by simpa using h1, by simpa using h2, by simpa using h3, fun e => h4 (.inl e), fun e => h4 (.inr e), by omega⟩

theorem swapChannels_ok {s : State} (h : s.bmpInfo.biBitcount = 24 ∨ s.bmpInfo.biBitcount = 32) :
    swapChannels s =
      .ok () (s.setPix (swapLoop s.bmpInfo.bpp (s.pix.len.toNat / s.bmpInfo.bpp) 0 s.pix)) := by
  unfold swapChannels
  simp only
  rw [if_neg (by tauto)]

theorem swapChannels_eq_ok {s t : State} {u : Unit} (h : swapChannels s = .ok u t) :
    (s.bmpInfo.biBitcount = 24 ∨ s.bmpInfo.biBitcount = 32) ∧
      t = s.setPix (swapLoop s.bmpInfo.bpp (s.pix.len.toNat / s.bmpInfo.bpp) 0 s.pix) := by
  unfold swapChannels at h
  simp only at h
  split at h
  · cases h
  · rename_i hb
    injection h with _ h
    exact ⟨by tauto, h.symm⟩

/-- DECBMP ends well exactly through its seven phases. -/
theorem decodeBmp_eq_ok {s t : State} {u : Unit} : decodeBmp s = .ok u t ↔
    ∃ s1 s2 s3 s4 s5, parseBmpFile (startBmp s) = .ok () s1 ∧ parseBmpInfo s1 = .ok () s2 ∧
      BmpOk s2.params s2.bmpInfo ∧ colourIfDeep s2 = .ok () s3 ∧
      readRows ((recomputeHeader s3).setPos (recomputeHeader s3).bmpFile.declOff.toNat) = .ok () s4 ∧
      swapChannels s4 = .ok () s5 ∧ t = completeBmp s5 := by
  unfold decodeBmp
  constructor
  · intro h
    obtain ⟨_, s1, e1, h1⟩ := Res.andThen_eq_ok.mp h
    obtain ⟨_, s2, e2, h2⟩ := Res.andThen_eq_ok.mp h1
    obtain ⟨_, s2', e3, h3⟩ := Res.andThen_eq_ok.mp h2
    obtain ⟨he, hg⟩ := bmpGate_eq_ok e3
    rw [he] at h3
    obtain ⟨_, s3, e4, h4⟩ := Res.andThen_eq_ok.mp h3
    obtain ⟨_, s4, e5, h5⟩ := Res.andThen_eq_ok.mp h4
    injection e5 with _ e5
    obtain ⟨_, s6, e6, h6⟩ := Res.andThen_eq_ok.mp h5
    obtain ⟨_, s7, e7, h7⟩ := Res.andThen_eq_ok.mp h6
    injection h7 with _ h7
    exact ⟨s1, s2, s3, s6, s7, e1, e2, hg, e4, e5 ▸ e6, e7, h7.symm⟩
  · rintro ⟨s1, s2, s3, s4, s5, e1, e2, hg, e4, e6, e7, rfl⟩
    rw [e1, Res.andThen_ok, e2, Res.andThen_ok, bmpGate_ok hg, Res.andThen_ok, e4, Res.andThen_ok]
    show ((readRows _).andThen _) = _
    rw [e6, Res.andThen_ok, e7, Res.andThen_ok]

/-! ### DECBMP, phase by phase where it fails -/

/-- The state in which DECBMP reads the rows: the header recomputed, the cursor at the declared offset. -/
abbrev rowsAt (s : State) : State := (recomputeHeader s).setPos (recomputeHeader s).bmpFile.declOff.toNat

variable {s s1 s2 s3 t : State} {k : ErrKind} {n : Nat}

theorem decodeBmp_file_raised (h : parseBmpFile (startBmp s) = .raised k n t) : decodeBmp s = .raised k n t := by
  unfold decodeBmp
  rw [h, Res.andThen_raised]

theorem decodeBmp_info_raised (h1 : parseBmpFile (startBmp s) = .ok () s1) (h : parseBmpInfo s1 = .raised k n t) :
    decodeBmp s = .raised k n t := by
  unfold decodeBmp
  rw [h1, Res.andThen_ok, h, Res.andThen_raised]

theorem decodeBmp_gate_raised (h1 : parseBmpFile (startBmp s) = .ok () s1) (h2 : parseBmpInfo s1 = .ok () s2)
    (h : bmpGate s2 = .raised k n t) : decodeBmp s = .raised k n t := by
  unfold decodeBmp
  rw [h1, Res.andThen_ok, h2, Res.andThen_ok, h, Res.andThen_raised]

theorem decodeBmp_colour_raised (h1 : parseBmpFile (startBmp s) = .ok () s1) (h2 : parseBmpInfo s1 = .ok () s2)
    (hg : BmpOk s2.params s2.bmpInfo) (h : colourIfDeep s2 = .raised k n t) : decodeBmp s = .raised k n t := by
  unfold decodeBmp
  rw [h1, Res.andThen_ok, h2, Res.andThen_ok, bmpGate_ok hg, Res.andThen_ok, h, Res.andThen_raised]

theorem decodeBmp_rows_raised (h1 : parseBmpFile (startBmp s) = .ok () s1) (h2 : parseBmpInfo s1 = .ok () s2)
    (hg : BmpOk s2.params s2.bmpInfo) (h3 : colourIfDeep s2 = .ok () s3) (h : readRows (rowsAt s3) = .raised k n t) :
    decodeBmp s = .raised k n t := by
  unfold decodeBmp
  rw [h1, Res.andThen_ok, h2, Res.andThen_ok, bmpGate_ok hg, Res.andThen_ok, h3, Res.andThen_ok]
  show (readRows (rowsAt s3)).andThen _ = _
  rw [h, Res.andThen_raised]

end Sys2Proof.Machine
end

