-- ==== Sys2Proof/Laws/Filter.lean ====
section
/-! SUPPORT. The reconstruction of a row and of an image: what is written where, and every case of DFROW and DFRUN. -/

namespace Sys2Proof.Machine

open Sys2Proof.Safety

/-! ### One row -/

@[simp] theorem reconLoop_len (pred : Byte → Byte → Byte → Byte) (w y : Nat) :
    ∀ (n i : Nat) (b : Buffer), (reconLoop pred w y n i b).len = b.len
  | 0, _, _ => rfl
  | n + 1, i, b => (reconLoop_len pred w y n (i + 1) _).trans (Buffer.write_len b _ _)

theorem reconLoop_wf (pred : Byte → Byte → Byte → Byte) (w y : Nat) :
    ∀ (n i : Nat) (b : Buffer), b.mem.wf → (reconLoop pred w y n i b).mem.wf
  | 0, _, _, h => h
  | n + 1, i, _, h => reconLoop_wf pred w y n (i + 1) _ (Buffer.wf_write h _ _)

/-- Outside the samples from offset `i` up nothing changes. -/
theorem reconLoop_out {pred : Byte → Byte → Byte → Byte} {w y x : Nat} (sp : Space) :
    ∀ (n i : Nat) (b : Buffer), x < rowStart w y + i ∨ rowStart w y + i + n ≤ x →
      (reconLoop pred w y n i b).byte sp x = b.byte sp x
  | 0, _, _, _ => rfl
  | n + 1, i, b, h => by
    rw [reconLoop, reconLoop_out sp n (i + 1) _ (by omega), Buffer.byte_write, if_neg (by omega)]

theorem rowStart_succ (w y : Nat) : rowStart w (y + 1) = rowStart w y + (4 * w + 1) := by
  simp only [rowStart, recordLen, Config.pngBpp, Nat.succ_mul]

theorem rowStart_mono {w x y : Nat} (h : x ≤ y) : rowStart w x ≤ rowStart w y := Nat.mul_le_mul_right _ h

/-- Rows before and after `y` lie outside row `y`. -/
theorem rowStart_lt {w x y : Nat} (h : x < y) : rowStart w x + (4 * w + 1) ≤ rowStart w y := by
  rw [← rowStart_succ]; exact rowStart_mono h

/-- The neighbours of a row are taken from buffers that agree on the row before and on the row up to that offset. -/
theorem neighbours_congr {w y i : Nat} {b c : Buffer} (hi : i ≤ 4 * w)
    (hu : ∀ x, x < rowStart w y → b.byte .zbuf x = c.byte .zbuf x) :
    upOf b w y i = upOf c w y i ∧ upleftOf b w y i = upleftOf c w y i := by
  unfold upOf upleftOf
  constructor
  · split
    · rename_i h
      have := rowStart_lt (w := w) (show y - 1 < y by omega)
      exact hu _ (by omega)
    · rfl
  · split
    · rename_i h
      have := rowStart_lt (w := w) (show y - 1 < y by omega)
      exact hu _ (by omega)
    · rfl

theorem leftOf_congr {w y i : Nat} {b c : Buffer} (h : ∀ x, x < rowStart w y + i → b.byte .zbuf x = c.byte .zbuf x) :
    leftOf b w y i = leftOf c w y i := by
  unfold leftOf
  by_cases h5 : 5 ≤ i
  · rw [if_pos h5, if_pos h5]
    exact h _ (by simp only [Config.pngBpp]; omega)
  · rw [if_neg h5, if_neg h5]

/-- Every sample from offset `i` up becomes the wraparound sum of itself and the predictor of the neighbours as they stand
in the end. -/
theorem reconLoop_in {pred : Byte → Byte → Byte → Byte} {w y j : Nat} :
    ∀ (n i : Nat) (b : Buffer), 1 ≤ i → i + n ≤ 4 * w + 1 → i ≤ j → j < i + n →
      (reconLoop pred w y n i b).byte .zbuf (rowStart w y + j) =
        add8 (b.byte .zbuf (rowStart w y + j)) (pred (leftOf (reconLoop pred w y n i b) w y j)
          (upOf (reconLoop pred w y n i b) w y j) (upleftOf (reconLoop pred w y n i b) w y j))
  | 0, i, _, _, _, h1, h2 => by omega
  | n + 1, i, b, hi, hn, h1, h2 => by
    rw [reconLoop]
    by_cases e : j = i
    · subst e
      have key : ∀ x, x < rowStart w y + j → b.byte .zbuf x = (reconLoop pred w y n (j + 1)
          (b.write (rowStart w y + j) (add8 (b.byte .zbuf (rowStart w y + j))
            (pred (leftOf b w y j) (upOf b w y j) (upleftOf b w y j))))).byte .zbuf x := fun x hx => by
        rw [reconLoop_out .zbuf n (j + 1) _ (by omega), Buffer.byte_write, if_neg (by omega)]
      obtain ⟨e1, e2⟩ := neighbours_congr (w := w) (y := y) (i := j) (by omega) fun x hx => key x (by omega)
      have e3 : leftOf b w y j = leftOf (reconLoop pred w y n (j + 1)
          (b.write (rowStart w y + j) (add8 (b.byte .zbuf (rowStart w y + j))
            (pred (leftOf b w y j) (upOf b w y j) (upleftOf b w y j))))) w y j := leftOf_congr key
      rw [← e1, ← e2, ← e3, reconLoop_out .zbuf n (j + 1) _ (by omega), Buffer.byte_write, if_pos rfl]
    · rw [reconLoop_in n (i + 1) _ (by omega) (by omega) (by omega) (by omega), Buffer.byte_write, if_neg (by omega)]

/-- What the row operation of a filter type does to a state. -/
theorem applyFilter_spec (f : FilterType) (y : Nat) (s : State) :
    ∃ z, applyFilter f y s = s.setZbuf z ∧ z.len = s.zbuf.len ∧ (s.zbuf.mem.wf → z.mem.wf) ∧
      Reconstructs (predictorOf f) s.defilter.dfW.toNat y s.zbuf z ∧
      ∀ sp x, x ≤ rowStart s.defilter.dfW.toNat y ∨ rowStart s.defilter.dfW.toNat (y + 1) ≤ x →
        z.byte sp x = s.zbuf.byte sp x := by
  have key : ∀ pred, let z := reconLoop pred s.defilter.dfW.toNat y (4 * s.defilter.dfW.toNat) 1 s.zbuf
      z.len = s.zbuf.len ∧ (s.zbuf.mem.wf → z.mem.wf) ∧
      Reconstructs pred s.defilter.dfW.toNat y s.zbuf z ∧
      ∀ sp x, x ≤ rowStart s.defilter.dfW.toNat y ∨ rowStart s.defilter.dfW.toNat (y + 1) ≤ x →
        z.byte sp x = s.zbuf.byte sp x := fun pred =>
    ⟨reconLoop_len _ _ _ _ _ _, reconLoop_wf _ _ _ _ _ _,
      fun i h1 h2 => reconLoop_in _ 1 _ (by omega) (by omega) h1 (by omega),
      fun sp x h => reconLoop_out sp _ _ _ (by rw [rowStart_succ] at h; omega)⟩
  cases f with
  | none =>
    refine ⟨s.zbuf, rfl, rfl, id, fun i _ _ => ?_, fun _ _ _ => rfl⟩
    simp [predictorOf, add8, Nat.mod_eq_of_lt (s.zbuf.byte .zbuf _).isLt]
  | sub => exact ⟨_, rfl, key _⟩
  | up => exact ⟨_, rfl, key _⟩
  | average => exact ⟨_, rfl, key _⟩
  | paeth => exact ⟨_, rfl, key _⟩

/-! ### DFROW -/

theorem filterOf_toNat {ft : Byte} : (∃ f, filterOf ft = some f) ↔ ft.toNat ≤ 4 := by
  unfold filterOf
  constructor
  · rintro ⟨f, h⟩
    split at h <;> first | omega | cases h
  · intro h
    have : ft.toNat = 0 ∨ ft.toNat = 1 ∨ ft.toNat = 2 ∨ ft.toNat = 3 ∨ ft.toNat = 4 := by omega
    rcases this with e | e | e | e | e <;> rw [e] <;> exact ⟨_, rfl⟩

/-- DFROW where its record is whole and its filter type defined. -/
theorem defilterRow_ok {y : Nat} {s : State} {f : FilterType} (hy : y < s.defilter.dfH.toNat)
    (hz : rowStart s.defilter.dfW.toNat (y + 1) ≤ s.zbuf.len.toNat)
    (hf : filterOf (s.zbuf.byte .zbuf (rowStart s.defilter.dfW.toNat y)) = some f) :
    defilterRow y s = .ok () (applyFilter f y (fetchRow y s)) := by
  unfold defilterRow
  rw [if_neg (by omega), if_neg (by exact Nat.not_lt.mpr hz)]
  show (match filterOf (s.zbuf.byte .zbuf _) with | some f => _ | none => _) = _
  rw [hf]

/-- DFROW answers only there. -/
theorem defilterRow_eq_ok {y : Nat} {s t : State} {u : Unit} (h : defilterRow y s = .ok u t) :
    y < s.defilter.dfH.toNat ∧ rowStart s.defilter.dfW.toNat (y + 1) ≤ s.zbuf.len.toNat ∧
      ∃ f, filterOf (s.zbuf.byte .zbuf (rowStart s.defilter.dfW.toNat y)) = some f ∧
        t = applyFilter f y (fetchRow y s) := by
  unfold defilterRow at h
  split at h
  · cases h
  split at h
  · cases h
  rename_i h1 h2
  split at h
  · rename_i f hf
    injection h with _ h
    exact ⟨by omega, Nat.not_lt.mp h2, f, hf, h.symm⟩
  · cases h

/-- DFROW on a reserved filter type of a whole record (R96): it fails with DF_Y and DF_FT written. -/
theorem defilterRow_reserved {y : Nat} {s : State} (hy : y < s.defilter.dfH.toNat)
    (hz : rowStart s.defilter.dfW.toNat (y + 1) ≤ s.zbuf.len.toNat)
    (hf : 4 < (s.zbuf.byte .zbuf (rowStart s.defilter.dfW.toNat y)).toNat) :
    defilterRow y s = .raised .unsupportedVariant
      (y * 256 + (s.zbuf.byte .zbuf (rowStart s.defilter.dfW.toNat y)).toNat) (fetchRow y s) := by
  unfold defilterRow
  rw [if_neg (by omega), if_neg (by exact Nat.not_lt.mpr hz)]
  show (match filterOf (s.zbuf.byte .zbuf _) with | some f => _ | none => _) = _
  cases h : filterOf (s.zbuf.byte .zbuf (rowStart s.defilter.dfW.toNat y)) with
  | some f => exact absurd (filterOf_toNat.mp ⟨f, h⟩) (by omega)
  | none => rfl

/-! ### DFRUN -/

/-- An image reconstructed: DF_Y and DF_FT of the last row, ZBUF rewritten, everything else as it was. -/
structure Defiltered (f : Nat → FilterType) (s t : State) (y n : Nat) : Prop where
  state : ∃ z d, t = (s.setDefilter d).setZbuf z ∧ d.dfW = s.defilter.dfW ∧ d.dfH = s.defilter.dfH ∧
    (n = 0 → d = s.defilter) ∧ (1 ≤ n → d.dfY = BitVec.ofNat 32 (y + n - 1) ∧
      d.dfFt = s.zbuf.byte .zbuf (rowStart s.defilter.dfW.toNat (y + n - 1)))
  len : t.zbuf.len = s.zbuf.len
  wf : s.zbuf.mem.wf → t.zbuf.mem.wf
  rows : ∀ k, y ≤ k → k < y + n → Reconstructs (predictorOf (f k)) s.defilter.dfW.toNat k s.zbuf t.zbuf
  filters : ∀ k, t.zbuf.byte .zbuf (rowStart s.defilter.dfW.toNat k) = s.zbuf.byte .zbuf (rowStart s.defilter.dfW.toNat k)
  out : ∀ sp x, x ≤ rowStart s.defilter.dfW.toNat y ∨ rowStart s.defilter.dfW.toNat (y + n) ≤ x →
    t.zbuf.byte sp x = s.zbuf.byte sp x

/-- The row loop of DFRUN where every row is whole and its filter type defined. -/
theorem defilterRows_ok (f : Nat → FilterType) : ∀ (n y : Nat) (s : State), y + n ≤ s.defilter.dfH.toNat →
    rowStart s.defilter.dfW.toNat (y + n) ≤ s.zbuf.len.toNat →
    (∀ k, y ≤ k → k < y + n → filterOf (s.zbuf.byte .zbuf (rowStart s.defilter.dfW.toNat k)) = some (f k)) →
    ∃ t, defilterRows n y s = .ok () t ∧ Defiltered f s t y n
  | 0, y, s, _, _, _ =>
    ⟨s, rfl, ⟨s.zbuf, s.defilter, rfl, rfl, rfl, fun _ => rfl, fun h => absurd h (by decide)⟩, rfl, id,
      fun k h1 h2 => absurd h2 (by omega), fun _ => rfl, fun _ _ _ => rfl⟩
  | n + 1, y, s, hy, hz, hf => by
    have hm : rowStart s.defilter.dfW.toNat (y + 1) ≤ rowStart s.defilter.dfW.toNat (y + (n + 1)) :=
      rowStart_mono (by omega)
    have e1 := defilterRow_ok (y := y) (by omega) (by omega) (hf y (by omega) (by omega))
    obtain ⟨z, ez, hl, hw, hr, ho⟩ := applyFilter_spec (f y) y (fetchRow y s)
    rw [ez] at e1
    change Reconstructs _ s.defilter.dfW.toNat y s.zbuf z at hr
    change ∀ sp x, x ≤ rowStart s.defilter.dfW.toNat y ∨ rowStart s.defilter.dfW.toNat (y + 1) ≤ x →
      z.byte sp x = s.zbuf.byte sp x at ho
    have hfil : ∀ k, z.byte .zbuf (rowStart s.defilter.dfW.toNat k) = s.zbuf.byte .zbuf (rowStart s.defilter.dfW.toNat k) := by
      intro k
      apply ho
      by_cases h : k ≤ y
      · exact .inl (rowStart_mono h)
      · exact .inr (rowStart_mono (by omega))
    obtain ⟨t, e2, ⟨z', d, et, hdw, hdh, hd0, hd1⟩, hl2, hw2, hr2, hf2, ho2⟩ :=
      defilterRows_ok f n (y + 1) ((fetchRow y s).setZbuf z)
        (show y + 1 + n ≤ s.defilter.dfH.toNat by omega)
        (by show rowStart s.defilter.dfW.toNat (y + 1 + n) ≤ z.len.toNat
            rw [hl, show y + 1 + n = y + (n + 1) by omega]; exact hz)
        (fun k h1 h2 => by
          show filterOf (z.byte .zbuf (rowStart s.defilter.dfW.toNat k)) = _
          rw [hfil k]; exact hf k (by omega) (by omega))
    change ∀ k, y + 1 ≤ k → k < y + 1 + n → Reconstructs _ s.defilter.dfW.toNat k z t.zbuf at hr2
    change ∀ k, t.zbuf.byte .zbuf (rowStart s.defilter.dfW.toNat k) = z.byte .zbuf (rowStart s.defilter.dfW.toNat k) at hf2
    change ∀ sp x, x ≤ rowStart s.defilter.dfW.toNat (y + 1) ∨ rowStart s.defilter.dfW.toNat (y + 1 + n) ≤ x →
      t.zbuf.byte sp x = z.byte sp x at ho2
    have hle : rowStart s.defilter.dfW.toNat y ≤ rowStart s.defilter.dfW.toNat (y + 1) := rowStart_mono (by omega)
    refine ⟨t, by rw [defilterRows, e1, Res.andThen_ok, e2], ⟨z', d, et, hdw, hdh, fun h => absurd h (by omega), fun _ => ?_⟩,
      hl2.trans hl, fun h => hw2 (hw h), fun k h1 h2 => ?_, fun k => (hf2 k).trans (hfil k), fun sp x h => ?_⟩
    · by_cases hn : n = 0
      · subst hn; rw [hd0 rfl]; exact ⟨rfl, rfl⟩
      · obtain ⟨h1, h2⟩ := hd1 (by omega)
        rw [h1, h2, show y + 1 + n - 1 = y + (n + 1) - 1 by omega]
        exact ⟨rfl, hfil _⟩
    · intro i hi1 hi2
      by_cases hk : k = y
      · subst hk
        have key : ∀ x, x < rowStart s.defilter.dfW.toNat (k + 1) → z.byte .zbuf x = t.zbuf.byte .zbuf x :=
          fun x hx => (ho2 .zbuf x (.inl (by omega))).symm
        have hs := rowStart_succ s.defilter.dfW.toNat k
        obtain ⟨e3, e4⟩ := neighbours_congr (w := s.defilter.dfW.toNat) (y := k) hi2 fun x hx => key x (by omega)
        have e5 : leftOf z s.defilter.dfW.toNat k i = leftOf t.zbuf s.defilter.dfW.toNat k i :=
          leftOf_congr fun x hx => key x (by omega)
        rw [← e3, ← e4, ← e5, ← key _ (by omega)]
        exact hr i hi1 hi2
      · have := hr2 k (by omega) (by omega) i hi1 hi2
        rw [this, ho .zbuf _ (.inr (by have := rowStart_mono (w := s.defilter.dfW.toNat) (show y + 1 ≤ k by omega); omega))]
    · rw [show y + (n + 1) = y + 1 + n by omega] at h
      have hm2 : rowStart s.defilter.dfW.toNat (y + 1) ≤ rowStart s.defilter.dfW.toNat (y + 1 + n) := rowStart_mono (by omega)
      rw [ho2 sp x (by omega), ho sp x (by omega)]

/-- The row loop in two parts. -/
theorem defilterRows_add : ∀ (m n y : Nat) (s : State),
    defilterRows (m + n) y s = (defilterRows m y s).andThen fun _ t => defilterRows n (y + m) t
  | 0, n, y, s => by rw [Nat.zero_add, Nat.add_zero, defilterRows, Res.andThen_ok]
  | m + 1, n, y, s => by
    rw [show m + 1 + n = m + n + 1 by omega, defilterRows, defilterRows]
    cases e : defilterRow y s with
    | raised k i t => rfl
    | ok v t =>
      simp only [Res.andThen_ok]
      rw [defilterRows_add m n (y + 1) t, show y + (m + 1) = y + 1 + m by omega]

/-- DFRUN up to a reserved filter type in row `y`: the rows before it are reconstructed, then the row's fetch. -/
theorem defilterImage_reserved (f : Nat → FilterType) {s : State} {y : Nat} (hy : y < s.defilter.dfH.toNat)
    (hz : rowStart s.defilter.dfW.toNat s.defilter.dfH.toNat ≤ s.zbuf.len.toNat)
    (hf : ∀ k, k < y → filterOf (s.zbuf.byte .zbuf (rowStart s.defilter.dfW.toNat k)) = some (f k))
    (hr : 4 < (s.zbuf.byte .zbuf (rowStart s.defilter.dfW.toNat y)).toNat) :
    ∃ t, Defiltered f s t 0 y ∧ defilterImage s = .raised .unsupportedVariant
      (y * 256 + (s.zbuf.byte .zbuf (rowStart s.defilter.dfW.toNat y)).toNat) (fetchRow y t) := by
  have hm : rowStart s.defilter.dfW.toNat (y + 1) ≤ rowStart s.defilter.dfW.toNat s.defilter.dfH.toNat :=
    rowStart_mono (by omega)
  have hm' : rowStart s.defilter.dfW.toNat (0 + y) ≤ rowStart s.defilter.dfW.toNat s.defilter.dfH.toNat :=
    rowStart_mono (by omega)
  obtain ⟨t, e, ht⟩ := defilterRows_ok f y 0 s (by omega) (by omega) fun k _ h => hf k (by omega)
  refine ⟨t, ht, ?_⟩
  have hw : t.defilter.dfW = s.defilter.dfW ∧ t.defilter.dfH = s.defilter.dfH := by
    obtain ⟨z, d, rfl, h1, h2, _⟩ := ht.state
    exact ⟨h1, h2⟩
  have hb : t.zbuf.byte .zbuf (rowStart t.defilter.dfW.toNat y) = s.zbuf.byte .zbuf (rowStart s.defilter.dfW.toNat y) := by
    rw [hw.1]; exact ht.filters y
  have e2 := defilterRow_reserved (s := t) (y := y) (by rw [hw.2]; exact hy) (by rw [hw.1, ht.len]; omega)
    (by rw [hb]; exact hr)
  rw [hb] at e2
  unfold defilterImage
  rw [if_neg (by exact Nat.not_lt.mpr hz), show s.defilter.dfH.toNat = y + (s.defilter.dfH.toNat - y - 1 + 1) by omega,
    defilterRows_add, e, Res.andThen_ok, Nat.zero_add, defilterRows, e2, Res.andThen_raised]

/-- DFRUN where ZBUF holds the image and every filter type is defined. -/
theorem defilterImage_ok (f : Nat → FilterType) {s : State}
    (hz : rowStart s.defilter.dfW.toNat s.defilter.dfH.toNat ≤ s.zbuf.len.toNat)
    (hf : ∀ k, k < s.defilter.dfH.toNat →
      filterOf (s.zbuf.byte .zbuf (rowStart s.defilter.dfW.toNat k)) = some (f k)) :
    ∃ t, defilterImage s = .ok () t ∧ Defiltered f s t 0 s.defilter.dfH.toNat := by
  unfold defilterImage
  rw [if_neg (by exact Nat.not_lt.mpr hz)]
  exact defilterRows_ok f _ 0 s (by omega) (by rw [Nat.zero_add]; exact hz) fun k _ h => hf k (by omega)

/-- The row loop answers only where every filter type is defined. -/
theorem defilterRows_eq_ok : ∀ (n y : Nat) (s t : State) (u : Unit), defilterRows n y s = .ok u t →
    ∃ f : Nat → FilterType, ∀ k, y ≤ k → k < y + n →
      filterOf (s.zbuf.byte .zbuf (rowStart s.defilter.dfW.toNat k)) = some (f k)
  | 0, y, _, _, _, _ => ⟨fun _ => .none, fun k h1 h2 => absurd h2 (by omega)⟩
  | n + 1, y, s, t, u, h => by
    rw [defilterRows] at h
    obtain ⟨_, s1, h1, h2⟩ := Res.andThen_eq_ok.mp h
    obtain ⟨_, _, f0, hf0, rfl⟩ := defilterRow_eq_ok h1
    obtain ⟨z, ez, _, _, _, ho⟩ := applyFilter_spec f0 y (fetchRow y s)
    rw [ez] at h2
    obtain ⟨f, hf⟩ := defilterRows_eq_ok n (y + 1) _ t u h2
    refine ⟨fun k => if k = y then f0 else f k, fun k h3 h4 => ?_⟩
    by_cases hk : k = y
    · simp only [hk, if_true]; exact hf0
    · have := hf k (by omega) (by omega)
      simp only [hk, if_false]
      rw [← this]
      congr 1
      exact (ho .zbuf _ (.inr (rowStart_mono (by omega)))).symm

/-- DFRUN answers only where ZBUF holds the image and every filter type is defined. -/
theorem defilterImage_eq_ok {s t : State} {u : Unit} (h : defilterImage s = .ok u t) :
    rowStart s.defilter.dfW.toNat s.defilter.dfH.toNat ≤ s.zbuf.len.toNat ∧
      ∃ f : Nat → FilterType, Defiltered f s t 0 s.defilter.dfH.toNat ∧
        ∀ k, k < s.defilter.dfH.toNat → filterOf (s.zbuf.byte .zbuf (rowStart s.defilter.dfW.toNat k)) = some (f k) := by
  have h' := h
  unfold defilterImage at h
  split at h
  · cases h
  · rename_i hz
    obtain ⟨f, hf⟩ := defilterRows_eq_ok _ 0 s t u h
    have hf' := fun k hk => hf k (Nat.zero_le k) (by rw [Nat.zero_add]; exact hk)
    obtain ⟨t', e, hd⟩ := defilterImage_ok f (Nat.not_lt.mp hz) hf'
    rw [e] at h'
    injection h' with _ h'
    subst h'
    exact ⟨Nat.not_lt.mp hz, f, hd, hf'⟩

end Sys2Proof.Machine
end

