-- ==== Sys2Proof/Laws/PerInstr.lean ====
section
/-! SUPPORT. Per instruction: how many bytes its encoding has and that its opcode is the first of them (R90 to R92). -/

namespace Sys2Proof.Laws.EncodeForm

/-- A filter record's opcode is one byte, a command word five, the opcode at the lowest address in both. -/
def Statement (i : Instr) : Prop :=
  (encode i).length = (match i.format with | .f => 1 | .k => 5) ∧ (encode i).head? = some (opcode i)

theorem fNone : Statement .fNone := ⟨rfl, rfl⟩
theorem fSub : Statement .fSub := ⟨rfl, rfl⟩
theorem fUp : Statement .fUp := ⟨rfl, rfl⟩
theorem fAvg : Statement .fAvg := ⟨rfl, rfl⟩
theorem fPaeth : Statement .fPaeth := ⟨rfl, rfl⟩
theorem nop : Statement .nop := ⟨rfl, congrArg some (opField_append _ _)⟩
theorem setflip (flag : Bit) : Statement (.setflip flag) := ⟨rfl, congrArg some (opField_append _ _)⟩
theorem clr : Statement .clr := ⟨rfl, congrArg some (opField_append _ _)⟩
theorem rd8 : Statement .rd8 := ⟨rfl, congrArg some (opField_append _ _)⟩
theorem rd16le : Statement .rd16le := ⟨rfl, congrArg some (opField_append _ _)⟩
theorem rd32le : Statement .rd32le := ⟨rfl, congrArg some (opField_append _ _)⟩
theorem rd32be : Statement .rd32be := ⟨rfl, congrArg some (opField_append _ _)⟩
theorem skip (count : Nat) : Statement (.skip count) := ⟨rfl, congrArg some (opField_append _ _)⟩
theorem seek (target : Nat) : Statement (.seek target) := ⟨rfl, congrArg some (opField_append _ _)⟩
theorem pbmpf : Statement .pbmpf := ⟨rfl, congrArg some (opField_append _ _)⟩
theorem pbmpi : Statement .pbmpi := ⟨rfl, congrArg some (opField_append _ _)⟩
theorem pbmpc : Statement .pbmpc := ⟨rfl, congrArg some (opField_append _ _)⟩
theorem pihdr : Statement .pihdr := ⟨rfl, congrArg some (opField_append _ _)⟩
theorem pchunk : Statement .pchunk := ⟨rfl, congrArg some (opField_append _ _)⟩
theorem bxrows : Statement .bxrows := ⟨rfl, congrArg some (opField_append _ _)⟩
theorem bxswap : Statement .bxswap := ⟨rfl, congrArg some (opField_append _ _)⟩
theorem decbmp : Statement .decbmp := ⟨rfl, congrArg some (opField_append _ _)⟩
theorem dfrow (row : Nat) : Statement (.dfrow row) := ⟨rfl, congrArg some (opField_append _ _)⟩
theorem dfrun : Statement .dfrun := ⟨rfl, congrArg some (opField_append _ _)⟩
theorem chunks : Statement .chunks := ⟨rfl, congrArg some (opField_append _ _)⟩
theorem inflate : Statement .inflate := ⟨rfl, congrArg some (opField_append _ _)⟩
theorem pxrun : Statement .pxrun := ⟨rfl, congrArg some (opField_append _ _)⟩
theorem decpng : Statement .decpng := ⟨rfl, congrArg some (opField_append _ _)⟩

end Sys2Proof.Laws.EncodeForm
end

