-- ==== Sys2Proof/Laws/Png.lean ====
section
/-! SUPPORT. The chunk loop: its fuel is never met, a turn over a chunk that the source holds, and the loop over a whole
stream. -/

namespace Sys2Proof.Machine

open Sys2Proof.Safety

/-! ### The fuel -/

theorem avail_setPos {n : Nat} {s : State} (h : CanRead n s) : avail (s.past n) + n = avail s := by
  have h1 := pos_after h
  have h2 := h.2
  simp only [avail, State.reg_srcLen, State.reg_pos] at h2 ⊢
  rw [h1]
  simp only [State.setPos_src]
  omega

/-- A part of a turn never gives bytes back. -/
def Consumes (n : Nat) (s t : State) : Prop := avail t + n ≤ avail s

theorem Consumes.trans {m n : Nat} {s t u : State} (h : Consumes m s t) (h' : Consumes n t u) : Consumes (m + n) s u := by
  unfold Consumes at *; omega

theorem consumes_curRead (n : Nat) (s : State) : (curRead n s).Post (Consumes n s) fun _ => True :=
  curRead_post (fun h => Nat.le_of_eq (avail_setPos h)) trivial

theorem consumes_parseChunk (s : State) : (parseChunk s).Post (Consumes 8 s) fun _ => True :=
  (consumes_curRead 8 s).andThen fun _ _ h => h

theorem consumes_chunkCrc (s : State) : (chunkCrc s).Post (Consumes 4 s) fun _ => True :=
  (consumes_curRead 4 s).andThen fun _ _ h => h

theorem consumes_curSkip (n : Nat) (s : State) : (curSkip n s).Post (Consumes 0 s) fun _ => True :=
  (consumes_curRead n s).andThen fun _ _ h => by unfold Consumes at *; simp only [Res.post_ok]; omega

theorem consumes_chunkPayload (tag : Word) (len : Nat) (s : State) :
    (chunkPayload tag len s).Post (Consumes 0 s) fun _ => True := by
  unfold chunkPayload
  split
  · unfold ihdrPayload
    split
    · trivial
    · refine Res.Post.andThen (Q := Consumes 0 s) ?_ fun _ t h => ?_
      · exact (consumes_curRead 13 s).andThen fun _ t h => by
          have : avail t + 13 ≤ avail s := h
          show avail t + 0 ≤ avail s
          omega
      · refine Res.Post.andThen (Q := Consumes 0 s) (ihdrGate_post h trivial) fun _ u h => ?_
        exact (consumes_curSkip _ u).mono (fun _ h' => h.trans h') fun _ _ => trivial
  split
  · unfold idatPayload
    split
    · trivial
    · exact (consumes_curRead len s).andThen fun _ t h => by
        have : avail t + len ≤ avail s := h
        show avail t + 0 ≤ avail s
        omega
  · exact consumes_curSkip len s

/-- A turn that goes on consumes at least 12 bytes: a chunk header and a CRC. -/
theorem consumes_chunkTurn (first : Bool) (s : State) : (chunkTurn first s).Post (Consumes 12 s) fun _ => True := by
  refine Res.Post.andThen (consumes_parseChunk s) fun _ t h => ?_
  simp only
  split
  · trivial
  · refine Res.Post.andThen (consumes_chunkPayload _ _ t) fun _ u h' => ?_
    refine Res.Post.andThen (consumes_chunkCrc u) fun _ v h'' => ?_
    exact (h.trans h').trans h''

/-- With more turns than the source has chunks' worth of bytes, the number of turns does not matter. -/
theorem chunkLoop_enough : ∀ (m n : Nat) (first : Bool) (s : State), avail s / 12 < m → avail s / 12 < n →
    chunkLoop m first s = chunkLoop n first s
  | 0, _, _, _, h, _ => by omega
  | _ + 1, 0, _, _, _, h => by omega
  | m + 1, n + 1, first, s, h1, h2 => by
    rw [chunkLoop, chunkLoop]
    have hc := consumes_chunkTurn first s
    cases e : chunkTurn first s with
    | raised k i t => rfl
    | ok stop t =>
      rw [e] at hc
      simp only [Res.andThen_ok]
      split
      · rfl
      · have hc : avail t + 12 ≤ avail s := hc
        exact chunkLoop_enough m n false t (by omega) (by omega)

/-- The bound of the chunk loop is never met (log entry 18). -/
theorem chunkLoop_fuel (n : Nat) (first : Bool) (s : State) (h : chunkTurns s ≤ n) :
    chunkLoop n first s = chunkLoop (chunkTurns s) first s :=
  chunkLoop_enough n (chunkTurns s) first s (Nat.lt_of_lt_of_le (Nat.lt_succ_self _) h) (Nat.lt_succ_self _)

/-! ### What the source holds -/

theorem sourceHolds_append {s : State} {a : Nat} {xs ys : List Byte} :
    SourceHolds s a (xs ++ ys) ↔ SourceHolds s a xs ∧ SourceHolds s (a + xs.length) ys := by
  unfold SourceHolds sourceBytes
  rw [List.length_append, Buffer.bytes_add]
  constructor
  · rintro ⟨h1, h2⟩
    obtain ⟨h3, h4⟩ := List.append_inj h1 (by simp)
    exact ⟨⟨h3, by omega⟩, h4, by omega⟩
  · rintro ⟨⟨h1, h2⟩, h3, h4⟩
    exact ⟨by rw [h1, h3], by omega⟩

theorem sourceHolds_canRead {s : State} {bs : List Byte} (h : SourceHolds s (s.reg .pos) bs) (hv : s.reg .srcValid = 1) :
    CanRead bs.length s ∧ s.ahead bs.length = bs :=
  ⟨⟨hv, by have := h.2; unfold avail; omega⟩, h.1⟩

/-- What the source holds does not depend on anything but the source. -/
theorem sourceHolds_congr {s t : State} {a : Nat} {bs : List Byte} (h : SourceHolds s a bs) (e : t.src = s.src) :
    SourceHolds t a bs := by
  unfold SourceHolds sourceBytes at *
  simp only [State.reg_srcLen] at *
  rw [e]; exact h

theorem leNat_append (xs ys : List Byte) : leNat (xs ++ ys) = leNat xs + 256 ^ xs.length * leNat ys := by
  induction xs with
  | nil => simp [leNat]
  | cons x xs ih => simp only [List.cons_append, leNat, ih, List.length_cons, pow_succ]; ring

theorem beNat_bytesBE (x : Word) : beNat (bytesBE x) = x.toNat := by
  have := x.isLt
  simp only [beNat, bytesBE, List.reverse_cons, List.reverse_nil, List.nil_append, List.cons_append, leNat,
    BitVec.extractLsb'_toNat, Nat.shiftRight_eq_div_pow]
  omega

@[simp] theorem bytesBE_length (x : Word) : (bytesBE x).length = 4 := rfl

theorem beField_prefix {xs ys : List Byte} {off n : Nat} (h : off + n ≤ xs.length) :
    beField (xs ++ ys) off n = beField xs off n := by
  unfold beField
  rw [List.drop_append_of_le_length (by omega), List.take_append_of_le_length (by simp; omega)]

theorem ihdrOf_append {xs ys : List Byte} (h : xs.length = 13) : ihdrOf (xs ++ ys) = ihdrOf xs := by
  simp only [ihdrOf]
  simp only [beField_prefix (xs := xs) (ys := ys) (off := 0) (n := 4) (by omega), beField_prefix (xs := xs) (ys := ys) (off := 4) (n := 4) (by omega),
    beField_prefix (xs := xs) (ys := ys) (off := 8) (n := 1) (by omega), beField_prefix (xs := xs) (ys := ys) (off := 9) (n := 1) (by omega),
    beField_prefix (xs := xs) (ys := ys) (off := 10) (n := 1) (by omega), beField_prefix (xs := xs) (ys := ys) (off := 11) (n := 1) (by omega),
    beField_prefix (xs := xs) (ys := ys) (off := 12) (n := 1) (by omega)]

/-! ### One chunk -/

/-- The cursor is where it should be, and the source and the parameters are those of `s`. -/
structure At (s t : State) (p : Nat) : Prop where
  pos : t.cursor.pos.toNat = p
  held : Held s t

theorem At.canRead {s t : State} {p : Nat} {bs : List Byte} (h : At s t p) (hv : s.reg .srcValid = 1)
    (hs : SourceHolds s p bs) : CanRead bs.length t ∧ t.ahead bs.length = bs := by
  have e : t.reg .srcValid = 1 := by rw [State.reg_srcValid, h.held.srcValid]; exact hv
  exact sourceHolds_canRead (s := t) (by rw [State.reg_pos, h.pos]; exact sourceHolds_congr hs h.held.src) e

theorem At.past {s t : State} {p : Nat} {bs : List Byte} (h : At s t p) (hv : s.reg .srcValid = 1)
    (hs : SourceHolds s p bs) : At s (t.past bs.length) (p + bs.length) := by
  have hc := (h.canRead hv hs).1
  exact ⟨(pos_after hc).trans (by rw [h.pos]), h.held.trans ⟨rfl, rfl, rfl, rfl, rfl, rfl, rfl⟩⟩

/-- What a turn of the chunk loop leaves besides the held fields. -/
structure ChunkRest (s t : State) : Prop where
  zbuf : t.zbuf = s.zbuf
  pix : t.pix = s.pix
  bmpFile : t.bmpFile = s.bmpFile
  bmpInfo : t.bmpInfo = s.bmpInfo
  bmpColour : t.bmpColour = s.bmpColour
  defilter : t.defilter = s.defilter
  status : t.status = s.status
  val : t.cursor.val = s.cursor.val

theorem ChunkRest.refl (s : State) : ChunkRest s s := ⟨rfl, rfl, rfl, rfl, rfl, rfl, rfl, rfl⟩

theorem ChunkRest.trans {s t u : State} (h : ChunkRest s t) (h' : ChunkRest t u) : ChunkRest s u :=
  ⟨h'.zbuf.trans h.zbuf, h'.pix.trans h.pix, h'.bmpFile.trans h.bmpFile, h'.bmpInfo.trans h.bmpInfo,
    h'.bmpColour.trans h.bmpColour, h'.defilter.trans h.defilter, h'.status.trans h.status, h'.val.trans h.val⟩

/-- The payload of one chunk in CBUF after it. -/
def appendChunk (c : PngChunk) (b : Buffer) : Buffer :=
  if c.tag = tagIDAT then (b.writeBytes b.len.toNat c.payload).setLen (b.len.toNat + c.payload.length) else b

/-- The state after a chunk, `p` the address after it. -/
structure AfterChunk (c : PngChunk) (s t : State) (p : Nat) : Prop where
  at' : At s t p
  chunk : t.chunk = { chLen := BitVec.ofNat 32 c.payload.length, chTag := c.tag, chCrc := c.crc,
                      ihdrSeen := if c.tag = tagIHDR then 1 else s.chunk.ihdrSeen }
  ihdr : t.ihdr = if c.tag = tagIHDR then ihdrOf c.payload else s.ihdr
  cbuf : t.cbuf = appendChunk c s.cbuf
  rest : ChunkRest s t

/-- The state after a chunk header, `p` the address after it. -/
structure AfterHead (c : PngChunk) (s u : State) (p : Nat) : Prop where
  at' : At s u p
  chunk : u.chunk = { s.chunk with chLen := BitVec.ofNat 32 c.payload.length, chTag := c.tag }
  ihdr : u.ihdr = s.ihdr
  cbuf : u.cbuf = s.cbuf
  rest : ChunkRest s u

/-- PCHUNK on a chunk header that the source holds. -/
theorem parseChunk_head {c : PngChunk} {s : State} (hv : s.reg .srcValid = 1) (hl : c.payload.length < 2 ^ 32)
    (hs : SourceHolds s (s.reg .pos) (bytesBE (BitVec.ofNat 32 c.payload.length) ++ bytesBE c.tag)) :
    ∃ u, parseChunk s = .ok () u ∧ AfterHead c s u (s.reg .pos + 8) := by
  have a0 : At s s (s.reg .pos) := ⟨rfl, Held.refl s⟩
  obtain ⟨c1, e1⟩ := a0.canRead hv hs
  have a1 := a0.past hv hs
  simp only [List.length_append, bytesBE_length] at c1 e1 a1
  have p1 := parseChunk_ok c1
  have f1 : beField (s.ahead 8) 0 4 = c.payload.length := by
    rw [show s.ahead 8 = _ from e1, beField_prefix (by simp)]
    have : beField (bytesBE (BitVec.ofNat 32 c.payload.length)) 0 4 = beNat (bytesBE (BitVec.ofNat 32 c.payload.length)) := rfl
    rw [this, beNat_bytesBE, toNat_ofNat_of_lt hl]
  have f2 : beField (s.ahead 8) 4 4 = c.tag.toNat := by
    rw [show s.ahead 8 = _ from e1]
    exact beNat_bytesBE c.tag
  rw [f1, f2, BitVec.ofNat_toNat, BitVec.setWidth_eq] at p1
  exact ⟨_, p1, ⟨a1.pos, a1.held.trans ⟨rfl, rfl, rfl, rfl, rfl, rfl, rfl⟩⟩, rfl, rfl, rfl,
    ⟨rfl, rfl, rfl, rfl, rfl, rfl, rfl, rfl⟩⟩

/-- The state after a chunk's payload, `p` the address after it. -/
structure AfterPayload (c : PngChunk) (u v : State) (p : Nat) : Prop where
  at' : At u v p
  chunk : v.chunk = { u.chunk with ihdrSeen := if c.tag = tagIHDR then 1 else u.chunk.ihdrSeen }
  ihdr : v.ihdr = if c.tag = tagIHDR then ihdrOf c.payload else u.ihdr
  cbuf : v.cbuf = appendChunk c u.cbuf
  rest : ChunkRest u v

/-- The first 13 bytes of an IHDR payload that the source holds: parsed, and the gate passed. -/
theorem ihdrPayload_head {bs : List Byte} {len : Nat} {u : State} (hv : u.reg .srcValid = 1) (h13 : 13 ≤ len)
    (hb : 13 ≤ bs.length) (hok : IhdrOk u.params (ihdrOf bs)) (hs : SourceHolds u (u.reg .pos) (bs.take 13)) :
    ∃ w, ihdrPayload len u = curSkip (len - 13) w ∧ At u w (u.reg .pos + 13) ∧ w.chunk = { u.chunk with ihdrSeen := 1 } ∧
      w.ihdr = ihdrOf bs ∧ w.cbuf = u.cbuf ∧ ChunkRest u w := by
  have ht13 : (bs.take 13).length = 13 := by simp; omega
  have a0 : At u u (u.reg .pos) := ⟨rfl, Held.refl u⟩
  obtain ⟨c2, e2⟩ := a0.canRead hv hs
  have a2 := a0.past hv hs
  rw [ht13] at c2 e2 a2
  have e3 : ihdrOf (u.ahead 13) = ihdrOf bs := by
    conv_rhs => rw [← List.take_append_drop 13 bs]
    rw [ihdrOf_append ht13, show u.ahead 13 = _ from e2]
  refine ⟨((u.past 13).setIhdr (ihdrOf bs)).setChunk { u.chunk with ihdrSeen := 1 }, ?_,
    ⟨a2.pos, a2.held.trans ⟨rfl, rfl, rfl, rfl, rfl, rfl, rfl⟩⟩, rfl, rfl, rfl, ⟨rfl, rfl, rfl, rfl, rfl, rfl, rfl, rfl⟩⟩
  unfold ihdrPayload
  rw [if_neg (by omega), parseIhdr_ok c2, Res.andThen_ok, e3, ihdrGate_ok hok, Res.andThen_ok]

/-- The payload of a chunk that the source holds. -/
theorem chunkPayload_ok {c : PngChunk} {u : State} (hv : u.reg .srcValid = 1)
    (hs : SourceHolds u (u.reg .pos) c.payload)
    (hi : c.tag = tagIHDR → 13 ≤ c.payload.length ∧ IhdrOk u.params (ihdrOf c.payload))
    (hd : c.tag = tagIDAT → u.cbuf.len.toNat + c.payload.length ≤ u.params.cbufCap) :
    ∃ v, chunkPayload c.tag c.payload.length u = .ok () v ∧ AfterPayload c u v (u.reg .pos + c.payload.length) := by
  have a0 : At u u (u.reg .pos) := ⟨rfl, Held.refl u⟩
  unfold chunkPayload
  by_cases ht : c.tag = tagIHDR
  · obtain ⟨h13, hok⟩ := hi ht
    rw [if_pos ht]
    rw [← List.take_append_drop 13 c.payload] at hs
    obtain ⟨hs5, hs6⟩ := sourceHolds_append.mp hs
    obtain ⟨w, e, aw, hc, hh, hb, hr⟩ := ihdrPayload_head hv h13 h13 hok hs5
    rw [show (c.payload.take 13).length = 13 by simp; omega] at hs6
    obtain ⟨c4, _⟩ := aw.canRead hv hs6
    have a4 := aw.past hv hs6
    rw [show (c.payload.drop 13).length = c.payload.length - 13 by simp] at c4 a4
    refine ⟨_, e.trans (curSkip_ok c4), ⟨a4.pos.trans (by omega), a4.held⟩, ?_, ?_, ?_,
      hr.trans ⟨rfl, rfl, rfl, rfl, rfl, rfl, rfl, rfl⟩⟩
    · rw [if_pos ht]; exact hc
    · rw [if_pos ht]; exact hh
    · unfold appendChunk
      rw [if_neg (by rw [ht]; decide)]; exact hb
  · rw [if_neg ht]
    obtain ⟨c2, e2⟩ := a0.canRead hv hs
    have a2 := a0.past hv hs
    by_cases hd' : c.tag = tagIDAT
    · rw [if_pos hd']
      unfold idatPayload
      rw [if_neg (by have := hd hd'; omega), curRead_ok c2, Res.andThen_ok]
      refine ⟨_, rfl, ⟨a2.pos, a2.held.trans ⟨rfl, rfl, rfl, rfl, rfl, rfl, rfl⟩⟩, ?_, (if_neg ht).symm, ?_,
        ⟨rfl, rfl, rfl, rfl, rfl, rfl, rfl, rfl⟩⟩
      · rw [if_neg ht]; rfl
      · unfold appendChunk
        rw [if_pos hd']
        show ((u.cbuf.writeBytes u.cbuf.len.toNat (u.ahead c.payload.length)).setLen _) = _
        rw [e2]
        rfl
    · rw [if_neg hd']
      refine ⟨_, curSkip_ok c2, a2, ?_, (if_neg ht).symm, ?_, ⟨rfl, rfl, rfl, rfl, rfl, rfl, rfl, rfl⟩⟩
      · rw [if_neg ht]; rfl
      · unfold appendChunk; rw [if_neg hd']; rfl

/-- A turn whose header is read is its payload and its CRC, or the failure of a first chunk that is not IHDR. -/
theorem chunkTurn_head {first : Bool} {s u : State} (h : parseChunk s = .ok () u) :
    chunkTurn first s =
      if first = true ∧ u.chunk.chTag ≠ tagIHDR then .raised .badSignature u.chunk.chTag.toNat u
      else (chunkPayload u.chunk.chTag u.chunk.chLen.toNat u).andThen fun _ v =>
        (chunkCrc v).andThen fun _ x => .ok (decide (u.chunk.chTag = tagIEND)) x := by
  unfold chunkTurn
  rw [h, Res.andThen_ok]

/-- A turn of the loop over a chunk that the source holds whole. -/
theorem chunkTurn_ok {c : PngChunk} {s : State} {first : Bool} (hv : s.reg .srcValid = 1) (hl : c.payload.length < 2 ^ 32)
    (hs : SourceHolds s (s.reg .pos) c.bytes) (hf : first = true → c.tag = tagIHDR)
    (hi : c.tag = tagIHDR → 13 ≤ c.payload.length ∧ IhdrOk s.params (ihdrOf c.payload))
    (hd : c.tag = tagIDAT → s.cbuf.len.toNat + c.payload.length ≤ s.params.cbufCap) :
    ∃ t, chunkTurn first s = .ok (decide (c.tag = tagIEND)) t ∧ AfterChunk c s t (s.reg .pos + c.bytes.length) := by
  unfold PngChunk.bytes at hs
  obtain ⟨hs1, hs4⟩ := sourceHolds_append.mp hs
  obtain ⟨hs2, hs3⟩ := sourceHolds_append.mp hs1
  obtain ⟨u, p1, au, hc, hh, hb, hr⟩ := parseChunk_head hv hl hs2
  have hp : u.reg .pos = s.reg .pos + 8 := au.pos
  have hvu : u.reg .srcValid = 1 := by rw [State.reg_srcValid, au.held.srcValid]; exact hv
  have hpar := au.held.params
  simp only [List.length_append, bytesBE_length] at hs3 hs4
  obtain ⟨v, ep, av, hvc, hvi, hvb, hvr⟩ := chunkPayload_ok (c := c) hvu (by rw [hp]; exact sourceHolds_congr hs3 au.held.src)
    (by rw [hpar]; exact hi) (by rw [hpar, hb]; exact hd)
  have av' : At s v (s.reg .pos + 8 + c.payload.length) := ⟨av.pos.trans (by rw [hp]), au.held.trans av.held⟩
  rw [← Nat.add_assoc] at hs4
  obtain ⟨c5, e5⟩ := av'.canRead hv hs4
  have a5 := av'.past hv hs4
  simp only [bytesBE_length] at c5 e5 a5
  have p5 := chunkCrc_ok c5
  rw [show v.ahead 4 = _ from e5, beNat_bytesBE, BitVec.ofNat_toNat, BitVec.setWidth_eq] at p5
  refine ⟨(v.past 4).setChunk { v.chunk with chCrc := c.crc }, ?_, ⟨⟨?_, ?_⟩, ?_, ?_, ?_, ?_⟩⟩
  · rw [chunkTurn_head p1, hc]
    simp only
    rw [if_neg (by rintro ⟨h1, h2⟩; exact h2 (hf h1)), toNat_ofNat_of_lt hl, ep, Res.andThen_ok, p5, Res.andThen_ok]
  · refine a5.pos.trans ?_
    simp only [PngChunk.bytes, List.length_append, bytesBE_length]; omega
  · exact a5.held.trans ⟨rfl, rfl, rfl, rfl, rfl, rfl, rfl⟩
  · show { v.chunk with chCrc := c.crc } = _
    rw [hvc, hc]
  · exact hvi.trans (by rw [hh])
  · exact hvb.trans (by rw [hb])
  · exact (hr.trans hvr).trans ⟨rfl, rfl, rfl, rfl, rfl, rfl, rfl, rfl⟩

/-- A failing `CurRead` in the middle of a chunk, `p` where it stands. -/
def CutAt {α : Type} (r : Res α) (s : State) (lo : Nat) : Prop :=
  ∃ u, r = .raised .truncatedStream (u.reg .pos) u ∧ lo ≤ u.reg .pos ∧ u.reg .pos ≤ s.reg .srcLen

theorem CutAt.andThen {α β : Type} {r : Res α} {s : State} {lo : Nat} (h : CutAt r s lo) (f : α → State → Res β) :
    CutAt (r.andThen f) s lo := by
  obtain ⟨u, e, h1, h2⟩ := h
  exact ⟨u, by rw [e]; rfl, h1, h2⟩

/-- A read at `p` that the source is too short for. -/
theorem At.cut {s t : State} {p n lo : Nat} (h : At s t p) (hv : s.reg .srcValid = 1) (h1 : p ≤ s.reg .srcLen)
    (h2 : s.reg .srcLen < p + n) (hlo : lo ≤ p) : CutAt (curRead n t) s lo := by
  have hp : t.reg .pos = p := h.pos
  refine ⟨t, curRead_short (by rw [State.reg_srcValid, h.held.srcValid]; exact hv) ?_, by rw [hp]; exact hlo,
    by rw [hp]; exact h1⟩
  have : t.reg .srcLen = s.reg .srcLen := by rw [State.reg_srcLen, h.held.src]; rfl
  unfold avail
  omega

/-- A source holds the beginning of what it holds. -/
theorem sourceHolds_take {s : State} {a m n : Nat} {bs : List Byte} (h : SourceHolds s a (bs.take m)) (hn : n ≤ m) :
    SourceHolds s a (bs.take n) := by
  have e : bs.take m = bs.take n ++ (bs.take m).drop n := by
    conv_lhs => rw [← List.take_append_drop n (bs.take m)]
    rw [List.take_take, Nat.min_eq_left hn]
  rw [e] at h
  exact (sourceHolds_append.mp h).1

/-- A turn of the loop over a chunk that the source ends in: TruncatedStream where the failing read stands. -/
theorem chunkTurn_cut {c : PngChunk} {s : State} {first : Bool} {m : Nat} (hv : s.reg .srcValid = 1)
    (hl : c.payload.length < 2 ^ 32) (hs : SourceHolds s (s.reg .pos) (c.bytes.take m)) (hm : m < c.bytes.length)
    (he : s.reg .srcLen = s.reg .pos + m) (hf : first = true → c.tag = tagIHDR)
    (hi : c.tag = tagIHDR → 13 ≤ c.payload.length ∧ IhdrOk s.params (ihdrOf c.payload))
    (hd : c.tag = tagIDAT → s.cbuf.len.toNat + c.payload.length ≤ s.params.cbufCap) :
    CutAt (chunkTurn first s) s (s.reg .pos) := by
  have a0 : At s s (s.reg .pos) := ⟨rfl, Held.refl s⟩
  have hcl : c.bytes.length = 8 + c.payload.length + 4 := by simp [PngChunk.bytes]; omega
  by_cases h8 : m < 8
  · exact ((a0.cut hv (by omega) (by omega) (Nat.le_refl _)).andThen _).andThen _
  have t8 : c.bytes.take 8 = bytesBE (BitVec.ofNat 32 c.payload.length) ++ bytesBE c.tag := by
    unfold PngChunk.bytes
    rw [List.append_assoc (_ ++ _), List.take_append_of_le_length (by simp), List.take_of_length_le (by simp)]
  have hpay : ∀ n, 8 + n ≤ m → n ≤ c.payload.length → SourceHolds s (s.reg .pos + 8) (c.payload.take n) := by
    intro n h1 h2
    have := sourceHolds_take hs h1
    have e : c.bytes.take (8 + n) =
        (bytesBE (BitVec.ofNat 32 c.payload.length) ++ bytesBE c.tag) ++ c.payload.take n := by
      rw [← t8, List.take_add]
      congr 1
      unfold PngChunk.bytes
      rw [List.append_assoc (_ ++ _), List.drop_append_of_le_length (by simp), List.drop_of_length_le (by simp),
        List.nil_append, List.take_append_of_le_length h2]
    rw [e] at this
    exact (sourceHolds_append.mp this).2
  obtain ⟨u, p1, au, hc, hh, hb, hr⟩ := parseChunk_head hv hl (by rw [← t8]; exact sourceHolds_take hs (by omega))
  have hp : u.reg .pos = s.reg .pos + 8 := au.pos
  have hvu : u.reg .srcValid = 1 := by rw [State.reg_srcValid, au.held.srcValid]; exact hv
  have hpar := au.held.params
  rw [chunkTurn_head p1, hc]
  simp only
  rw [if_neg (by rintro ⟨h1, h2⟩; exact h2 (hf h1)), toNat_ofNat_of_lt hl]
  by_cases hw : 8 + c.payload.length ≤ m
  · have hs3 := hpay c.payload.length hw (Nat.le_refl _)
    rw [List.take_length] at hs3
    obtain ⟨v, ep, av, -, -, -, -⟩ := chunkPayload_ok (c := c) hvu (by rw [hp]; exact sourceHolds_congr hs3 au.held.src)
      (by rw [hpar]; exact hi) (by rw [hpar, hb]; exact hd)
    have av' : At s v (s.reg .pos + 8 + c.payload.length) := ⟨av.pos.trans (by rw [hp]), au.held.trans av.held⟩
    rw [ep, Res.andThen_ok]
    exact ((av'.cut hv (by omega) (by omega) (by omega)).andThen _).andThen _
  · refine CutAt.andThen ?_ _
    unfold chunkPayload
    by_cases ht : c.tag = tagIHDR
    · obtain ⟨h13, hok⟩ := hi ht
      rw [if_pos ht]
      by_cases h21 : m < 21
      · unfold ihdrPayload
        rw [if_neg (by omega)]
        exact ((au.cut hv (by omega) (by omega) (by omega)).andThen _).andThen _
      · obtain ⟨w, e, aw, -⟩ := ihdrPayload_head (bs := c.payload) hvu h13 h13 (by rw [hpar]; exact hok)
          (by rw [hp]; exact sourceHolds_congr (hpay 13 (by omega) h13) au.held.src)
        rw [e]
        have aw' : At s w (s.reg .pos + 8 + 13) := ⟨aw.pos.trans (by rw [hp]), au.held.trans aw.held⟩
        exact (aw'.cut hv (by omega) (by omega) (by omega)).andThen _
    · rw [if_neg ht]
      by_cases hd' : c.tag = tagIDAT
      · rw [if_pos hd']
        unfold idatPayload
        rw [if_neg (by rw [hb, hpar]; have := hd hd'; omega)]
        exact (au.cut hv (by omega) (by omega) (by omega)).andThen _
      · rw [if_neg hd']
        exact (au.cut hv (by omega) (by omega) (by omega)).andThen _

/-! ### The whole stream -/

/-- CBUF after the payloads of chunks. -/
def appendChunks : List PngChunk → Buffer → Buffer
  | [], b => b
  | c :: cs, b => appendChunks cs (appendChunk c b)

/-- The state after chunks, `p` the address after them. -/
structure AfterChunks (body : List PngChunk) (s t : State) (p : Nat) : Prop where
  at' : At s t p
  seen : t.chunk.ihdrSeen = if ∃ c ∈ body, c.tag = tagIHDR then 1 else s.chunk.ihdrSeen
  ihdr : t.ihdr = ihdrAfter s.ihdr body
  cbuf : t.cbuf = appendChunks body s.cbuf
  rest : ChunkRest s t

/-- The loop over chunks that do not stop it goes on after them with the turns that are left. -/
theorem chunkLoop_goesOn (n : Nat) : ∀ (body : List PngChunk) (s : State) (first : Bool),
    s.reg .srcValid = 1 → s.params.cbufCap < 2 ^ 64 → SourceHolds s (s.reg .pos) (streamBytes body) →
    (first = true → body = [] ∨ body.head?.map PngChunk.tag = some tagIHDR) → (∀ c ∈ body, c.tag ≠ tagIEND) →
    (∀ c ∈ body, c.payload.length < 2 ^ 32) →
    (∀ c ∈ body, c.tag = tagIHDR → 13 ≤ c.payload.length ∧ IhdrOk s.params (ihdrOf c.payload)) →
    s.cbuf.len.toNat + (idatBytes body).length ≤ s.params.cbufCap →
    ∃ t, chunkLoop (body.length + n) first s = chunkLoop n (first && body.isEmpty) t ∧
      AfterChunks body s t (s.reg .pos + (streamBytes body).length)
  | [], s, first, _, _, _, _, _, _, _, _ => by
    refine ⟨s, by rw [List.length_nil, Nat.zero_add, List.isEmpty_nil, Bool.and_true], ⟨rfl, Held.refl s⟩, ?_, rfl, rfl,
      ChunkRest.refl s⟩
    rw [if_neg (by simp)]
  | c :: cs, s, first, hv, hcap, hs, hf, hne, hl, hi, hd => by
    simp only [streamBytes] at hs ⊢
    obtain ⟨hs1, hs2⟩ := sourceHolds_append.mp hs
    have hf' : first = true → c.tag = tagIHDR := fun h => by simpa using hf h
    have hd1 : c.tag = tagIDAT → s.cbuf.len.toNat + c.payload.length ≤ s.params.cbufCap := fun h => by
      rw [idatBytes, if_pos h, List.length_append] at hd; omega
    obtain ⟨u, e, hu⟩ := chunkTurn_ok (first := first) hv (hl c (by simp)) hs1 hf' (hi c (by simp)) hd1
    have hcl : u.cbuf.len.toNat + (idatBytes cs).length ≤ s.params.cbufCap := by
      rw [hu.cbuf, appendChunk]
      rw [idatBytes] at hd
      split
      · rename_i h
        rw [if_pos h, List.length_append] at hd
        rw [Buffer.setLen_len, toNat_ofNat_of_lt (by omega)]
        omega
      · rename_i h
        rw [if_neg h] at hd
        exact hd
    have hp : u.reg .pos = s.reg .pos + c.bytes.length := hu.at'.pos
    have hup := hu.at'.held.params
    obtain ⟨t, e2, ht⟩ := chunkLoop_goesOn n cs u false
      (by rw [State.reg_srcValid, hu.at'.held.srcValid]; exact hv) (by rw [hup]; exact hcap)
      (by rw [hp]; exact sourceHolds_congr hs2 hu.at'.held.src) (fun h => by cases h)
      (fun x hx => hne x (List.mem_cons_of_mem _ hx)) (fun x hx => hl x (List.mem_cons_of_mem _ hx))
      (fun x hx => by rw [hup]; exact hi x (List.mem_cons_of_mem _ hx)) (by rw [hup]; exact hcl)
    refine ⟨t, ?_, ⟨⟨?_, hu.at'.held.trans ht.at'.held⟩, ?_, ?_, ?_, hu.rest.trans ht.rest⟩⟩
    · rw [List.length_cons, show cs.length + 1 + n = cs.length + n + 1 by omega, chunkLoop, e, Res.andThen_ok,
        if_neg (by rw [decide_eq_true_eq]; exact hne c (by simp)), e2, Bool.false_and, List.isEmpty_cons, Bool.and_false]
    · rw [ht.at'.pos, hp, List.length_append, Nat.add_assoc]
    · rw [ht.seen, hu.chunk]
      by_cases h1 : ∃ x ∈ cs, x.tag = tagIHDR
      · rw [if_pos h1, if_pos (by obtain ⟨x, hx, h⟩ := h1; exact ⟨x, List.mem_cons_of_mem _ hx, h⟩)]
      · rw [if_neg h1]
        by_cases h2 : c.tag = tagIHDR
        · exact (if_pos h2).trans (if_pos ⟨c, by simp, h2⟩).symm
        · refine (if_neg h2).trans (if_neg ?_).symm
          rintro ⟨x, hx, h⟩
          rcases List.mem_cons.mp hx with rfl | hx
          · exact h2 h
          · exact h1 ⟨x, hx, h⟩
    · rw [ht.ihdr, hu.ihdr, ihdrAfter]
      split <;> rfl
    · rw [ht.cbuf, hu.cbuf]; rfl

/-- The state after a stream, `p` the address after it. -/
structure AfterStream (body : List PngChunk) (iend : PngChunk) (s t : State) (p : Nat) : Prop where
  at' : At s t p
  chunk : t.chunk = { chLen := BitVec.ofNat 32 iend.payload.length, chTag := iend.tag, chCrc := iend.crc,
                      ihdrSeen := if ∃ c ∈ body, c.tag = tagIHDR then 1 else s.chunk.ihdrSeen }
  ihdr : t.ihdr = ihdrAfter s.ihdr body
  cbuf : t.cbuf = appendChunks body s.cbuf
  rest : ChunkRest s t

theorem streamBytes_append (xs ys : List PngChunk) : streamBytes (xs ++ ys) = streamBytes xs ++ streamBytes ys := by
  induction xs with
  | nil => rfl
  | cons x xs ih => simp only [List.cons_append, streamBytes, ih, List.append_assoc]

/-- CBUF after the stream holds the IDAT payloads in file order. -/
theorem appendChunks_spec : ∀ (body : List PngChunk) (b : Buffer), b.len.toNat + (idatBytes body).length < 2 ^ 64 →
    (appendChunks body b).len.toNat = b.len.toNat + (idatBytes body).length ∧
    (∀ (j : Nat) (h : j < (idatBytes body).length),
      (appendChunks body b).byte .cbuf (b.len.toNat + j) = (idatBytes body)[j]) ∧
    ∀ x, x < b.len.toNat → (appendChunks body b).byte .cbuf x = b.byte .cbuf x
  | [], b, _ => ⟨rfl, fun j h => absurd h (by simp [idatBytes]), fun _ _ => rfl⟩
  | c :: cs, b, h => by
    by_cases hd : c.tag = tagIDAT
    · have ei : idatBytes (c :: cs) = c.payload ++ idatBytes cs := by rw [idatBytes, if_pos hd]
      rw [ei, List.length_append] at h
      have ec : appendChunk c b = (b.writeBytes b.len.toNat c.payload).setLen (b.len.toNat + c.payload.length) := by
        rw [appendChunk, if_pos hd]
      have el : (appendChunk c b).len.toNat = b.len.toNat + c.payload.length := by
        rw [ec, Buffer.setLen_len, toNat_ofNat_of_lt (by omega)]
      obtain ⟨h1, h2, h3⟩ := appendChunks_spec cs (appendChunk c b) (by rw [el]; omega)
      rw [el] at h1 h2 h3
      simp only [ei, appendChunks]
      refine ⟨by rw [h1, List.length_append]; omega, fun j hj => ?_, fun x hx => ?_⟩
      · by_cases hjc : j < c.payload.length
        · rw [h3 _ (by omega), ec, Buffer.byte_setLen, Buffer.byte_writeBytes_in _ _ _ _ _ hjc,
            List.getElem_append_left hjc]
        · obtain ⟨k, rfl⟩ := Nat.exists_eq_add_of_le (Nat.not_lt.mp hjc)
          rw [List.length_append] at hj
          rw [← Nat.add_assoc, h2 k (by omega), List.getElem_append_right (by omega)]
          simp
      · rw [h3 x (by omega), ec, Buffer.byte_setLen, Buffer.byte_writeBytes_out _ _ _ _ _ (.inl hx)]
    · have ei : idatBytes (c :: cs) = idatBytes cs := by rw [idatBytes, if_neg hd]
      simp only [ei, appendChunks]
      rw [ei] at h
      rw [show appendChunk c b = b by rw [appendChunk, if_neg hd]]
      exact appendChunks_spec cs b h

/-! ### The frame -/

/-- However CHUNKS ends, it keeps the held fields and the rest. -/
abbrev KeepsRest {α : Type} (r : Res α) (s : State) : Prop := r.Post (ChunkRest s) (ChunkRest s)

theorem KeepsRest.andThen {α β : Type} {r : Res α} {f : α → State → Res β} {s : State} (h : KeepsRest r s)
    (hf : ∀ v t, KeepsRest (f v t) t) : KeepsRest (r.andThen f) s :=
  Res.Post.andThen h fun v t ht => (hf v t).mono (fun _ => ht.trans) (fun _ => ht.trans)

theorem keepsRest_curRead (n : Nat) (s : State) : KeepsRest (curRead n s) s :=
  curRead_post (fun _ => ⟨rfl, rfl, rfl, rfl, rfl, rfl, rfl, rfl⟩) (ChunkRest.refl s)

theorem keepsRest_curSkip (n : Nat) (s : State) : KeepsRest (curSkip n s) s :=
  (keepsRest_curRead n s).andThen fun _ t => ChunkRest.refl t

theorem keepsRest_chunkPayload (tag : Word) (len : Nat) (s : State) : KeepsRest (chunkPayload tag len s) s := by
  unfold chunkPayload
  split
  · unfold ihdrPayload
    split
    · exact ChunkRest.refl s
    · exact KeepsRest.andThen ((keepsRest_curRead 13 s).andThen fun _ _ => ⟨rfl, rfl, rfl, rfl, rfl, rfl, rfl, rfl⟩) fun _ t =>
        KeepsRest.andThen (ihdrGate_post (ChunkRest.refl t) (ChunkRest.refl t)) fun _ u => keepsRest_curSkip _ u
  split
  · unfold idatPayload
    split
    · exact ChunkRest.refl s
    · exact (keepsRest_curRead _ s).andThen fun _ _ => ⟨rfl, rfl, rfl, rfl, rfl, rfl, rfl, rfl⟩
  · exact keepsRest_curSkip _ s

theorem keepsRest_chunkTurn (first : Bool) (s : State) : KeepsRest (chunkTurn first s) s :=
  KeepsRest.andThen ((keepsRest_curRead 8 s).andThen fun _ _ => ⟨rfl, rfl, rfl, rfl, rfl, rfl, rfl, rfl⟩) fun _ t => by
    simp only
    split
    · exact ChunkRest.refl t
    · exact (keepsRest_chunkPayload _ _ t).andThen fun _ u =>
        KeepsRest.andThen ((keepsRest_curRead 4 u).andThen fun _ _ => ⟨rfl, rfl, rfl, rfl, rfl, rfl, rfl, rfl⟩) fun _ v =>
          ChunkRest.refl v

theorem keepsRest_chunkLoop : ∀ (n : Nat) (first : Bool) (s : State), KeepsRest (chunkLoop n first s) s
  | 0, _, s => ChunkRest.refl s
  | n + 1, first, s => (keepsRest_chunkTurn first s).andThen fun stop t => by
      split
      · exact ChunkRest.refl t
      · exact keepsRest_chunkLoop n false t

theorem keepsRest_readChunks (s : State) : KeepsRest (readChunks s) s :=
  (keepsRest_chunkLoop _ _ (startChunks s)).mono
    (fun _ h => ChunkRest.trans (t := startChunks s) ⟨rfl, rfl, rfl, rfl, rfl, rfl, rfl, rfl⟩ h)
    (fun _ h => ChunkRest.trans (t := startChunks s) ⟨rfl, rfl, rfl, rfl, rfl, rfl, rfl, rfl⟩ h)

/-- The frame of CHUNKS in the statements' terms. -/
theorem sameExcept_chunks {s t : State} (h : Held s t) (r : ChunkRest s t) : SameExcept chunkRegs [.cbuf] s t := by
  refine ⟨fun q hq => ?_, fun sp hsp a => ?_, h.params, h.inputs⟩
  · cases q <;> first
      | (simp [chunkRegs] at hq; done)
      | simp only [State.reg_srcLen, State.reg_srcValid, State.reg_cfgFlip, State.reg_outW, State.reg_outH, h.src,
          h.srcValid, h.cfgFlip, h.out]
      | simp only [State.reg_val, r.val]
      | simp only [State.reg_zlen, State.reg_pixLen, r.zbuf, r.pix]
      | simp only [State.reg_bfType, State.reg_bfSize, State.reg_bfRes1, State.reg_bfRes2, State.reg_bfOffbits,
          State.reg_declOff, r.bmpFile]
      | simp only [State.reg_biSize, State.reg_biWidth, State.reg_biHeight, State.reg_biPlanes, State.reg_biBitcount,
          State.reg_biCompression, State.reg_biSizeimage, State.reg_biXppm, State.reg_biYppm, State.reg_biClrused,
          State.reg_biClrimportant, r.bmpInfo]
      | simp only [State.reg_bcRmask, State.reg_bcGmask, State.reg_bcBmask, State.reg_bcAmask, State.reg_bcCstype,
          r.bmpColour]
      | simp only [State.reg_dfW, State.reg_dfH, State.reg_dfY, State.reg_dfFt, r.defilter]
      | simp only [State.reg_stState, State.reg_stDone, State.reg_stErr, State.reg_stErrinfo, State.reg_stWarnTopdown,
          r.status]
  · cases sp <;> first | (simp at hsp; done) | skip
    · show t.src.byte _ _ = _; rw [h.src]; rfl
    · show t.zbuf.byte _ _ = _; rw [r.zbuf]; rfl
    · show t.pix.byte _ _ = _; rw [r.pix]; rfl

/-- CHUNKS fails as its loop does, with the frame. -/
theorem chunksFails_of {s u : State} {k : ErrKind} {info : Nat} {how : State → Prop} (hi : Idle s)
    (e : readChunks s = .raised k info u) (h : how u) : ChunksFails s k info how := by
  have h1 := keeps_readChunks s
  have h2 := keepsRest_readChunks s
  rw [e] at h1 h2
  exact ⟨u, command_raised hi e, sameExcept_chunks h1 h2, h⟩

/-! ### CHUNKS -/

/-- CHUNKS over chunks that do not stop it is the loop after them, with any number of turns from a bound on. -/
theorem readChunks_goesOn {s : State} {body : List PngChunk} (hp : s.params.wf) (hv : s.reg .srcValid = 1)
    (hg : GoodPrefix s.params body) (hs : SourceHolds s (s.reg .pos) (streamBytes body)) :
    ∃ t, AfterChunks body (startChunks s) t (s.reg .pos + (streamBytes body).length) ∧
      ∀ n, chunkTurns (startChunks s) ≤ n → readChunks s = chunkLoop n body.isEmpty t := by
  obtain ⟨h1, h2, h3, h4, h5⟩ := hg
  have go := fun n => chunkLoop_goesOn n body (startChunks s) true hv hp.2.2.1 hs (fun _ => h1) h2 h3 h4
    (by show 0 + _ ≤ _; rw [Nat.zero_add]; exact h5)
  obtain ⟨t, e, ht⟩ := go (chunkTurns (startChunks s))
  refine ⟨t, ht, fun n hn => ?_⟩
  rw [Bool.true_and] at e
  have ha : avail t / 12 < chunkTurns (startChunks s) := by
    have h1 : t.cursor.pos.toNat = s.cursor.pos.toNat + (streamBytes body).length := ht.at'.pos
    have h2 : t.src = s.src := ht.at'.held.src
    have h3 : avail t ≤ s.src.len.toNat - s.cursor.pos.toNat := by
      unfold avail
      rw [State.reg_srcLen, State.reg_pos, h1, h2]
      omega
    exact Nat.lt_succ_of_le (Nat.div_le_div_right h3)
  unfold readChunks
  rw [← chunkLoop_fuel (body.length + chunkTurns (startChunks s)) true (startChunks s) (by omega), e]
  exact chunkLoop_enough _ _ _ t ha (Nat.lt_of_lt_of_le ha hn)

/-- After chunks that do not stop it, CHUNKS fails as its next turn does. -/
theorem readChunks_raised {s : State} {body : List PngChunk} (hp : s.params.wf) (hv : s.reg .srcValid = 1)
    (hg : GoodPrefix s.params body) (hs : SourceHolds s (s.reg .pos) (streamBytes body)) :
    ∃ t, AfterChunks body (startChunks s) t (s.reg .pos + (streamBytes body).length) ∧
      ∀ k info u, chunkTurn body.isEmpty t = .raised k info u → readChunks s = .raised k info u := by
  obtain ⟨t, ht, e⟩ := readChunks_goesOn hp hv hg hs
  refine ⟨t, ht, fun k info u h => ?_⟩
  rw [e (chunkTurns (startChunks s) + 1) (Nat.le_succ _), chunkLoop, h, Res.andThen_raised]

/-- CHUNKS over a stream that the source holds. -/
theorem readChunks_ok {s : State} {body : List PngChunk} {iend : PngChunk} (hp : s.params.wf) (hv : s.reg .srcValid = 1)
    (hg : GoodStream s.params body iend) (hs : SourceHolds s (s.reg .pos) (streamBytes (body ++ [iend]))) :
    ∃ t, readChunks s = .ok () t ∧
      AfterStream body iend (startChunks s) t (s.reg .pos + (streamBytes (body ++ [iend])).length) := by
  obtain ⟨hb, hg, he, hl⟩ := hg
  rw [streamBytes_append] at hs ⊢
  obtain ⟨hs1, hs2⟩ := sourceHolds_append.mp hs
  obtain ⟨t, ht, e⟩ := readChunks_goesOn hp hv hg hs1
  have hpos : t.reg .pos = s.reg .pos + (streamBytes body).length := ht.at'.pos
  simp only [streamBytes, List.append_nil] at hs2 ⊢
  have n1 : ¬ iend.tag = tagIHDR := by rw [he]; decide
  have n2 : ¬ iend.tag = tagIDAT := by rw [he]; decide
  obtain ⟨u, e2, hu⟩ := chunkTurn_ok (s := t) (c := iend) (first := body.isEmpty)
    (by rw [State.reg_srcValid, ht.at'.held.srcValid]; exact hv) hl
    (by rw [hpos]; exact sourceHolds_congr (s := s) hs2 ht.at'.held.src)
    (fun h => absurd (List.isEmpty_iff.mp h) hb) (fun h => absurd h n1) (fun h => absurd h n2)
  refine ⟨u, ?_, ⟨⟨?_, ht.at'.held.trans hu.at'.held⟩, ?_, ?_, ?_, ht.rest.trans hu.rest⟩⟩
  · rw [e (chunkTurns (startChunks s) + 1) (Nat.le_succ _), chunkLoop, e2, Res.andThen_ok, he]; rfl
  · rw [hu.at'.pos, hpos, List.length_append, Nat.add_assoc]
  · rw [hu.chunk, if_neg n1, ht.seen]
  · rw [hu.ihdr, if_neg n1, ht.ihdr]
  · rw [hu.cbuf, appendChunk, if_neg n2, ht.cbuf]

end Sys2Proof.Machine
end

