-- ==== Sys2Proof/Tests/Slice0.lean ====
section
/-! SUPPORT. The model's own tests: ill-formed terms the check refuses, words written out from the spec's encodings, one
step per test on the vectors of spec/95_test_vectors.md, and for every statement with hypotheses a state that meets them. -/

namespace Sys2Proof.Tests

/- One test after another: many kernel evaluations at once ask for more threads than the memory limit has room for. -/
set_option Elab.async false

open Sys2Proof.Machine Sys2Proof.Safety

/-! ### Small states -/

/-- The state of an outcome. -/
def after : Host.Outcome State Fault Refusal → State
  | .next s => s
  | .fault _ => State.reset
  | .refused _ => State.reset

/-- A readable source, the cursor at a position. -/
def withSource (bs : List Byte) (pos : Nat) : State :=
  { State.reset with src := State.reset.src.holding bs, cursor := { pos := BitVec.ofNat 64 pos, srcValid := 1, val := 0 } }

/-- A scanline stream in ZBUF. -/
def withStream (w h : Word) (z : List Byte) : State :=
  { State.reset with
    zbuf := State.reset.zbuf.holding z, defilter := { dfW := w, dfH := h, dfY := 0, dfFt := 0 } }

/-- Pixel bytes in PIX. -/
def withPixels (bits : Half) (bs : List Byte) : State :=
  { State.reset with
    pix := State.reset.pix.holding bs, bmpInfo := { State.reset.bmpInfo with biBitcount := bits } }

/-- BMP dimensions, depth and a source. -/
def withBitmap (w h : Word) (bits : Half) (bs : List Byte) : State :=
  { withSource bs 0 with
    bmpInfo := { State.reset.bmpInfo with biWidth := w, biHeight := h, biBitcount := bits } }

/-- An action of the host waiting. -/
def withAction (a : HostInput) (s : State) : State := s.setInputs [a]

/-- The listed bytes of a buffer, lowest address first. -/
def listed (b : Buffer) : List Byte := b.mem.cells.map Prod.snd

/-- The source of V-BC and program P4. -/
def pngPrefix : List Byte :=
  [0x89, 0x50, 0x4E, 0x47, 0x0D, 0x0A, 0x1A, 0x0A, 0x00, 0x00, 0x00, 0x0D, 0x49, 0x48, 0x44, 0x52]

/-- The stream of program P1. -/
def streamP1 : List Byte :=
  [0x01, 0x0A, 0x14, 0x1E, 0x28, 0xFA, 0x0A, 0xE2, 0x01] ++ [0x02, 0x05, 0x06, 0x07, 0x08, 0x0A, 0xFA, 0x01, 0xFF] ++
  [0x03, 0x01, 0x02, 0x03, 0x04, 0x64, 0x64, 0x64, 0x64] ++ [0x04, 0x09, 0x08, 0x07, 0x06, 0x03, 0xC8, 0x80, 0xFF] ++
  [0x00, 0x01, 0x02, 0x03, 0x04, 0x05, 0x06, 0x07, 0x08]

/-- The stream of program P1 after DFRUN. -/
def streamP1Done : List Byte :=
  [0x01, 0x0A, 0x14, 0x1E, 0x28, 0x04, 0x1E, 0x00, 0x29] ++ [0x02, 0x0F, 0x1A, 0x25, 0x30, 0x0E, 0x18, 0x01, 0x28] ++
  [0x03, 0x08, 0x0F, 0x15, 0x1C, 0x6F, 0x77, 0x6F, 0x86] ++ [0x04, 0x11, 0x17, 0x1C, 0x22, 0x72, 0x3F, 0xEF, 0x85] ++
  [0x00, 0x01, 0x02, 0x03, 0x04, 0x05, 0x06, 0x07, 0x08]

/-- The filter types of program P1. -/
def filtersP1 (y : Nat) : FilterType :=
  match y with
  | 0 => .sub
  | 1 => .up
  | 2 => .average
  | 3 => .paeth
  | _ => .none

/-- The source of program P2. -/
def sourceP2 : List Byte :=
  [0x42, 0x4D, 0x00, 0x00, 0x00, 0x00, 0x00, 0x00, 0x00, 0x00, 0x3A, 0x00, 0x00, 0x00] ++
  [0x28, 0x00, 0x00, 0x00, 0x02, 0x00, 0x00, 0x00, 0x02, 0x00, 0x00, 0x00, 0x01, 0x00, 0x18, 0x00] ++
  [0x00, 0x00, 0x00, 0x00, 0x00, 0x00, 0x00, 0x00, 0x13, 0x0B, 0x00, 0x00, 0x13, 0x0B, 0x00, 0x00] ++
  [0x00, 0x00, 0x00, 0x00, 0x00, 0x00, 0x00, 0x00] ++ [0xDE, 0xAD, 0xBE, 0xEF] ++
  [0x01, 0x02, 0x03, 0x04, 0x05, 0x06, 0xAA, 0xBB] ++ [0x11, 0x12, 0x13, 0x14, 0x15, 0x16, 0xCC, 0xDD]

/-- The chunks of program P3 before IEND. -/
def chunksP3 : List PngChunk :=
  [{ tag := 0x49484452, payload := [0, 0, 0, 2, 0, 0, 0, 2, 8, 6, 0, 0, 0], crc := 0x72B60D24 },
   { tag := 0x74455874, payload := [0x6B, 0x00, 0x76], crc := 0xCB04F390 },
   { tag := 0x49444154, payload := [0x78, 0xDA, 0x63, 0xE4, 0x12, 0x91, 0xFB], crc := 0xFF6C4602 },
   { tag := 0x49444154,
     payload := [0xCF, 0xCA, 0xCA, 0xCA, 0xC0, 0xC2, 0xC8, 0xC4, 0xCC, 0xF0, 0xEB, 0xD7, 0x2F, 0x46, 0x00, 0x1B, 0x8D,
       0x04, 0x45],
     crc := 0xE46ADD8D }]

/-- The IEND chunk of program P3. -/
def iendP3 : PngChunk := { tag := 0x49454E44, payload := [], crc := 0xAE426082 }

/-- The source of program P3, byte for byte as the spec lists it. -/
def sourceP3 : List Byte :=
  [0x89, 0x50, 0x4E, 0x47, 0x0D, 0x0A, 0x1A, 0x0A, 0x00, 0x00, 0x00, 0x0D, 0x49, 0x48, 0x44, 0x52] ++
  [0x00, 0x00, 0x00, 0x02, 0x00, 0x00, 0x00, 0x02, 0x08, 0x06, 0x00, 0x00, 0x00, 0x72, 0xB6, 0x0D] ++
  [0x24, 0x00, 0x00, 0x00, 0x03, 0x74, 0x45, 0x58, 0x74, 0x6B, 0x00, 0x76, 0xCB, 0x04, 0xF3, 0x90] ++
  [0x00, 0x00, 0x00, 0x07, 0x49, 0x44, 0x41, 0x54, 0x78, 0xDA, 0x63, 0xE4, 0x12, 0x91, 0xFB, 0xFF] ++
  [0x6C, 0x46, 0x02, 0x00, 0x00, 0x00, 0x13, 0x49, 0x44, 0x41, 0x54, 0xCF, 0xCA, 0xCA, 0xCA, 0xC0] ++
  [0xC2, 0xC8, 0xC4, 0xCC, 0xF0, 0xEB, 0xD7, 0x2F, 0x46, 0x00, 0x1B, 0x8D, 0x04, 0x45, 0xE4, 0x6A] ++
  [0xDD, 0x8D, 0x00, 0x00, 0x00, 0x00, 0x49, 0x45, 0x4E, 0x44, 0xAE, 0x42, 0x60, 0x82]

/-- The inflated stream of program P3. -/
def streamP3 : List Byte :=
  [0x01, 0x0A, 0x14, 0x1E, 0xFF, 0x05, 0x05, 0x05, 0x00] ++ [0x04, 0x01, 0x02, 0x03, 0x00, 0xFA, 0xFA, 0xFA, 0x01]

/-- The filter types of program P3. -/
def filtersP3 (y : Nat) : FilterType := if y = 0 then .sub else .paeth

/-- Program P3 with its oracle, the flip flag given. -/
def stateP3 (flip : Bit) : State :=
  { withSource sourceP3 0 with
    cfgFlip := flip
    params := { Config.defaultParams with inflateTable := [(idatBytes chunksP3, some streamP3)] } }

/-- Small capacities, for the failures at a capacity. -/
def small (pixCap zbufCap : Nat) (table : List (List Byte × Option (List Byte))) (s : State) : State :=
  { s with params := { Config.defaultParams with pixCap := pixCap, zbufCap := zbufCap, inflateTable := table } }

/-- CBUF filled with bytes. -/
def withCompressed (z : List Byte) : State := { State.reset with cbuf := State.reset.cbuf.holding z }

/-- The CLEN bytes of CBUF. -/
def compressedOf (s : State) : List Byte := s.cbuf.bytes .cbuf 0 (s.reg .clen)

/-- A faulted state. -/
def faultedState : State := { takeFailure .truncatedStream 66 State.reset with cfgFlip := 1 }

/-! ### WellFormed -/

theorem test_wf_refuses_wide_skip : Instr.wf (.skip (2 ^ 32)) = false := by decide
theorem test_wf_refuses_wide_seek : Instr.wf (.seek (2 ^ 32)) = false := by decide
theorem test_wf_refuses_wide_dfrow : Instr.wf (.dfrow (2 ^ 32)) = false := by decide
theorem test_wf_accepts_largest : Instr.wf (.skip (2 ^ 32 - 1)) = true := by decide

/-! ### Decoding: words written out from R91 to R94, and the rejections of R96 and R97 -/

theorem test_decode_filters :
    ([0b00000000, 0b00000001, 0b00000010, 0b00000011, 0b00000100].map (decodeTableWord 8)) =
      [some .fNone, some .fSub, some .fUp, some .fAvg, some .fPaeth] := by decide

theorem test_decode_reserved_filter : decodeBytes .f [5, 1, 2] = .error (.reservedFilter 5) := by rfl

theorem test_decode_system :
    decodeTableWord 40 0x0000000000 = some .nop ∧ decodeTableWord 40 0xFFFFFFFE01 = some (.setflip 0) ∧
      decodeTableWord 40 0x0000000101 = some (.setflip 1) ∧ decodeTableWord 40 0x0000000002 = some .clr := by decide

theorem test_decode_cursor :
    ([0x10, 0x11, 0x12, 0x13, 0x0000000814, 0xFFFFFFFF15].map (decodeTableWord 40)) =
      [some .rd8, some .rd16le, some .rd32le, some .rd32be, some (.skip 8), some (.seek 0xFFFFFFFF)] := by decide

theorem test_decode_headers :
    ([0x20, 0x21, 0x22, 0x23, 0x24].map (decodeTableWord 40)) =
      [some .pbmpf, some .pbmpi, some .pbmpc, some .pihdr, some .pchunk] := by decide

theorem test_decode_units :
    ([0x30, 0x31, 0x3F, 0x0000000440, 0x41].map (decodeTableWord 40)) =
      [some .bxrows, some .bxswap, some .decbmp, some (.dfrow 4), some .dfrun] := by decide

theorem test_decode_png :
    ([0x50, 0x51, 0x52, 0x5F].map (decodeTableWord 40)) =
      [some .chunks, some .inflate, some .pxrun, some .decpng] := by decide

/-- V-SYS-8. -/
theorem test_decode_illegal :
    ([0x03, 0x16, 0x25, 0x32, 0x42, 0x53, 0xFF].map (decodeTableWord 40)) =
      [none, none, none, none, none, none, none] := by decide

theorem test_decode_too_short : decodeBytes .k [0x15, 0x3A, 0, 0] = .error .tooShort := by rfl

theorem test_encode_seek : encode (.seek 58) = [0x15, 0x3A, 0, 0, 0] := by decide

/-! ### The cursor (V-BC) -/

theorem test_rd8 : (after (execRd8 (withSource pngPrefix 0))).cursor = { pos := 1, srcValid := 1, val := 0x89 } := by
  decide +kernel

theorem test_rd16le : (after (execRd16le (withSource pngPrefix 1))).cursor.val = 0x4E50 := by decide +kernel

theorem test_rd32le : (after (execRd32le (withSource pngPrefix 3))).cursor.val = 0x1A0A0D47 := by decide +kernel

theorem test_rd32be : (after (execRd32be (withSource pngPrefix 12))).cursor = { pos := 16, srcValid := 1, val := 0x49484452 } := by
  decide +kernel

theorem test_rd32be_short :
    let t := after (execRd32be (withSource pngPrefix 13))
    t.status = { stState := 1, stDone := 0, stErr := 4, stErrinfo := 13, stWarnTopdown := 0 } ∧ t.cursor.pos = 13 := by
  decide +kernel

theorem test_rd8_invalid :
    (after (execRd8 ({ withSource pngPrefix 16 with cursor := { pos := 16, srcValid := 0, val := 0 } }))).status.stErr = 1 := by
  decide +kernel

theorem test_skip : (after (execSkip 12 (withSource pngPrefix 4))).cursor.pos = 16 := by decide +kernel

theorem test_skip_zero_beyond : (after (execSkip 0 (withSource pngPrefix 40))) = withSource pngPrefix 40 := by decide +kernel

theorem test_seek : (after (execSeek 0xFFFFFFFF (withSource pngPrefix 7))).cursor.pos = 4294967295 := by decide +kernel

/-! ### Headers and gates (V-HP, V-GATE) -/

theorem test_pbmpf :
    (after (execPbmpf (withSource [0x42, 0x4D, 0x4A, 0, 0, 0, 0, 0, 0, 0, 0x3A, 0, 0, 0] 0))).bmpFile =
      { bfType := 0x4D42, bfSize := 74, bfRes1 := 0, bfRes2 := 0, bfOffbits := 58, declOff := 58 } := by decide +kernel

theorem test_pbmpf_magic :
    let t := after (execPbmpf (withSource [0x42, 0x4E, 0, 0, 0, 0, 0, 0, 0, 0, 0x3A, 0, 0, 0] 0))
    t.status.stErr = 2 ∧ t.status.stErrinfo = 20034 ∧ t.bmpFile.declOff = 58 ∧ t.cursor.pos = 14 := by decide +kernel

theorem test_pbmpi :
    let t := after (execPbmpi (withSource ([0x28, 0, 0, 0, 2, 0, 0, 0, 0xFE, 0xFF, 0xFF, 0xFF, 1, 0, 0x20, 0, 3, 0, 0, 0] ++
      List.replicate 20 0) 0))
    t.bmpInfo.biSize = 40 ∧ t.bmpInfo.biHeight.toInt = -2 ∧ t.bmpInfo.biBitcount = 32 ∧ t.bmpInfo.biCompression = 3 := by
  decide +kernel

theorem test_pbmpc :
    let t := after (execPbmpc (withSource ([0, 0, 0xFF, 0, 0, 0xFF, 0, 0, 0xFF, 0, 0, 0, 0, 0, 0, 0xFF, 0x42, 0x47, 0x52,
      0x73] ++ List.replicate 64 0) 0))
    t.bmpColour = { bcRmask := 0xFF0000, bcGmask := 0xFF00, bcBmask := 0xFF, bcAmask := 0xFF000000, bcCstype := 0x73524742 } ∧
      t.cursor.pos = 84 := by decide +kernel

theorem test_pchunk :
    (after (execPchunk (withSource [0xFF, 0xFF, 0xFF, 0xFF, 0x49, 0x44, 0x41, 0x54] 0))).chunk =
      { chLen := 4294967295, chTag := 0x49444154, chCrc := 0, ihdrSeen := 0 } := by decide +kernel

theorem test_pihdr :
    let t := after (execPihdr (withSource [0x80, 0, 0, 0, 0, 0, 1, 0, 0x10, 2, 0, 0, 1] 0))
    t.ihdr =
      { ihWidth := 2147483648, ihHeight := 256, ihDepth := 16, ihCtype := 2, ihComp := 0, ihFilter := 0, ihInterlace := 1 } ∧ t.chunk.ihdrSeen = 1 := by decide +kernel

/-- V-GATE-8, V-GATE-15: the capacities, the second recorded modulo 2^64. -/
theorem test_gates_capacity :
    let t := (bmpGate (withBitmap 65536 16384 32 [])).finish
    let u := (ihdrGate (State.reset.setIhdr
      { State.reset.ihdr with ihWidth := 0xFFFFFFFF, ihHeight := 0xFFFFFFFF, ihDepth := 8, ihCtype := 6 })).finish
    t.status.stErrinfo = 4294967296 ∧ u.status.stErrinfo = 0xFFFFFFF800000004 := by decide +kernel

/-! ### BMP (V-BX, programs P2 and P5) -/

theorem test_bxswap : listed (after (execBxswap (withPixels 24 [1, 2, 3, 4, 5, 6]))).pix = [3, 2, 1, 6, 5, 4] := by decide +kernel

theorem test_bxswap_32 :
    listed (after (execBxswap (withPixels 32 [0x10, 0x20, 0x30, 0x40, 0x50, 0x60, 0x70, 0x80]))).pix =
      [0x30, 0x20, 0x10, 0x40, 0x70, 0x60, 0x50, 0x80] := by decide +kernel

theorem test_bxrows :
    let t := after (execBxrows (withBitmap 1 3 24 [0x0A, 0x0B, 0x0C, 0xEE, 0x1A, 0x1B, 0x1C, 0xEE, 0x2A, 0x2B, 0x2C, 0xEE]))
    listed t.pix = [0x0A, 0x0B, 0x0C, 0x1A, 0x1B, 0x1C, 0x2A, 0x2B, 0x2C] ∧ t.pix.len = 9 ∧ t.cursor.pos = 12 := by
  decide +kernel

theorem test_bxrows_last_padding :
    let t := after (execBxrows (withBitmap 1 3 24 [0x0A, 0x0B, 0x0C, 0xEE, 0x1A, 0x1B, 0x1C, 0xEE, 0x2A, 0x2B, 0x2C]))
    t.status.stErrinfo = 11 ∧ t.status.stErr = 4 ∧ t.pix.len = 0 := by decide +kernel

theorem test_decbmp :
    let t := after (execDecbmp (withSource sourceP2 0))
    listed t.pix = [3, 2, 1, 6, 5, 4, 0x13, 0x12, 0x11, 0x16, 0x15, 0x14] ∧ t.status.stDone = 1 ∧
      t.out = { outW := 2, outH := 2 } ∧ t.bmpFile.bfOffbits = 54 ∧ t.cursor.pos = 74 := by decide +kernel

theorem test_decbmp_truncated :
    let t := after (execDecbmp (withSource (sourceP2.take 73) 0))
    t.status = { stState := 1, stDone := 0, stErr := 4, stErrinfo := 72, stWarnTopdown := 0 } ∧ t.pix.len = 0 ∧
      t.cursor.pos = 72 := by decide +kernel

/-! ### Defilter (V-PAETH, V-DF, program P1) -/

theorem test_paeth :
    paeth 50 50 0 = 50 ∧ paeth 80 110 100 = 80 ∧ paeth 110 80 100 = 80 ∧ paeth 3 9 200 = 3 ∧ paeth 10 12 11 = 11 := by
  decide

theorem test_avg_exact_sum : avg 0x11 0xF0 = 0x80 ∧ avg 0xFF 0xFF = 0xFF := by decide

theorem test_fnone : listed (after (execFNone (withStream 2 5 streamP1))).zbuf = streamP1 := by decide +kernel

theorem test_fsub :
    listed (after (execFSub (withStream 2 1 (streamP1.take 9)))).zbuf = streamP1Done.take 9 := by decide +kernel

theorem test_fup :
    listed (after (execFUp { withStream 2 2 (streamP1Done.take 9 ++ (streamP1.drop 9).take 9) with
      defilter := { dfW := 2, dfH := 2, dfY := 1, dfFt := 2 } })).zbuf = streamP1Done.take 18 := by decide +kernel

theorem test_favg :
    listed (after (execFAvg { withStream 2 3 (streamP1Done.take 18 ++ (streamP1.drop 18).take 9) with
      defilter := { dfW := 2, dfH := 3, dfY := 2, dfFt := 3 } })).zbuf = streamP1Done.take 27 := by decide +kernel

theorem test_fpaeth :
    listed (after (execFPaeth { withStream 2 4 (streamP1Done.take 27 ++ (streamP1.drop 27).take 9) with
      defilter := { dfW := 2, dfH := 4, dfY := 3, dfFt := 4 } })).zbuf = streamP1Done.take 36 := by decide +kernel

theorem test_dfrow_outside :
    (after (execDfrow 5 (withStream 2 5 streamP1))).status.stErrinfo = 5 := by decide +kernel

theorem test_dfrun :
    let t := after (execDfrun (withStream 2 5 streamP1))
    listed t.zbuf = streamP1Done ∧ t.defilter = { dfW := 2, dfH := 5, dfY := 4, dfFt := 0 } := by decide +kernel

/-! ### PNG (programs P3 and P6) -/

theorem test_source_p3 : sourceP3 = Config.defaultParams.pngSig ++ streamBytes (chunksP3 ++ [iendP3]) := by decide +kernel

theorem test_chunks :
    let t := after (execChunks { stateP3 0 with cursor := { pos := 8, srcValid := 1, val := 0 } })
    listed t.cbuf = idatBytes chunksP3 ∧ t.chunk = { chLen := 0, chTag := 0x49454E44, chCrc := 0xAE426082, ihdrSeen := 1 } ∧
      t.cursor.pos = 110 := by decide +kernel

theorem test_inflate :
    listed (after (execInflate { withCompressed (idatBytes chunksP3) with params := (stateP3 0).params })).zbuf = streamP3 := by
  decide +kernel

theorem test_pxrun_flipped :
    listed (after (execPxrun { withStream 1 2 [0, 1, 2, 3, 4, 0, 5, 6, 7, 8] with cfgFlip := 1 })).pix =
      [5, 6, 7, 8, 1, 2, 3, 4] := by decide +kernel

theorem test_decpng :
    let t := after (execDecpng (stateP3 0))
    listed t.pix = [0x0A, 0x14, 0x1E, 0xFF, 0x0F, 0x19, 0x23, 0xFF, 0x0B, 0x16, 0x21, 0xFF, 0x09, 0x13, 0x1D, 0x00] ∧
      t.status.stDone = 1 ∧ t.out = { outW := 2, outH := 2 } := by decide +kernel

theorem test_decpng_depth :
    let t := after (execDecpng { stateP3 1 with src := State.reset.src.holding (sourceP3.set 24 0x10) })
    t.status = { stState := 1, stDone := 0, stErr := 3, stErrinfo := 16, stWarnTopdown := 0 } ∧ t.cursor.pos = 29 ∧
      t.cfgFlip = 1 := by decide +kernel

/-! ### System (V-SYS) -/

theorem test_setflip : (after (execSetflip 1 State.reset)).cfgFlip = 1 ∧ after (execSetflip 0 faultedState) = faultedState := by
  decide +kernel

theorem test_clr :
    (after (execClr faultedState)).status = State.reset.status ∧ (after (execClr faultedState)).cfgFlip = 1 := by
  decide +kernel

theorem test_nop : after (execNop State.reset) = State.reset := by decide +kernel

/-- V-SYS-8: an illegal command word is refused by name. -/
theorem test_step_illegal : step (withAction (.command 0x03) State.reset) = .refused (.illegalCommand 0x03) := by rfl

/-- A filter instruction runs from reset. -/
theorem test_filter_word_runs :
    (after (step (State.reset.withFetchWord 8 0x04))).defilter = { dfW := 0, dfH := 1, dfY := 0, dfFt := 4 } := by
  decide +kernel

/-! ### Witnesses: states that meet the hypotheses of the statements, every clause of each at a boundary -/

/-- The largest operand is well formed. -/
theorem witness_DecodeOfEncodeIsIdentity :
    (Instr.skip (2 ^ 32 - 1)).wf = true ∧ (Instr.setflip 1).wf = true ∧ Instr.fPaeth.wf = true := by decide

theorem witness_CommandMapIsExactlyTheTable : (opField 0xFFFFFFFF5F).toNat = 0x5F ∧ (opField 0x60).toNat = 0x60 := by
  decide

theorem witness_UnusedOperandBitsIgnored :
    (0x5F : Byte).toNat ∉ [0x01, 0x14, 0x15, 0x40] ∧
      (0xFFFFFFFE : Word).extractLsb' 0 1 = (0 : Word).extractLsb' 0 1 := by decide

theorem witness_StepRunsTheDecodedCommand :
    (withAction (.command 0x13) State.reset).inputs = [.command 0x13] ∧ decodeCommand 0x13 = .ok .rd32be ∧
      decodeCommand 0x03 = .error (.illegalOp 3) ∧ State.reset.inputs = [] := ⟨rfl, rfl, rfl, rfl⟩

/-- The last row of program P1, which ends exactly at ZLEN. -/
theorem witness_DfrowRunsTheFetchedRecord :
    let s := withStream 2 5 streamP1
    s.reg .stState = 0 ∧ 4 < s.reg .dfH ∧ (4 + 1) * recordLen (s.reg .dfW) = s.reg .zlen ∧
      filterOf (s.byte .zbuf (rowStart (s.reg .dfW) 4)) = some .none := by decide +kernel

theorem witness_FaultedTurnsAwayAllButClr : faultedState.reg .stState = 1 ∧ Instr.decpng.format = .k := by decide

theorem witness_FaultedLeftOnlyByClrOrReset :
    let s := withAction (.command 0x10) faultedState
    s.reg .stState = 1 ∧ s.inputs = [.command 0x10] ∧ step s = .next (s.setInputs []) ∧ decodeCommand 0x10 = .ok .rd8 :=
  ⟨rfl, rfl, rfl, rfl⟩

theorem witness_EveryFailureLeavesNoResult :
    State.reset.reg .stState = 0 ∧ exec .rd8 State.reset = .next (takeFailure .unreadableSource 0 State.reset) ∧
      (takeFailure .unreadableSource 0 State.reset).reg .stState = 1 := ⟨rfl, rfl, rfl⟩

theorem witness_WholeDecodeHasTwoOutcomes : (stateP3 0).reg .stState = 0 ∧ (stateP3 0).params.wf := by decide +kernel

theorem witness_ResetEventResetsEverything : (withAction .reset faultedState).inputs = [.reset] := rfl

/-- A faulted state with a full pixel capacity of 0 meets the invariant, and CLR is a step from it. -/
theorem witness_StepKeepsTheInvariant : ∃ s t, Inv s ∧ step s = .next t := by
  refine ⟨withAction (.command 0x02) faultedState, _, ⟨?_, by decide, by decide, by decide, by decide, by decide, by decide,
    fun a => ?_, fun h => ?_⟩, rfl⟩
  · exact ⟨List.Pairwise.nil, List.Pairwise.nil, List.Pairwise.nil, List.Pairwise.nil⟩
  · exact ⟨fun h => absurd (show (none : Option Byte).isSome = true from h) (by decide), fun h => absurd h (Nat.not_lt_zero a)⟩
  · exact absurd (show (1 : Nat) = 0 from h) (by decide)

theorem witness_ReadReturnsTheLatestWrite : (0 : Nat) < [(7 : Byte)].length ∧ State.reset.src.mem.wf :=
  ⟨by decide, List.Pairwise.nil⟩

/-- The last address and the largest length of the default capacities, and the first beyond them. -/
theorem witness_HostAccessesOnlyWhatItMay :
    let p := Config.defaultParams
    let s := withSource pngPrefix 0
    p.wf ∧ s.params = p ∧ (withAction (.writeByte .src (p.srcCap - 1) 7) s).inputs = [.writeByte .src (p.srcCap - 1) 7] ∧
      p.srcCap - 1 < p.srcCap ∧ p.zbufCap - 1 < p.zbufCap ∧ 2 ^ 32 - 1 < 2 ^ Reg.dfW.width ∧ p.srcCap ≤ p.srcCap ∧
      p.srcCap < p.srcCap + 1 ∧ p.srcCap + 1 < 2 ^ 64 ∧ 2 ^ Reg.dfW.width ≤ 2 ^ 32 ∧ 2 ^ Reg.zlen.width ≤ 2 ^ 64 ∧
      2 ^ Reg.srcValid.width ≤ 2 ∧ Reg.cfgFlip ∉ [Reg.srcValid, .dfW, .dfH, .srcLen, .zlen] ∧
      15 < (s.buf .src).len.toNat ∧ ((s.buf .src).mem.get? 15).isSome = true ∧ hostByte .src 15 s = .ok 0x52 ∧
      ¬ 16 < (s.buf .src).len.toNat := by decide +kernel

theorem witness_NoInstructionWritesTheSource : exec .nop State.reset = .next State.reset := rfl

theorem witness_OutputsWrittenOnlyByACompletedDecode :
    let s := withSource sourceP2 0
    exec .decbmp s = .next (after (exec .decbmp s)) ∧ (after (exec .decbmp s)).reg .outW ≠ s.reg .outW :=
  ⟨rfl, by decide +kernel⟩

theorem witness_SetflipWritesArgBitZero :
    State.reset.reg .stState = 0 ∧ opField 0xFFFFFFFE01 = 0x01 ∧ opField 0x0000000101 = 0x01 := by decide

theorem witness_FlipChangedOnlyBySetflipOrReset :
    let s := withAction (.command 0x02) { faultedState with cfgFlip := 1 }
    s.inputs = [.command 0x02] ∧ step s = .next (clearFailure (s.setInputs [])) ∧ decodeCommand 0x02 = .ok .clr :=
  ⟨rfl, rfl, rfl⟩

/-- For the four reads: exactly enough bytes, one too few, and no valid source. -/
theorem witness_reads :
    let s := fun n => withSource pngPrefix (16 - n)
    (s 1).reg .stState = 0 ∧ (s 1).reg .srcValid = 1 ∧ avail (s 1) = 1 ∧ avail (s 2) = 2 ∧ avail (s 4) = 4 ∧
      avail (s 0) = 0 ∧ avail (s 3) = 3 ∧ State.reset.reg .srcValid = 0 := by
  unfold avail; decide +kernel

theorem witness_SkipConsumesArgBytes :
    let s := withSource pngPrefix 4
    s.reg .stState = 0 ∧ s.reg .srcValid = 1 ∧ avail s = 12 ∧ 12 < 2 ^ 32 ∧ 2 ^ 32 - 1 < 2 ^ 32 := by
  unfold avail; decide +kernel

theorem witness_SeekSetsThePosition : State.reset.reg .stState = 0 ∧ 2 ^ 32 - 1 < 2 ^ 32 := by decide

/-- For PBMPF and PBMPI: the headers of program P2; the magic and another. -/
theorem witness_bmp_headers :
    let s := withSource sourceP2 0
    s.reg .stState = 0 ∧ s.reg .srcValid = 1 ∧ avail s = 74 ∧ leField (sourceBytes s 0 14) 0 2 = 0x4D42 ∧
      leField (sourceBytes (withSource (sourceP2.set 1 0x4E) 0) 0 14) 0 2 ≠ 0x4D42 ∧
      avail (withSource (sourceP2.take 13) 0) < 14 ∧ avail (withSource (sourceP2.take 40) 0) = 40 := by
  unfold avail; decide +kernel

theorem witness_PbmpcParsesTheColourHeader :
    let s := withSource (List.replicate 84 1) 0
    s.reg .stState = 0 ∧ 20 ≤ s.params.colourHdrBytes ∧ s.reg .srcValid = 1 ∧ avail s = s.params.colourHdrBytes := by
  unfold avail; decide +kernel

/-- For PIHDR and PCHUNK: exactly 13 and 8 bytes ahead, and one too few. -/
theorem witness_png_headers :
    avail (withSource pngPrefix 3) = 13 ∧ avail (withSource pngPrefix 4) < 13 ∧ avail (withSource pngPrefix 8) = 8 ∧
      avail (withSource pngPrefix 9) < 8 ∧ (withSource pngPrefix 3).reg .srcValid = 1 := by
  unfold avail; decide +kernel

/-- V-GATE-2, a refused compression, V-GATE-4, V-GATE-8. -/
theorem witness_BmpGateChecksInOrder :
    let h := fun w i b => (withBitmap w i b []).bmpInfo
    let refusing := { Config.defaultParams with bmpCompRefused := [0] }
    ¬ ((h 2 2 8).biBitcount = 24 ∨ (h 2 2 8).biBitcount = 32) ∧ ¬ bmpCompOk refusing (h 2 2 24).biCompression = true ∧
      bmpCompOk Config.defaultParams (h 2 2 24).biCompression = true ∧ ¬ 1 ≤ (h 0 2 24).width ∧
      (h 65536 16384 32).width.toNat * (h 65536 16384 32).height.natAbs * 4 = Config.defaultParams.pixCap + 1 := by
  decide +kernel

/-- V-GATE-11, 12, 13, 14, the first size beyond PIX_CAP, V-GATE-10. -/
theorem witness_IhdrGateChecksInOrder :
    let ok := { State.reset.ihdr with ihWidth := 2, ihHeight := 2, ihDepth := 8, ihCtype := 6 }
    let p := Config.defaultParams
    (16 : Byte).toNat ≠ 8 ∧ ok.ihDepth.toNat = 8 ∧ (2 : Byte) ≠ p.ctRgba ∧ ok.ihCtype = p.ctRgba ∧ (1 : Byte) ≠ p.ilNone ∧
      ok.ihInterlace = p.ilNone ∧ ok.ihWidth.toNat ≠ 0 ∧ 4 * 32768 * 32768 = p.pixCap + 1 ∧ 4 * 2 * 2 ≤ p.pixCap := by
  decide

/-- An IHDR chunk after others, up to the 13 bytes of its payload. -/
def withNextIhdr (body : List PngChunk) (payload : List Byte) : State :=
  withSource (streamBytes body ++ [0, 0, 0, 13, 0x49, 0x48, 0x44, 0x52] ++ payload) 0

/-- An IHDR for each check of the gate, which fails it and passes those before it: depth, colour type, interlace, a zero
height, the first size beyond PIX_CAP. -/
def badIhdrs : List (List Byte) :=
  [[0, 0, 0, 2, 0, 0, 0, 2, 16, 6, 0, 0, 0], [0, 0, 0, 2, 0, 0, 0, 2, 8, 2, 0, 0, 0],
    [0, 0, 0, 2, 0, 0, 0, 2, 8, 6, 0, 0, 1], [0, 0, 0, 2, 0, 0, 0, 0, 8, 6, 0, 0, 0],
    [0, 0, 0x80, 0, 0, 0, 0x80, 0, 8, 6, 0, 0, 0]]

theorem witness_IhdrGateChecksInOrder_values :
    badIhdrs.map (fun b => ((ihdrOf b).ihDepth.toNat, (ihdrOf b).ihCtype.toNat, (ihdrOf b).ihInterlace.toNat,
        (ihdrOf b).ihHeight.toNat, (ihdrOf b).need)) =
      [(16, 6, 0, 2, 16), (8, 2, 0, 2, 16), (8, 6, 1, 2, 16), (8, 6, 0, 0, 0),
        (8, 6, 0, 32768, Config.defaultParams.pixCap + 1)] := by decide +kernel

/-- Each of them as the first chunk and after those of P3; the source ends right after its 13 bytes. -/
theorem witness_IhdrGateChecksInOrder_chunks : ∀ body ∈ [[], chunksP3], ∀ payload ∈ badIhdrs,
    ((withNextIhdr body payload).reg .stState = 0 ∧ (withNextIhdr body payload).params = Config.defaultParams ∧
      (withNextIhdr body payload).reg .srcValid = 1 ∧ (withNextIhdr body payload).reg .pos = 0) ∧
    (SourceHolds (withNextIhdr body payload) 0 (streamBytes body) ∧
      (streamBytes body).length + 21 = (withNextIhdr body payload).reg .srcLen) ∧
    beNat (sourceBytes (withNextIhdr body payload) (streamBytes body).length 4) = 13 ∧
    beNat (sourceBytes (withNextIhdr body payload) ((streamBytes body).length + 4) 4) = 0x49484452 := by
  unfold SourceHolds; decide +kernel

theorem witness_GoodPrefix : Config.defaultParams.wf ∧ GoodPrefix Config.defaultParams [] ∧
    GoodPrefix Config.defaultParams chunksP3 := by
  unfold GoodPrefix IhdrOk; decide +kernel

/-- Example E5 at 24 bits, and a pixel at 32. -/
theorem witness_PaddingFollowsTheWidth :
    let a := (withBitmap 1 3 24 []).bmpInfo
    let b := (withBitmap 1 3 32 []).bmpInfo
    1 ≤ a.width ∧ a.biBitcount = 24 ∧ 1 ≤ b.width ∧ b.biBitcount = 32 := by decide

/-- V-BX-2, and the same source without its last byte; a height of -2; a depth without padding. -/
theorem witness_BxrowsRemovesThePadding :
    let s := withBitmap 1 3 24 (List.replicate 12 1)
    let u := withBitmap 1 3 24 (List.replicate 11 1)
    let v := withBitmap 1 0xFFFFFFFE 32 (List.replicate 8 1)
    s.reg .stState = 0 ∧ s.params.wf ∧ BmpOk s.params s.bmpInfo ∧ s.reg .srcValid = 1 ∧
      s.bmpInfo.rows * s.bmpInfo.stride = avail s ∧ BmpOk u.params u.bmpInfo ∧
      avail u + 1 = u.bmpInfo.rows * u.bmpInfo.stride ∧ BmpOk v.params v.bmpInfo ∧ v.bmpInfo.height < 0 ∧
      v.bmpInfo.rows * v.bmpInfo.stride = avail v := by
  unfold BmpOk avail; decide +kernel

/-- A source that is not readable; no padding and one byte missing (the block's start); padding, with the first row, the
second row, the first padding and the last padding cut short. The places are counted by hand from R163. -/
theorem witness_BxrowsRemovesThePadding_failures :
    let i : State := { withBitmap 1 3 24 [] with cursor := { pos := 7, srcValid := 0, val := 0 } }
    let v := withBitmap 1 0xFFFFFFFE 32 (List.replicate 7 1)
    let u := fun n => withBitmap 1 3 24 (List.replicate n 1)
    i.reg .stState = 0 ∧ i.params.wf ∧ BmpOk i.params i.bmpInfo ∧ i.reg .srcValid = 0 ∧
      v.reg .stState = 0 ∧ v.params.wf ∧ BmpOk v.params v.bmpInfo ∧ v.reg .srcValid = 1 ∧ v.bmpInfo.height < 0 ∧
      avail v + 1 = v.bmpInfo.rows * v.bmpInfo.stride ∧ rowsStop v.bmpInfo 7 = 0 ∧
      (∀ x ∈ [(2, 0), (6, 4), (3, 3), (11, 11)], (u x.1).reg .stState = 0 ∧ BmpOk (u x.1).params (u x.1).bmpInfo ∧
        avail (u x.1) = x.1 ∧ x.1 < (u x.1).bmpInfo.rows * (u x.1).bmpInfo.stride ∧
        rowsStop (u x.1).bmpInfo x.1 = x.2) := by
  unfold BmpOk avail; decide +kernel

/-- For BXSWAP once and twice: both depths and a third, the last pixel. -/
theorem witness_bxswap :
    (withPixels 24 [1, 2, 3, 4, 5, 6]).reg .biBitcount = 24 ∧ (withPixels 32 [1, 2, 3, 4]).reg .biBitcount = 32 ∧
      (withPixels 16 []).reg .biBitcount ≠ 24 ∧ (withPixels 16 []).reg .biBitcount ≠ 32 ∧
      1 < (withPixels 24 [1, 2, 3, 4, 5, 6]).reg .pixLen / 3 ∧ (withPixels 24 []).reg .stState = 0 := by decide +kernel

/-- The file header and the info header at the front of a source. -/
def headersOf (s : State) : BmpFile × BmpInfo := (bmpFileOf (sourceBytes s 0 14), bmpInfoOf (sourceBytes s 14 40))

/-- A source that is not readable; P2 cut one byte short of the file header and of the info header; a wrong signature. -/
theorem witness_DecbmpDecodesAWellFormedBitmap_headers :
    let f := withSource (sourceP2.take 13) 9
    let b := withSource ((sourceP2.take 14).set 1 0x4E) 9
    let i := withSource (sourceP2.take 53) 9
    State.reset.reg .stState = 0 ∧ State.reset.reg .srcValid = 0 ∧
      (f.reg .stState = 0 ∧ f.reg .srcValid = 1 ∧ f.reg .srcLen = 13) ∧
      (b.reg .stState = 0 ∧ b.reg .srcValid = 1 ∧ b.reg .srcLen = 14 ∧ (headersOf b).1.bfType ≠ 0x4D42) ∧
      (i.reg .stState = 0 ∧ i.reg .srcValid = 1 ∧ i.reg .srcLen = 53 ∧ (headersOf i).1.bfType = 0x4D42) := by
  decide +kernel

/-- P2 with a depth of 8; with a compression that is refused; with a width or a height of 0; with a capacity one byte too
small. The source ends with the info header. -/
theorem witness_DecbmpDecodesAWellFormedBitmap_gate :
    let a := fun (k : Nat) (x : Byte) => withSource ((sourceP2.take 54).set k x) 9
    let c : State := { a 30 3 with params := { Config.defaultParams with bmpCompRefused := [3] } }
    let p := small 11 18 [] (a 0 0x42)
    (∀ s ∈ [a 28 8, c, a 18 0, a 22 0, p], s.reg .stState = 0 ∧ s.reg .srcValid = 1 ∧ s.reg .srcLen = 54 ∧
      (headersOf s).1.bfType = 0x4D42 ∧ s.params.wf) ∧
      (headersOf (a 28 8)).2.biBitcount = 8 ∧
      (headersOf c).2.biBitcount = 24 ∧ bmpCompOk c.params (headersOf c).2.biCompression = false ∧
      (headersOf (a 18 0)).2.biBitcount = 24 ∧ (headersOf (a 18 0)).2.width = 0 ∧ (headersOf (a 22 0)).2.width = 2 ∧
      (headersOf (a 22 0)).2.height = 0 ∧ (headersOf p).2.biBitcount = 24 ∧ (headersOf p).2.width = 2 ∧
      (headersOf p).2.height = 2 ∧ p.params.pixCap + 1 = (headersOf p).2.rowBytes * (headersOf p).2.rows := by
  decide +kernel

/-- P2 at depth 32 with a colour header one byte short, then with its last byte, the rows declared to begin at that byte. -/
theorem witness_DecbmpDecodesAWellFormedBitmap_colour :
    let a := fun n => withSource (((sourceP2.set 28 0x20).set 10 0x89) ++ List.replicate n 0) 9
    (∀ n ∈ [63, 64], (a n).reg .stState = 0 ∧ (a n).reg .srcValid = 1 ∧ (headersOf (a n)).1.bfType = 0x4D42 ∧
      BmpOk (a n).params (headersOf (a n)).2 ∧ (headersOf (a n)).2.biBitcount = 32) ∧
      (a 63).reg .srcLen + 1 = 54 + (a 63).params.colourHdrBytes ∧ (a 64).reg .srcLen = 138 ∧
      (headersOf (a 64)).1.declOff.toNat = 137 ∧ (headersOf (a 64)).2.rows * (headersOf (a 64)).2.stride = 16 ∧
      rowsStop (headersOf (a 64)).2 1 = 0 := by
  unfold BmpOk; decide +kernel

/-- P2 less the last byte of the last padding, less that padding and a byte, with a height of -2 and a declared offset beyond
the source. The places are counted by hand from R163. -/
theorem witness_DecbmpDecodesAWellFormedBitmap_rows :
    let m := ((((sourceP2.set 22 0xFE).set 23 0xFF).set 24 0xFF).set 25 0xFF).set 10 0xFF
    (∀ x ∈ [(sourceP2.take 73, 58, 14), (sourceP2.take 71, 58, 8), (m, 255, 0)],
      (withSource x.1 9).reg .stState = 0 ∧ (withSource x.1 9).reg .srcValid = 1 ∧ 54 ≤ (withSource x.1 9).reg .srcLen ∧
        (headersOf (withSource x.1 9)).1.bfType = 0x4D42 ∧
        BmpOk (withSource x.1 9).params (headersOf (withSource x.1 9)).2 ∧
        (headersOf (withSource x.1 9)).2.biBitcount = 24 ∧
        (headersOf (withSource x.1 9)).1.declOff.toNat = x.2.1 ∧
        (withSource x.1 9).reg .srcLen < x.2.1 + 16 ∧
        (headersOf (withSource x.1 9)).2.rows * (headersOf (withSource x.1 9)).2.stride = 16 ∧
        rowsStop (headersOf (withSource x.1 9)).2 ((withSource x.1 9).reg .srcLen - x.2.1) = x.2.2) ∧
      (headersOf (withSource m 9)).2.height = -2 := by
  unfold BmpOk; decide +kernel

/-- Program P2: the last row's padding ends exactly at SRC_LEN. -/
theorem witness_DecbmpDecodesAWellFormedBitmap :
    let s := withSource sourceP2 0
    let h := bmpInfoOf (sourceBytes s 14 40)
    s.reg .stState = 0 ∧ s.params.wf ∧ s.reg .srcValid = 1 ∧ 14 + 40 ≤ s.reg .srcLen ∧ h.biBitcount = 24 ∧
      (bmpFileOf (sourceBytes s 0 14)).bfType = 0x4D42 ∧ BmpOk s.params h ∧
      (bmpFileOf (sourceBytes s 0 14)).declOff.toNat + h.rows * h.stride = s.reg .srcLen := by
  unfold BmpOk; decide +kernel

theorem witness_DecbmpEqualsItsCommandSequence :
    let s := withSource sourceP2 0
    s.reg .stState = 0 ∧ s.params.wf ∧ exec .decbmp s = .next (after (exec .decbmp s)) ∧
      (after (exec .decbmp s)).reg .stDone = 1 := ⟨rfl, by decide, rfl, by decide +kernel⟩

/-- Rows of V-PAETH for the three outcomes of the predictor: left at a tie, up at a tie, upper-left. -/
theorem witness_PaethPicksTheNearestNeighbour :
    let dist := fun (a b c x : Int) => (a + b - c - x).natAbs
    (dist 50 50 0 50 ≤ dist 50 50 0 50 ∧ dist 50 50 0 50 ≤ dist 50 50 0 0) ∧
      (¬ (dist 110 80 100 110 ≤ dist 110 80 100 80) ∧ dist 110 80 100 80 ≤ dist 110 80 100 100) ∧
      (¬ (dist 10 20 15 10 ≤ dist 10 20 15 15) ∧ ¬ dist 10 20 15 20 ≤ dist 10 20 15 15) := by decide

/-- For the four filters: the first and the last sample, row 0 and a later row. -/
theorem witness_filters :
    (withStream 2 5 streamP1).reg .dfY = 0 ∧ (withStream 2 5 streamP1).reg .dfW = 2 ∧ 5 ≤ 8 ∧ 8 ≤ 4 * 2 ∧
      ({ withStream 2 5 streamP1 with defilter := { dfW := 2, dfH := 5, dfY := 4, dfFt := 0 } } : State).reg .dfY = 4 := by
  decide +kernel

theorem witness_SubStartOffsetDoesNotMatter : 1 ≤ 1 := Nat.le_refl 1

/-- The first row outside the image, a stream one byte short, and the first reserved filter type. -/
theorem witness_DfrowFailures :
    let s := withStream 2 5 streamP1
    let u := withStream 2 5 (streamP1.take 44)
    let v := withStream 1 2 [0, 1, 2, 3, 4, 5, 1, 2, 3, 4]
    s.reg .stState = 0 ∧ s.reg .dfH = 5 ∧ 4 < u.reg .dfH ∧ u.reg .zlen + 1 = (4 + 1) * recordLen (u.reg .dfW) ∧
      1 < v.reg .dfH ∧ (1 + 1) * recordLen (v.reg .dfW) ≤ v.reg .zlen ∧
      (v.byte .zbuf (rowStart (v.reg .dfW) 1)).toNat = 5 := by decide +kernel

/-- Program P1, exactly long enough, every filter type; the stream one byte short; no rows at all. -/
theorem witness_DfrunReconstructsTheImage :
    let s := withStream 2 5 streamP1
    s.reg .stState = 0 ∧ s.reg .dfH * recordLen (s.reg .dfW) = s.reg .zlen ∧
      (∀ y, y < s.reg .dfH → filterOf (s.byte .zbuf (rowStart (s.reg .dfW) y)) = some (filtersP1 y)) ∧
      (withStream 2 5 (streamP1.take 44)).reg .zlen < 5 * recordLen 2 ∧ (withStream 2 0 []).reg .dfH = 0 := by
  decide +kernel

/-- The first reserved filter type in the last row, after a row of Sub. -/
theorem witness_DfrunReconstructsTheImage_reserved :
    let s := withStream 1 2 [1, 1, 2, 3, 4, 5, 1, 2, 3, 4]
    s.reg .stState = 0 ∧ s.reg .dfH * recordLen (s.reg .dfW) = s.reg .zlen ∧ 1 < s.reg .dfH ∧
      (∀ k, k < 1 → filterOf (s.byte .zbuf (rowStart (s.reg .dfW) k)) = some (filtersP3 k)) ∧
      (s.byte .zbuf (rowStart (s.reg .dfW) 1)).toNat = 5 := by decide +kernel

/-- The raw image of program P3, filtered with Sub and Paeth (R193). -/
theorem witness_DefilterInvertsTheFilter :
    let s := withStream 2 2 streamP3
    let raw := fun y i => (([0x01, 0x0A, 0x14, 0x1E, 0xFF, 0x0F, 0x19, 0x23, 0xFF, 0x04, 0x0B, 0x16, 0x21, 0xFF, 0x09, 0x13,
      0x1D, 0x00] : List Byte)[9 * y + i]?).getD 0
    s.reg .stState = 0 ∧ s.reg .dfH * recordLen (s.reg .dfW) ≤ s.reg .zlen ∧
      (∀ y, y < s.reg .dfH → filterOf (s.byte .zbuf (rowStart (s.reg .dfW) y)) = some (filtersP3 y)) ∧
      (∀ y, y < s.reg .dfH → ∀ i, i < 4 * s.reg .dfW + 1 → 1 ≤ i →
        s.byte .zbuf (rowStart (s.reg .dfW) y + i) = filterByte (filtersP3 y) raw y i) := by decide +kernel

/-- Two images that agree on lane 1 and on nothing else. -/
theorem witness_LanesReconstructIndependently :
    let s := withStream 1 1 [1, 9, 8, 7, 6]
    let s' := withStream 1 1 [1, 9, 0, 0, 0]
    s.reg .stState = 0 ∧ s'.reg .stState = 0 ∧ s'.reg .dfW = s.reg .dfW ∧ s'.reg .dfH = s.reg .dfH ∧
      s.reg .dfH * recordLen (s.reg .dfW) ≤ s.reg .zlen ∧ s'.reg .dfH * recordLen (s'.reg .dfW) ≤ s'.reg .zlen ∧
      (∀ y, y < s.reg .dfH → s'.byte .zbuf (rowStart (s.reg .dfW) y) = s.byte .zbuf (rowStart (s.reg .dfW) y) ∧
        (s.byte .zbuf (rowStart (s.reg .dfW) y)).toNat ≤ 4) ∧
      (∀ y, y < s.reg .dfH → ∀ i, i < 4 * s.reg .dfW + 1 → 1 ≤ i → i % 4 = 1 →
        s'.byte .zbuf (rowStart (s.reg .dfW) y + i) = s.byte .zbuf (rowStart (s.reg .dfW) y + i)) := by decide +kernel

/-- Program P3's chunks are a good stream, with CBUF_CAP exactly met. -/
theorem witness_ChunksCollectsTheStream :
    let s : State := { stateP3 0 with
      cursor := { pos := 8, srcValid := 1, val := 0 }, params := { Config.defaultParams with cbufCap := 26 } }
    s.reg .stState = 0 ∧ s.params.wf ∧ s.reg .srcValid = 1 ∧ GoodStream s.params chunksP3 iendP3 ∧
      (idatBytes chunksP3).length = s.params.cbufCap ∧ SourceHolds s 8 (streamBytes (chunksP3 ++ [iendP3])) := by
  unfold GoodStream GoodPrefix IhdrOk SourceHolds; decide +kernel

/-- V-PNG-E6. -/
theorem witness_ChunksRequiresIhdrFirst :
    let s := withSource (sourceP3.set 12 0x69) 8
    s.reg .stState = 0 ∧ s.reg .srcValid = 1 ∧ 8 ≤ avail s ∧ beNat (sourceBytes s 12 4) = 0x69484452 ∧
      0x69484452 ≠ 0x49484452 ∧ State.reset.reg .srcValid = 0 := by unfold avail; decide +kernel

/-- After the chunks of P3 and the header of one more, at the very end of the source: an IHDR of 12 bytes, and an IDAT that
passes CBUF_CAP by one; and P3 less the last byte of IEND's CRC. -/
theorem witness_ChunksRequiresIhdrFirst_later :
    let p := { Config.defaultParams with cbufCap := 26 }
    let s := fun head : List Byte => { withSource (streamBytes chunksP3 ++ head) 0 with params := p }
    let here := (streamBytes chunksP3).length
    let ihdr := [0, 0, 0, 12, 0x49, 0x48, 0x44, 0x52]
    let idat := [0, 0, 0, 1, 0x49, 0x44, 0x41, 0x54]
    p.wf ∧ GoodPrefix p chunksP3 ∧ chunksP3 ≠ [] ∧
      (∀ head ∈ [ihdr, idat], (s head).reg .stState = 0 ∧ (s head).reg .srcValid = 1 ∧
        SourceHolds (s head) ((s head).reg .pos) (streamBytes chunksP3) ∧ here + 8 = (s head).reg .srcLen) ∧
      beNat (sourceBytes (s ihdr) here 4) = 12 ∧ beNat (sourceBytes (s ihdr) (here + 4) 4) = 0x49484452 ∧
      beNat (sourceBytes (s idat) (here + 4) 4) = 0x49444154 ∧
      (idatBytes chunksP3).length + beNat (sourceBytes (s idat) here 4) = p.cbufCap + 1 := by
  unfold GoodPrefix IhdrOk SourceHolds; decide +kernel

theorem witness_ChunksRequiresIhdrFirst_cut :
    let stream := streamBytes (chunksP3 ++ [iendP3])
    let s := withSource (stream.take 101) 0
    s.reg .stState = 0 ∧ s.params.wf ∧ s.reg .srcValid = 1 ∧ GoodStream s.params chunksP3 iendP3 ∧ stream.length = 102 ∧
      SourceHolds s (s.reg .pos) (stream.take 101) ∧ s.reg .srcLen = s.reg .pos + 101 := by
  unfold GoodStream GoodPrefix IhdrOk SourceHolds; decide +kernel

/-- The three answers: none, one beyond ZBUF_CAP, one exactly as long. -/
theorem witness_InflateStoresTheAnswer :
    let z := idatBytes chunksP3
    let s := fun t n => small 0 n t (withCompressed z)
    (s [] 18).reg .stState = 0 ∧ (s [] 18).params.wf ∧
      inflateOf (s [(z, none)] 18).params (compressedOf (s [(z, none)] 18)) = none ∧
      inflateOf (s [(z, some streamP3)] 18).params (compressedOf (s [(z, some streamP3)] 18)) = some streamP3 ∧
      streamP3.length = 18 ∧ (s [] 17).params.zbufCap < streamP3.length := by decide +kernel

/-- A stream exactly long enough, a capacity exactly met and one byte too small, a short stream. -/
theorem witness_PxrunStripsAndOrdersTheRows :
    let s := fun n => small n (2 ^ 30) [] (withStream 1 2 [0, 1, 2, 3, 4, 0, 5, 6, 7, 8])
    (s 8).reg .stState = 0 ∧ (s 8).params.wf ∧ (s 8).reg .dfH * (4 * (s 8).reg .dfW + 1) = (s 8).reg .zlen ∧
      (s 8).reg .dfH * (4 * (s 8).reg .dfW) = (s 8).params.pixCap ∧ (s 7).params.pixCap < 8 ∧
      (withStream 1 2 [0, 1, 2, 3, 4, 0, 5, 6, 7]).reg .zlen < 10 ∧ (s 8).reg .cfgFlip = 0 := by decide +kernel

/-- Program P3. -/
theorem witness_DecpngDecodesAWellFormedImage :
    let s := stateP3 1
    let head := ihdrAfter s.ihdr chunksP3
    s.reg .stState = 0 ∧ s.params.wf ∧ s.reg .srcValid = 1 ∧ GoodStream s.params chunksP3 iendP3 ∧
      SourceHolds s 0 (s.params.pngSig ++ streamBytes (chunksP3 ++ [iendP3])) ∧
      inflateOf s.params (idatBytes chunksP3) = some streamP3 ∧ streamP3.length ≤ s.params.zbufCap ∧
      head.ihHeight.toNat * recordLen head.ihWidth.toNat = streamP3.length ∧
      (∀ y, y < head.ihHeight.toNat →
        (streamP3[rowStart head.ihWidth.toNat y]?).bind filterOf = some (filtersP3 y)) := by
  unfold GoodStream GoodPrefix IhdrOk SourceHolds; decide +kernel

/-- A source that is not valid, one of 7 bytes, one whose eighth byte is wrong; P3 with a depth of 16, with an inflate that
fails, with an answer whose first filter type is reserved. -/
theorem witness_DecpngDecodesAWellFormedImage_failures :
    let s := withSource (pngPrefix.set 7 0) 0
    let p := fun a => { Config.defaultParams with inflateTable := [(idatBytes chunksP3, a)] }
    let d := { stateP3 0 with src := State.reset.src.holding (sourceP3.set 24 0x10) }
    let f := { stateP3 0 with params := p none }
    let g := { stateP3 0 with params := p (some (streamP3.set 0 5)) }
    let chunked := fun s => after (exec .chunks ((startPng s).setPos 8))
    State.reset.reg .srcValid = 0 ∧ (withSource (pngPrefix.take 7) 0).reg .srcLen = 7 ∧ s.reg .stState = 0 ∧
      s.reg .srcValid = 1 ∧ 8 ≤ s.reg .srcLen ∧ sourceBytes s 0 8 ≠ s.params.pngSig ∧
      (∀ x ∈ [d, f, g], x.reg .stState = 0 ∧ x.params.wf ∧ x.reg .srcValid = 1 ∧ SourceHolds x 0 x.params.pngSig) ∧
      (chunked d).reg .stState = 1 ∧ (chunked f).reg .stState = 0 ∧ (after (exec .inflate (chunked f))).reg .stState = 1 ∧
      (after (exec .inflate (chunked g))).reg .stState = 0 ∧
      (after (exec .dfrun (frameFromIhdr (after (exec .inflate (chunked g)))))).reg .stState = 1 := by
  unfold SourceHolds; decide +kernel

/-- Program P3 from two states that differ in registers and in PIX. -/
theorem witness_DecodeDependsOnTheSourceOnly :
    let s := stateP3 1
    let s' : State := { stateP3 1 with pix := State.reset.pix.holding [1, 2], defilter := { dfW := 9, dfH := 9, dfY := 9, dfFt := 9 } }
    s.reg .stState = 0 ∧ s'.reg .stState = 0 ∧ s.params.wf ∧ s'.params = s.params ∧ s'.reg .cfgFlip = s.reg .cfgFlip ∧
      s'.src = s.src ∧ s'.reg .srcLen = s.reg .srcLen ∧ s'.reg .srcValid = s.reg .srcValid := by decide +kernel

end Sys2Proof.Tests
end

section
/-! The padding of a BMP row (R160, R161). -/
namespace Sys2Proof.Machine

theorem BmpInfo.stride_eq (h : BmpInfo) : h.stride = 4 * ((h.rowBytes + 3) / 4) := rfl

theorem BmpInfo.stride_mod_four (h : BmpInfo) : h.stride % 4 = 0 := by
  rw [h.stride_eq, Nat.mul_mod_right]

/-- The padding brings the row to the next multiple of 4 and no further. -/
theorem BmpInfo.pad_le_three (h : BmpInfo) : h.pad ≤ 3 := by
  have hsum := h.pad_add
  have hstride := h.stride_eq
  omega

/-- The only number below 4 that makes the row's length a multiple of 4. -/
theorem BmpInfo.pad_eq (h : BmpInfo) : h.pad = (4 - h.rowBytes % 4) % 4 := by
  have hsum := h.pad_add
  have hmod := h.stride_mod_four
  have hle := h.pad_le_three
  omega

theorem BmpInfo.rowBytes_of_depth32 {h : BmpInfo} (hd : h.biBitcount = 32) : h.rowBytes = 4 * h.width.toNat := by
  have hbpp : h.bpp = 4 := by simp [BmpInfo.bpp, hd]
  rw [BmpInfo.rowBytes, hbpp, Nat.mul_comm]

theorem BmpInfo.rowBytes_of_depth24 {h : BmpInfo} (hd : h.biBitcount = 24) : h.rowBytes = 3 * h.width.toNat := by
  have hbpp : h.bpp = 3 := by simp [BmpInfo.bpp, hd]
  rw [BmpInfo.rowBytes, hbpp, Nat.mul_comm]

theorem BmpInfo.pad_of_depth32 {h : BmpInfo} (hd : h.biBitcount = 32) : h.pad = 0 := by
  rw [h.pad_eq, rowBytes_of_depth32 hd, Nat.mul_mod_right]

/-- `-3 * W` and `W` agree modulo 4. -/
theorem BmpInfo.pad_of_depth24 {h : BmpInfo} (hd : h.biBitcount = 24) : h.pad = h.width.toNat % 4 := by
  rw [h.pad_eq, rowBytes_of_depth24 hd]
  omega

/-- Settles O37: the padding is fixed by the stride being the next multiple of 4 (`pad_eq`), and each depth gives it ROWBYTES. -/
theorem paddingFollowsTheWidth : Obligations.PaddingFollowsTheWidth := by
  intro h _ _
  have hsum : (h.rowBytes + h.pad) % 4 = 0 := by rw [h.pad_add, h.stride_mod_four]
  exact ⟨h.pad_eq, h.pad_le_three, hsum,
    fun hd => ⟨BmpInfo.rowBytes_of_depth32 hd, BmpInfo.pad_of_depth32 hd⟩,
    fun hd => ⟨BmpInfo.rowBytes_of_depth24 hd, BmpInfo.pad_of_depth24 hd⟩⟩

end Sys2Proof.Machine
end

section
/-! The Paeth predictor (R184). -/
namespace Sys2Proof.Machine

/-- The distance of `x` from the estimate `left + up - upleft`, over the integers (R184). -/
def paethDist (left up upleft x : Byte) : Nat :=
  ((left.toNat + up.toNat - upleft.toNat : Int) - x.toNat).natAbs

theorem paeth_eq (a b c : Byte) : paeth a b c =
    if paethDist a b c a ≤ paethDist a b c b ∧ paethDist a b c a ≤ paethDist a b c c then a
    else if paethDist a b c b ≤ paethDist a b c c then b else c := rfl

theorem paethDist_left (a b c : Byte) : paethDist a b c a = ((b.toNat : Int) - c.toNat).natAbs := by
  unfold paethDist; omega

theorem paethDist_up (a b c : Byte) : paethDist a b c b = ((a.toNat : Int) - c.toNat).natAbs := by
  unfold paethDist; omega

theorem paeth_eq_left {a b c : Byte}
    (h : paethDist a b c a ≤ paethDist a b c b ∧ paethDist a b c a ≤ paethDist a b c c) :
    paeth a b c = a := by
  rw [paeth_eq, if_pos h]

theorem paeth_eq_up {a b c : Byte}
    (h : ¬ (paethDist a b c a ≤ paethDist a b c b ∧ paethDist a b c a ≤ paethDist a b c c))
    (hb : paethDist a b c b ≤ paethDist a b c c) : paeth a b c = b := by
  rw [paeth_eq, if_neg h, if_pos hb]

theorem paeth_eq_upleft {a b c : Byte}
    (h : ¬ (paethDist a b c a ≤ paethDist a b c b ∧ paethDist a b c a ≤ paethDist a b c c))
    (hb : ¬ paethDist a b c b ≤ paethDist a b c c) : paeth a b c = c := by
  rw [paeth_eq, if_neg h, if_neg hb]

/-- No neighbour is nearer to the estimate than the predictor. -/
theorem paethDist_paeth_le (a b c : Byte) :
    paethDist a b c (paeth a b c) ≤ paethDist a b c a ∧ paethDist a b c (paeth a b c) ≤ paethDist a b c b ∧
      paethDist a b c (paeth a b c) ≤ paethDist a b c c := by
  by_cases ha : paethDist a b c a ≤ paethDist a b c b ∧ paethDist a b c a ≤ paethDist a b c c
  · rw [paeth_eq_left ha]
    exact ⟨le_rfl, ha⟩
  by_cases hb : paethDist a b c b ≤ paethDist a b c c
  · rw [paeth_eq_up ha hb]
    omega
  · rw [paeth_eq_upleft ha hb]
    omega

/-- Where up and upper-left agree the estimate is left itself. -/
theorem paeth_of_up_eq_upleft (a b : Byte) : paeth a b b = a := by
  have hzero : paethDist a b b a = 0 := by simp [paethDist_left]
  exact paeth_eq_left (by simp [hzero])

/-- Where left and upper-left agree the estimate is up itself; left is as near only when it is the same byte. -/
theorem paeth_of_left_eq_upleft (a b : Byte) : paeth a b a = b := by
  have hzero : paethDist a b a b = 0 := by simp [paethDist_up]
  by_cases hab : a = b
  · rw [hab, paeth_of_up_eq_upleft]
  · have hpos : paethDist a b a a ≠ 0 := by
      have hne := mt BitVec.eq_of_toNat_eq hab
      rw [paethDist_left]
      omega
    exact paeth_eq_up (by omega) (by omega)

/-- Where left and up agree, upper-left is twice as far from the estimate as they are, and left wins their tie. -/
theorem paeth_of_left_eq_up (a c : Byte) : paeth a a c = a :=
  paeth_eq_left ⟨le_rfl, by unfold paethDist; omega⟩

/-- Settles O43: the three outcomes are the branches of the predictor, and each listed value is a case in which two
neighbours agree. -/
theorem paethPicksTheNearestNeighbour : Obligations.PaethPicksTheNearestNeighbour := by
  intro a b c
  obtain ⟨hleft, hup, hupleft⟩ := paethDist_paeth_le a b c
  exact ⟨paeth_eq_left, paeth_eq_up, paeth_eq_upleft, hleft, hup, hupleft, paethDist_left a b c, paethDist_up a b c,
    paeth_of_up_eq_upleft a a, paeth_of_left_eq_upleft 0 b, paeth_of_up_eq_upleft a 0, paeth_of_left_eq_up 0 c⟩

end Sys2Proof.Machine
end

section
/-! Encoding, decoding and the step (R90 to R97). -/
namespace Sys2Proof

open Sys2Proof.Machine

theorem decodeRecord_opcode {i : Instr} (hf : i.format = .f) : decodeRecord (opcode i) = .ok i := by
  cases i with
  | fNone | fSub | fUp | fAvg | fPaeth => rfl
  | _ => cases hf

/-- A number operand that fits the operand field is read back from it. -/
theorem toNat_operand {n : Nat} (h : argFits n = true) : (BitVec.ofNat 32 n).toNat = n :=
  toNat_ofNat_of_lt (of_decide_eq_true h)

/-- The maps of R94 read both ways. -/
theorem decodeOp_opcode {i : Instr} (hk : i.format = .k) (hw : i.wf = true) :
    decodeOp (opcode i) (operand i) = .ok i := by
  cases i with
  | fNone | fSub | fUp | fAvg | fPaeth => cases hk
  | setflip flag => exact congrArg (Except.ok ∘ Instr.setflip) (extractLsb'_setWidth_bit flag)
  | skip n => exact congrArg (Except.ok ∘ Instr.skip) (toNat_operand hw)
  | seek n => exact congrArg (Except.ok ∘ Instr.seek) (toNat_operand hw)
  | dfrow n => exact congrArg (Except.ok ∘ Instr.dfrow) (toNat_operand hw)
  | _ => rfl

theorem decodeCommand_encodeCommand {i : Instr} (hk : i.format = .k) (hw : i.wf = true) :
    decodeCommand (encodeCommand i) = .ok i := by
  unfold decodeCommand encodeCommand
  rw [opField_append, argField_append, decodeOp_opcode hk hw]

theorem decodeBytes_encode_record {i : Instr} (hf : i.format = .f) (rest : List Byte) :
    decodeBytes .f (encode i ++ rest) = .ok (i, rest) := by
  simp only [encode, hf, List.singleton_append, decodeBytes, decodeRecord_opcode hf]

theorem decodeBytes_encode_command {i : Instr} (hk : i.format = .k) (hw : i.wf = true) (rest : List Byte) :
    decodeBytes .k (encode i ++ rest) = .ok (i, rest) := by
  simp only [encode, hk, List.cons_append, List.nil_append, decodeBytes, commandOfBytes_bytes,
    decodeCommand_encodeCommand hk hw]

/-- Settles O1: a filter record's opcode is its byte, a command word is put together from its five bytes again, and the
maps are read back. -/
theorem decodeOfEncodeIsIdentity : Obligations.DecodeOfEncodeIsIdentity := by
  intro i rest hw
  cases hform : i.format with
  | f => exact decodeBytes_encode_record hform rest
  | k => exact decodeBytes_encode_command hform hw rest

/-! ### The command map -/

/-- The op codes of R94. -/
def commandCodes : List Nat :=
  [0x00, 0x01, 0x02, 0x10, 0x11, 0x12, 0x13, 0x14, 0x15, 0x20, 0x21, 0x22, 0x23, 0x24, 0x30, 0x31, 0x3F, 0x40, 0x41, 0x50,
    0x51, 0x52, 0x5F]

theorem argFits_toNat (arg : Word) : argFits arg.toNat = true := decide_eq_true arg.isLt

/-- What a word that decodes decodes to. -/
theorem decodeOp_eq_ok {op : Byte} {arg : Word} {i : Instr} (h : decodeOp op arg = .ok i) :
    i.format = .k ∧ i.wf = true ∧ opcode i = op := by
  unfold decodeOp at h
  split at h
  case h_24 => cases h
  all_goals
    rename_i hop
    cases h
    exact ⟨rfl, by simp [Instr.wf, argFits_toNat], (BitVec.eq_of_toNat_eq hop).symm⟩

theorem decodeOp_listed {op : Byte} (arg : Word) (h : op.toNat ∈ commandCodes) : ∃ i, decodeOp op arg = .ok i := by
  unfold decodeOp
  split
  case h_24 => exfalso; simp_all [commandCodes]
  all_goals exact ⟨_, rfl⟩

theorem decodeOp_unlisted {op : Byte} (arg : Word) (h : op.toNat ∉ commandCodes) :
    decodeOp op arg = .error (.illegalOp op) := by
  unfold decodeOp
  split
  case h_24 => rfl
  all_goals
    rename_i hop
    exact absurd (by simp [hop, commandCodes]) h

/-- Settles O2: the decoder has an answer for the listed codes alone, and what it answers has the code it was given. -/
theorem commandMapIsExactlyTheTable : Obligations.CommandMapIsExactlyTheTable := by
  intro w
  refine ⟨fun h => ?_, decodeOp_unlisted (argField w)⟩
  obtain ⟨i, hi⟩ := decodeOp_listed (argField w) h
  exact ⟨i, hi, decodeOp_eq_ok hi⟩

/-- The map of R94 looks at the operand field of four commands only. -/
theorem decodeOp_congr_arg {op : Byte} (arg arg' : Word) (h : op.toNat ∉ [0x01, 0x14, 0x15, 0x40]) :
    decodeOp op arg = decodeOp op arg' := by
  unfold decodeOp
  split
  case h_2 | h_8 | h_9 | h_18 =>
    rename_i hop
    exact absurd (by simp [hop]) h
  all_goals rfl

theorem decodeOp_setflip (arg : Word) : decodeOp 0x01 arg = .ok (.setflip (arg.extractLsb' 0 1)) := rfl

/-- Settles O3: four rows of the map use the operand field, and SETFLIP's uses bit 0. -/
theorem unusedOperandBitsIgnored : Obligations.UnusedOperandBitsIgnored := by
  intro op arg arg'
  refine ⟨decodeOp_congr_arg arg arg', fun hbit => ?_⟩
  rw [decodeOp_setflip, decodeOp_setflip, hbit]

/-- Settles O4: the eight encodings are evaluated. -/
theorem programWordsDecode : Obligations.ProgramWordsDecode := by
  unfold Obligations.ProgramWordsDecode
  exact ⟨rfl, rfl, rfl, rfl, rfl, rfl, rfl, rfl⟩

/-! ### The step -/

theorem step_cons {s : State} {act : HostInput} {rest : List HostInput} (h : s.inputs = act :: rest) :
    step s = perform act (s.setInputs rest) := by
  unfold step; rw [h]

theorem step_idle {s : State} (h : s.inputs = []) : step s = .next s := by
  unfold step; rw [h]

theorem issue_ok {w : CmdWord} {i : Instr} (h : decodeCommand w = .ok i) (s : State) : issue w s = exec i s := by
  unfold issue; rw [h]

theorem issue_error {w : CmdWord} {e : DecodeError} (h : decodeCommand w = .error e) (s : State) :
    issue w s = .refused (.illegalCommand (opField w)) := by
  unfold issue; rw [h]

/-- Settles O5: a step performs the oldest action, and performing a command word is issuing it. -/
theorem stepRunsTheDecodedCommand : Obligations.StepRunsTheDecodedCommand := by
  intro s w rest i e
  exact ⟨fun hin hdec => (step_cons hin).trans (issue_ok hdec _),
    fun hin hdec => (step_cons hin).trans (issue_error hdec _), step_idle⟩

end Sys2Proof
end

section
/-! The invariant of the machine. -/
namespace Sys2Proof.Machine

open Sys2Proof.Safety

/-! ### The invariant inside a command -/

/-- What holds between the statements of a command that started in IDLE with the invariant: the invariant but for PIX, of
which `X` holds. -/
structure Running (X : Config.Params → Buffer → Prop) (s : State) : Prop where
  src : s.src.mem.wf
  cbuf : s.cbuf.mem.wf
  zbuf : s.zbuf.mem.wf
  params : s.params.wf
  srcLen : s.src.len.toNat ≤ s.params.srcCap
  clen : s.cbuf.len.toNat ≤ s.params.cbufCap
  zlen : s.zbuf.len.toNat ≤ s.params.zbufCap
  pos : s.cursor.pos.toNat ≤ max (2 ^ 32 - 1) s.params.srcCap
  stState : s.status.stState = 0
  stErr : s.status.stErr = 0
  stErrinfo : s.status.stErrinfo = 0
  compressed : Dense s.cbuf
  pix : X s.params s.pix

/-- PIX at the end of a command: canonical, within its capacity, and holding exactly the bytes below PIX_LEN. -/
structure PixSound (p : Config.Params) (b : Buffer) : Prop where
  mem : b.mem.wf
  len : b.len.toNat ≤ p.pixCap
  dense : Dense b

/-- PIX while a command fills it: nothing is claimed. -/
def PixAny (_p : Config.Params) (_b : Buffer) : Prop := True

theorem Running.any {X : Config.Params → Buffer → Prop} {s : State} (h : Running X s) : Running PixAny s :=
  { h with pix := trivial }

theorem dense_emptied (b : Buffer) : Dense b.emptied := by
  intro a
  simp

theorem pixSound_emptied (p : Config.Params) (b : Buffer) : PixSound p b.emptied :=
  ⟨Memory.wf_empty, Nat.zero_le _, dense_emptied b⟩

/-- In IDLE the invariant is what holds between the statements, with PIX as a command leaves it. -/
theorem running_of_inv {s : State} (h : Inv s) (hi : Idle s) : Running PixSound s where
  src := h.memories.1
  cbuf := h.memories.2.1
  zbuf := h.memories.2.2.1
  params := h.params
  srcLen := h.lengths.1
  clen := h.lengths.2.1
  zlen := h.lengths.2.2.1
  pos := h.pos
  stState := idle_iff.mp hi
  stErr := BitVec.eq_of_toNat_eq (h.err.2.mpr hi)
  stErrinfo := BitVec.eq_of_toNat_eq (h.idle hi)
  compressed := h.compressed hi
  pix := ⟨h.memories.2.2.2, h.lengths.2.2.2, h.pixels⟩

theorem inv_of_running {s : State} (h : Running PixSound s) : Inv s where
  memories := ⟨h.src, h.cbuf, h.zbuf, h.pix.mem⟩
  params := h.params
  lengths := ⟨h.srcLen, h.clen, h.zlen, h.pix.len⟩
  pos := h.pos
  err := by simp [h.stErr, h.stState]
  idle _ := by simp [h.stErrinfo]
  faulted hf := by simp [h.stState] at hf
  pixels := h.pix.dense
  compressed _ := h.compressed

/-- The failure entry re-establishes the invariant from any point of a command. -/
theorem inv_takeFailure {X : Config.Params → Buffer → Prop} {s : State} (h : Running X s) (k : ErrKind) (n : Nat) :
    Inv (takeFailure k n s) where
  memories := ⟨h.src, Memory.wf_empty, Memory.wf_empty, Memory.wf_empty⟩
  params := h.params
  lengths := ⟨h.srcLen, h.clen, h.zlen, Nat.zero_le _⟩
  pos := h.pos
  err := ⟨k.code_range.2, fun h0 => absurd h0 (Nat.ne_of_gt k.code_range.1), fun h0 => by cases h0⟩
  idle hi := by simp at hi
  faulted _ := ⟨rfl, rfl⟩
  pixels := dense_emptied s.pix
  compressed hi := by simp at hi

/-! ### The parts of the commands -/

/-- A part of a command keeps what holds between the statements, however it ends. -/
abbrev RunsOn {α : Type} (X : Config.Params → Buffer → Prop) (r : Res α) : Prop := r.Post (Running X) (Running PixAny)

variable {X : Config.Params → Buffer → Prop} {s : State}

theorem Running.setPos (h : Running X s) {n : Nat} (hn : n ≤ max (2 ^ 32 - 1) s.params.srcCap) :
    Running X (s.setPos n) :=
  { h with pos := (Nat.mod_le n _).trans hn }

theorem runsOn_curRead (h : Running X s) (n : Nat) : RunsOn X (curRead n s) := by
  refine curRead_post (fun hc => h.setPos ?_) h.any
  have havail := (canRead_iff.mp hc).2
  have hlen := h.srcLen
  have hpos := h.pos
  omega

theorem runsOn_curSkip (h : Running X s) (n : Nat) : RunsOn X (curSkip n s) :=
  (runsOn_curRead h n).andThen fun _ _ ht => ht

theorem runsOn_readVal (h : Running X s) (n : Nat) (order : List Byte → Nat) : RunsOn X (readVal n order s) :=
  (runsOn_curRead h n).andThen fun _ _ ht => { ht with }

theorem runsOn_parseBmpFile (h : Running X s) : RunsOn X (parseBmpFile s) :=
  (runsOn_curRead h _).andThen fun _ _ ht => by
    split
    · exact { ht with }
    · exact { ht.any with }

theorem runsOn_parseBmpInfo (h : Running X s) : RunsOn X (parseBmpInfo s) :=
  (runsOn_curRead h _).andThen fun _ _ ht => { ht with }

theorem runsOn_parseBmpColour (h : Running X s) : RunsOn X (parseBmpColour s) :=
  (runsOn_curRead h _).andThen fun _ _ ht => { ht with }

theorem runsOn_parseIhdr (h : Running X s) : RunsOn X (parseIhdr s) :=
  (runsOn_curRead h _).andThen fun _ _ ht => { ht with }

theorem runsOn_parseChunk (h : Running X s) : RunsOn X (parseChunk s) :=
  (runsOn_curRead h _).andThen fun _ _ ht => { ht with }

theorem runsOn_colourIfDeep (h : Running X s) : RunsOn X (colourIfDeep s) := by
  unfold colourIfDeep
  split
  · exact runsOn_parseBmpColour h
  · exact h

/-! ### The BMP unit -/

theorem runsOn_bmpRowLoop (rowBytes pad : Nat) :
    ∀ (n r : Nat) (s : State), Running PixAny s → RunsOn PixAny (bmpRowLoop rowBytes pad n r s)
  | 0, _, _, h => h
  | n + 1, r, _, h =>
    (runsOn_curRead h rowBytes).andThen fun v t ht =>
      Res.Post.andThen (runsOn_curSkip (s := t.setPix (t.pix.writeBytes (r * rowBytes) v)) { ht with pix := trivial } pad)
        fun _ u hu => runsOn_bmpRowLoop rowBytes pad n (r + 1) u hu

theorem runsOn_bmpPixels (h : Running PixAny s) (info : BmpInfo) : RunsOn PixAny (bmpPixels info s) := by
  unfold bmpPixels
  split
  · exact (runsOn_curRead h _).andThen fun _ _ ht => { ht with pix := trivial }
  · exact runsOn_bmpRowLoop _ _ _ _ s h

theorem Running.rowsBegun (h : Running X s) : Running PixSound (rowsBegun s) :=
  { h with
    stState := by simpa using h.stState
    stErr := by simpa using h.stErr
    stErrinfo := by simpa using h.stErrinfo
    pix := pixSound_emptied _ _ }

theorem runsOn_readRows_any (h : Running X s) : RunsOn PixAny (readRows s) :=
  (bmpGate_post (Q := Running X) h h.any).andThen fun _ _ ht =>
    (runsOn_bmpPixels ht.rowsBegun.any _).andThen fun _ _ hu => { hu with pix := trivial }

/-- BXROWS that completes has filled PIX exactly. -/
theorem pixSound_readRows {t : State} {u : Unit} (hp : s.params.wf) (h : readRows s = .ok u t) :
    PixSound t.params t.pix := by
  obtain ⟨hg, hc⟩ := readRows_eq_ok h
  obtain ⟨b, e, -, hlisted, hwf⟩ := readRows_ok hg hc
  obtain rfl : rowsRead b s = t := by
    rw [e] at h; injection h
  have hneed : s.bmpInfo.need ≤ s.params.pixCap := hg.2.2.2.2
  have hcap : s.params.pixCap < 2 ^ 64 := hp.2.2.2.1
  have hlen : (rowsRead b s).pix.len.toNat = s.bmpInfo.need := toNat_ofNat_of_lt (by omega)
  refine ⟨hwf, hlen ▸ hneed, fun a => ?_⟩
  rw [hlen]
  exact hlisted a

/-- What holds of a result that ends well may be added to what is known of its end. -/
theorem Res.Post.and_ok {α : Type} {r : Res α} {Q Q' R : State → Prop} (h : r.Post Q R)
    (h' : ∀ v t, r = .ok v t → Q' t) : r.Post (fun t => Q t ∧ Q' t) R := by
  cases r with
  | ok v t => exact ⟨h, h' v t rfl⟩
  | raised k n t => exact h

theorem runsOn_readRows (h : Running X s) : RunsOn PixSound (readRows s) :=
  ((runsOn_readRows_any h).and_ok fun _ _ => pixSound_readRows h.params).mono
    (fun _ ht => { ht.1 with pix := ht.2 }) fun _ => id

/-- Swapping the whole pixels below PIX_LEN lists no new byte. -/
theorem pixSound_swapLoop {p : Config.Params} {b : Buffer} {bpp : Nat} (hb : 3 ≤ bpp) (h : PixSound p b) :
    PixSound p (swapLoop bpp (b.len.toNat / bpp) 0 b) := by
  refine ⟨swapLoop_wf _ _ _ _ h.mem, by rw [swapLoop_len]; exact h.len, fun a => ?_⟩
  rw [swapLoop_len]
  exact swapLoop_listed hb _ 0 b (by rw [Nat.zero_add]; exact Nat.div_mul_le_self _ _) h.dense

theorem three_le_bpp {h : BmpInfo} (hd : h.biBitcount = 24 ∨ h.biBitcount = 32) : 3 ≤ h.bpp := by
  rcases hd with hd | hd <;> simp [BmpInfo.bpp, hd]

theorem swapChannels_raised (hd : ¬ (s.bmpInfo.biBitcount = 24 ∨ s.bmpInfo.biBitcount = 32)) :
    swapChannels s = .raised .unsupportedVariant s.bmpInfo.biBitcount.toNat s := by
  unfold swapChannels
  exact if_pos (by tauto)

theorem runsOn_swapChannels (h : Running PixSound s) : RunsOn PixSound (swapChannels s) := by
  by_cases hd : s.bmpInfo.biBitcount = 24 ∨ s.bmpInfo.biBitcount = 32
  · rw [swapChannels_ok hd]
    exact { h with pix := pixSound_swapLoop (three_le_bpp hd) h.pix }
  · rw [swapChannels_raised hd]
    exact h.any

theorem runsOn_decodeBmp (h : Running PixSound s) : RunsOn PixSound (decodeBmp s) := by
  have hstart : Running PixSound (startBmp s) := { h with pos := Nat.zero_le _, pix := pixSound_emptied _ _ }
  refine (runsOn_parseBmpFile hstart).andThen fun _ s1 h1 => ?_
  refine (runsOn_parseBmpInfo h1).andThen fun _ s2 h2 => ?_
  refine (bmpGate_post h2 h2.any).andThen fun _ s3 h3 => ?_
  refine (runsOn_colourIfDeep h3).andThen fun _ s4 h4 => ?_
  have hrows : Running PixSound (rowsAt s4) :=
    Running.setPos (s := recomputeHeader s4) { h4 with } (by
      have := (recomputeHeader s4).bmpFile.declOff.isLt
      omega)
  refine (runsOn_readRows hrows).andThen fun _ s5 h5 => ?_
  exact (runsOn_swapChannels h5).andThen fun _ _ h6 => { h6 with }

/-! ### The defilter -/

theorem Running.applyFilter (h : Running X s) (f : FilterType) (y : Nat) : Running X (applyFilter f y s) := by
  obtain ⟨z, e, hlen, hwf, -, -⟩ := applyFilter_spec f y s
  rw [e]
  exact { h with zbuf := hwf h.zbuf, zlen := hlen ▸ h.zlen }

theorem runsOn_defilterRow (h : Running X s) (y : Nat) : RunsOn X (defilterRow y s) := by
  have hfetch : Running X (fetchRow y s) := { h with }
  unfold defilterRow
  split
  · exact h.any
  split
  · exact h.any
  split
  · exact hfetch.applyFilter _ y
  · exact hfetch.any

theorem runsOn_defilterRows : ∀ (n y : Nat) (s : State), Running X s → RunsOn X (defilterRows n y s)
  | 0, _, _, h => h
  | n + 1, y, _, h => (runsOn_defilterRow h y).andThen fun _ t ht => runsOn_defilterRows n (y + 1) t ht

theorem runsOn_defilterImage (h : Running X s) : RunsOn X (defilterImage s) := by
  unfold defilterImage
  split
  · exact h.any
  · exact runsOn_defilterRows _ _ s h

/-! ### The PNG sequence -/

/-- Bytes appended at CLEN. -/
theorem dense_append {b : Buffer} (h : Dense b) (v : List Byte) (hlen : b.len.toNat + v.length < 2 ^ 64) :
    Dense ((b.writeBytes b.len.toNat v).setLen (b.len.toNat + v.length)) := by
  intro a
  rw [Buffer.setLen_len, toNat_ofNat_of_lt hlen, Buffer.setLen_mem]
  simp only [Buffer.writeBytes, Memory.isSome_writeBytes, h a]
  omega

theorem runsOn_ihdrPayload (h : Running X s) (len : Nat) : RunsOn X (ihdrPayload len s) := by
  unfold ihdrPayload
  split
  · exact h.any
  · exact (runsOn_parseIhdr h).andThen fun _ _ ht =>
      (ihdrGate_post ht ht.any).andThen fun _ _ hu => runsOn_curSkip hu _

theorem runsOn_idatPayload (h : Running X s) (len : Nat) : RunsOn X (idatPayload len s) := by
  unfold idatPayload
  split
  · exact h.any
  rename_i hcap
  rcases curRead_cases len s with ⟨hc, e⟩ | ⟨_, e⟩ | ⟨_, _, e⟩
  · have hread : Running X (s.setPos (s.cursor.pos.toNat + len)) := by
      have hpost := runsOn_curRead h len
      rwa [e] at hpost
    have h64 : s.params.cbufCap < 2 ^ 64 := h.params.2.2.1
    have hdense := dense_append h.compressed (s.src.bytes .src s.cursor.pos.toNat len)
      (by rw [Buffer.bytes_length]; omega)
    rw [Buffer.bytes_length] at hdense
    rw [e]
    exact { hread with
      cbuf := Buffer.wf_writeBytes h.cbuf _ _
      clen := (Nat.mod_le _ _).trans (Nat.not_lt.mp hcap)
      compressed := hdense }
  · rw [e]; exact h.any
  · rw [e]; exact h.any

theorem runsOn_chunkPayload (h : Running X s) (tag : Word) (len : Nat) : RunsOn X (chunkPayload tag len s) := by
  unfold chunkPayload
  split
  · exact runsOn_ihdrPayload h len
  split
  · exact runsOn_idatPayload h len
  · exact runsOn_curSkip h len

theorem runsOn_chunkCrc (h : Running X s) : RunsOn X (chunkCrc s) :=
  (runsOn_curRead h _).andThen fun _ _ ht => { ht with }

theorem runsOn_chunkTurn (h : Running X s) (first : Bool) : RunsOn X (chunkTurn first s) :=
  (runsOn_parseChunk h).andThen fun _ t ht => by
    simp only
    split
    · exact ht.any
    · exact (runsOn_chunkPayload ht _ _).andThen fun _ _ hu => (runsOn_chunkCrc hu).andThen fun _ _ hv => hv

theorem runsOn_chunkLoop : ∀ (n : Nat) (first : Bool) (s : State), Running X s → RunsOn X (chunkLoop n first s)
  | 0, _, _, h => h.any
  | n + 1, first, _, h => (runsOn_chunkTurn h first).andThen fun stop t ht => by
      split
      · exact ht
      · exact runsOn_chunkLoop n false t ht

theorem runsOn_readChunks (h : Running X s) : RunsOn X (readChunks s) :=
  runsOn_chunkLoop _ _ (startChunks s)
    { h with cbuf := Memory.wf_empty, clen := Nat.zero_le _, compressed := dense_emptied _ }

theorem runsOn_inflateStream (h : Running X s) : RunsOn X (inflateStream s) := by
  unfold inflateStream
  split
  · exact h.any
  split
  · exact h.any
  · rename_i r _ hcap
    exact { h with zbuf := Buffer.wf_holding _ r, zlen := (Nat.mod_le _ _).trans (Nat.not_lt.mp hcap) }

/-- PIX after the row loop of PXRUN, PIX_LEN written. -/
theorem pixSound_pixelLoop {p : Config.Params} (flip : Bit) (w h : Nat) (z b : Buffer) (hp : p.wf)
    (hcap : h * (4 * w) ≤ p.pixCap) : PixSound p ((pixelLoop flip w h z h 0 b.emptied).setLen (h * (4 * w))) := by
  have h64 : p.pixCap < 2 ^ 64 := hp.2.2.2.1
  have hlen : ((pixelLoop flip w h z h 0 b.emptied).setLen (h * (4 * w))).len.toNat = h * (4 * w) :=
    toNat_ofNat_of_lt (by omega)
  refine ⟨?_, by rw [hlen]; exact hcap, fun a => ?_⟩
  · rw [Buffer.setLen_mem, pixelLoop_eq]
    exact rowsWritten_wf _ _ _ _ _ Memory.wf_empty
  · rw [hlen, Buffer.setLen_mem, pixelLoop_eq, rowsWritten_listed _ _ _ fun _ _ _ => Buffer.bytes_length _ _ _ _]
    simp

theorem runsOn_extractPixels (h : Running X s) : RunsOn PixSound (extractPixels s) := by
  unfold extractPixels
  simp only
  split
  · exact h.any
  split
  · exact h.any
  · rename_i hcap
    exact { h with pix := pixSound_pixelLoop _ _ _ _ _ h.params (Nat.not_lt.mp hcap) }

theorem runsOn_checkSignature (h : Running X s) : RunsOn X (checkSignature s) :=
  (runsOn_curRead h _).andThen fun _ _ ht => by
    split
    · exact ht
    · exact ht.any

theorem runsOn_decodePng (h : Running X s) : RunsOn PixSound (decodePng s) := by
  have hstart : Running PixAny (startPng s) :=
    { h with zbuf := Memory.wf_empty, zlen := Nat.zero_le _, pos := Nat.zero_le _, pix := trivial }
  refine (runsOn_checkSignature hstart).andThen fun _ s1 h1 => ?_
  refine (runsOn_readChunks h1).andThen fun _ s2 h2 => ?_
  refine (runsOn_inflateStream h2).andThen fun _ s3 h3 => ?_
  refine (runsOn_defilterImage (s := frameFromIhdr s3) { h3 with }).andThen fun _ s4 h4 => ?_
  exact (runsOn_extractPixels h4).andThen fun _ _ h5 => { h5 with }

/-! ### Every command -/

theorem runsOn_bodyOf (h : Running PixSound s) {i : Instr} (hw : i.wf = true) : RunsOn PixSound (bodyOf i s) := by
  cases i with
  | setflip b => exact { h with }
  | rd8 | rd16le | rd32le | rd32be => exact runsOn_readVal h _ _
  | skip n => exact runsOn_curSkip h n
  | seek n =>
    have hn : n < 2 ^ 32 := of_decide_eq_true hw
    exact h.setPos (by omega)
  | pbmpf => exact runsOn_parseBmpFile h
  | pbmpi => exact runsOn_parseBmpInfo h
  | pbmpc => exact runsOn_parseBmpColour h
  | pihdr => exact runsOn_parseIhdr h
  | pchunk => exact runsOn_parseChunk h
  | bxrows => exact runsOn_readRows h
  | bxswap => exact runsOn_swapChannels h
  | decbmp => exact runsOn_decodeBmp h
  | dfrow y => exact runsOn_defilterRow h y
  | dfrun => exact runsOn_defilterImage h
  | chunks => exact runsOn_readChunks h
  | inflate => exact runsOn_inflateStream h
  | pxrun => exact runsOn_extractPixels h
  | decpng => exact runsOn_decodePng h
  | nop | clr | fNone | fSub | fUp | fAvg | fPaeth => exact h

theorem inv_clearFailure (h : Inv s) : Inv (clearFailure s) where
  memories := ⟨h.memories.1, Memory.wf_empty, Memory.wf_empty, Memory.wf_empty⟩
  params := h.params
  lengths := ⟨h.lengths.1, Nat.zero_le _, Nat.zero_le _, Nat.zero_le _⟩
  pos := h.pos
  err := ⟨Nat.zero_le _, Iff.rfl⟩
  idle _ := rfl
  faulted hf := by cases hf
  pixels := dense_emptied s.pix
  compressed _ := dense_emptied s.cbuf

theorem inv_exec {i : Instr} {t : State} (h : Inv s) (hk : i.format = .k) (hw : i.wf = true)
    (e : exec i s = .next t) : Inv t := by
  by_cases hclr : i = .clr
  · subst hclr
    cases e
    exact inv_clearFailure h
  rw [exec_eq_command hk hclr] at e
  rcases command_cases e with ⟨_, rfl⟩ | ⟨hi, hb⟩ | ⟨hi, k, n, u, hb, rfl⟩
  · exact h
  · have hpost := runsOn_bodyOf (running_of_inv h hi) hw
    rw [hb] at hpost
    exact inv_of_running hpost
  · have hpost := runsOn_bodyOf (running_of_inv h hi) hw
    rw [hb] at hpost
    exact inv_takeFailure hpost k n

/-! ### The host's actions -/

theorem inv_setInputs (h : Inv s) (rest : List HostInput) : Inv (s.setInputs rest) := { h with }

theorem inv_hostWriteByte {sp : Space} {a : Nat} {v : Byte} {t : State} (h : Inv s)
    (e : hostWriteByte sp a v s = .next t) : Inv t := by
  obtain ⟨hsrc, hcbuf, hzbuf, hpix⟩ := h.memories
  cases sp with
  | src =>
    simp only [hostWriteByte] at e
    split at e
    · cases e
      exact { h with memories := ⟨Buffer.wf_write hsrc a v, hcbuf, hzbuf, hpix⟩ }
    · cases e
  | zbuf =>
    simp only [hostWriteByte] at e
    split at e
    · cases e
      exact { h with memories := ⟨hsrc, hcbuf, Buffer.wf_write hzbuf a v, hpix⟩ }
    · cases e
  | cbuf => cases e
  | pix => cases e

theorem inv_hostSetReg (h : Inv s) (r : Reg) (v : Nat) : Inv (hostSetReg r v s) := by
  obtain ⟨hsrc, hcbuf, hzbuf, hpix⟩ := h.memories
  obtain ⟨lsrc, lcbuf, lzbuf, lpix⟩ := h.lengths
  unfold hostSetReg
  split
  · split
    · rename_i hv
      have hlen : (s.src.hostSetLen v).len.toNat ≤ s.params.srcCap := by
        rw [Buffer.hostSetLen_len]
        exact (Nat.mod_le v _).trans hv
      exact { h with
        memories := ⟨Buffer.wf_hostSetLen hsrc v, hcbuf, hzbuf, hpix⟩, lengths := ⟨hlen, lcbuf, lzbuf, lpix⟩ }
    · exact h
  · exact { h with }
  · split
    · rename_i hv
      have hlen : (s.zbuf.hostSetLen v).len.toNat ≤ s.params.zbufCap := by
        rw [Buffer.hostSetLen_len]
        exact (Nat.mod_le v _).trans hv
      exact { h with
        memories := ⟨hsrc, hcbuf, Buffer.wf_hostSetLen hzbuf v, hpix⟩, lengths := ⟨lsrc, lcbuf, hlen, lpix⟩ }
    · exact h
  · exact { h with }
  · exact { h with }
  · exact h

theorem hostWriteReg_eq_next {r : Reg} {v : Nat} {t : State} (h : hostWriteReg r v s = .next t) :
    r.hostWritable = true ∧ v < 2 ^ r.width ∧ t = hostSetReg r v s := by
  unfold hostWriteReg at h
  split at h
  · cases h
  split at h
  · cases h
  · rename_i hr hv
    cases h
    exact ⟨by simpa using hr, Nat.not_le.mp hv, rfl⟩

theorem hostReadByte_eq_next {sp : Space} {a : Nat} {t : State} (h : hostReadByte sp a s = .next t) : t = s := by
  unfold hostReadByte at h
  split at h
  · cases h; rfl
  · cases h

/-- A machine with every register 0 and every buffer empty, with parameters in range. -/
theorem inv_hostReset (hp : s.params.wf) : Inv (hostReset s) where
  memories := ⟨Memory.wf_empty, Memory.wf_empty, Memory.wf_empty, Memory.wf_empty⟩
  params := hp
  lengths := ⟨Nat.zero_le _, Nat.zero_le _, Nat.zero_le _, Nat.zero_le _⟩
  pos := Nat.zero_le _
  err := ⟨Nat.zero_le _, Iff.rfl⟩
  idle _ := rfl
  faulted hf := by cases hf
  pixels := dense_emptied s.pix
  compressed _ := dense_emptied s.cbuf

theorem inv_perform {act : HostInput} {t : State} (h : Inv s) (e : perform act s = .next t) : Inv t := by
  cases act with
  | command w =>
    cases hd : decodeCommand w with
    | ok i =>
      obtain ⟨hk, hw, -⟩ := decodeOp_eq_ok hd
      exact inv_exec h hk hw ((issue_ok hd s).symm.trans e)
    | error err => cases (issue_error hd s).symm.trans e
  | writeByte sp a v => exact inv_hostWriteByte h e
  | writeReg r v =>
    obtain ⟨-, -, rfl⟩ := hostWriteReg_eq_next e
    exact inv_hostSetReg h r v
  | readByte sp a =>
    obtain rfl := hostReadByte_eq_next e
    exact h
  | reset =>
    cases e
    exact inv_hostReset h.params

/-- Settles O16: a step performs an action of the host on the state without it, and every action keeps the invariant; a
command does so because each of its parts keeps `Running`, from which the failure entry gives the invariant back. -/
theorem stepKeepsTheInvariant : Obligations.StepKeepsTheInvariant := by
  intro s t h e
  cases hin : s.inputs with
  | nil =>
    cases (step_idle hin).symm.trans e
    exact h
  | cons act rest => exact inv_perform (inv_setInputs h rest) ((step_cons hin).symm.trans e)

/-- Settles O15: nothing is listed and every register is 0. -/
theorem resetMeetsTheInvariant : Obligations.ResetMeetsTheInvariant where
  memories := ⟨Memory.wf_empty, Memory.wf_empty, Memory.wf_empty, Memory.wf_empty⟩
  params := by decide
  lengths := ⟨Nat.zero_le _, Nat.zero_le _, Nat.zero_le _, Nat.zero_le _⟩
  pos := Nat.zero_le _
  err := ⟨Nat.zero_le _, Iff.rfl⟩
  idle _ := rfl
  faulted hf := by cases hf
  pixels := dense_emptied (Buffer.fresh 0)
  compressed _ := dense_emptied (Buffer.fresh 0)

end Sys2Proof.Machine
end

section
/-! Failure, return, reset, the host's accesses and the system commands. -/
namespace Sys2Proof.Machine

open Sys2Proof.Safety

/-! ### A command in IDLE -/

theorem exec_ok {i : Instr} {s t : State} (hidle : Idle s) (e : bodyOf i s = .ok () t) (hk : i.format = .k := by rfl)
    (hclr : i ≠ .clr := by nofun) : exec i s = .next t :=
  (exec_eq_command hk hclr s).trans (command_ok hidle e)

theorem exec_raised {i : Instr} {s t : State} {k : ErrKind} {n : Nat} (hidle : Idle s) (e : bodyOf i s = .raised k n t)
    (hk : i.format = .k := by rfl) (hclr : i ≠ .clr := by nofun) : exec i s = .next (takeFailure k n t) :=
  (exec_eq_command hk hclr s).trans (command_raised hidle e)

/-! ### Failure and return -/

/-- Settles O7: the record is written field by field, the three buffers list nothing, and the rest is the entry's frame. -/
theorem failureEntryRecordsAndEmpties : Obligations.FailureEntryRecordsAndEmpties := by
  intro k info s
  obtain ⟨hcbuf, hzbuf, hpix⟩ := takeFailure_unreadable k info s
  exact ⟨rfl, rfl, BitVec.toNat_ofNat info 64, rfl, rfl, hcbuf, hzbuf, hpix, takeFailure_frame k info s⟩

/-- Settles O8: every command but CLR is turned away while FAULTED. -/
theorem faultedTurnsAwayAllButClr : Obligations.FaultedTurnsAwayAllButClr := by
  intro i s hf hk hclr
  rw [exec_eq_command hk hclr, command_faulted hf]

theorem clearFailure_frame (s : State) :
    SameExcept [.stState, .stErr, .stErrinfo, .stDone, .stWarnTopdown, .pixLen, .clen, .zlen] [.cbuf, .zbuf, .pix] s
      (clearFailure s) := by
  have hframe := (((sameExcept_setStatus s s.status.cleared).trans (sameExcept_setPix _ s.pix.emptied)).trans
    (sameExcept_setCbuf _ s.cbuf.emptied)).trans (sameExcept_setZbuf _ s.zbuf.emptied)
  exact hframe.mono (by decide) (by decide)

theorem clearFailure_unreadable (s : State) :
    Unreadable .cbuf (clearFailure s) ∧ Unreadable .zbuf (clearFailure s) ∧ Unreadable .pix (clearFailure s) :=
  ⟨unreadable_of_empty rfl, unreadable_of_empty rfl, unreadable_of_empty rfl⟩

/-- Settles O9: CLR is the return from a failure, in every state. -/
theorem clrClearsRecordAndBuffers : Obligations.ClrClearsRecordAndBuffers := by
  intro s
  obtain ⟨hcbuf, hzbuf, hpix⟩ := clearFailure_unreadable s
  exact ⟨clearFailure s, rfl, rfl, rfl, rfl, rfl, rfl, rfl, rfl, rfl, hcbuf, hzbuf, hpix, clearFailure_frame s⟩

/-! ### What an instruction cannot change -/

/-- What an instruction leaves of the source, the parameters and the host's actions, always; of CFG_FLIP, but for SETFLIP;
of the outputs, but for a whole decode that completes. -/
structure ExecHeld (i : Instr) (s t : State) : Prop where
  src : t.src = s.src
  srcValid : t.cursor.srcValid = s.cursor.srcValid
  params : t.params = s.params
  inputs : t.inputs = s.inputs
  cfgFlip : (∀ b, i ≠ .setflip b) → t.cfgFlip = s.cfgFlip
  out : t.out = s.out ∨ (i = .decbmp ∨ i = .decpng) ∧ t.status.stDone = 1

theorem Held.execHeld {s t : State} (h : Held s t) (i : Instr) : ExecHeld i s t :=
  ⟨h.src, h.srcValid, h.params, h.inputs, fun _ => h.cfgFlip, .inl h.out⟩

theorem execHeld_takeFailure {i : Instr} {s u : State} (h : Held s u) (k : ErrKind) (n : Nat) :
    ExecHeld i s (takeFailure k n u) :=
  ⟨h.src, h.srcValid, h.params, h.inputs, fun _ => h.cfgFlip, .inl h.out⟩

/-- A whole decode that completes. -/
theorem Held.execHeld_done {i : Instr} {s t : State} (hi : i = .decbmp ∨ i = .decpng)
    (h : Held s { t with out := s.out } ∧ t.status.stDone = 1) : ExecHeld i s t ∧ t.status.stState = s.status.stState :=
  ⟨⟨h.1.src, h.1.srcValid, h.1.params, h.1.inputs, fun _ => h.1.cfgFlip, .inr ⟨hi, h.2⟩⟩, h.1.stState⟩

/-- A body keeps the mode where it ends well, and the outputs where it raises. -/
theorem bodyOf_post (i : Instr) (s : State) :
    (bodyOf i s).Post (fun t => ExecHeld i s t ∧ t.status.stState = s.status.stState) (Held s) := by
  by_cases hflip : ∃ b, i = .setflip b
  · obtain ⟨b, rfl⟩ := hflip
    exact ⟨⟨rfl, rfl, rfl, rfl, fun h => absurd rfl (h b), .inl rfl⟩, rfl⟩
  by_cases hbmp : i = .decbmp
  · subst hbmp
    exact (decodeBmp_post s).mono (fun _ => Held.execHeld_done (.inl rfl)) fun _ => id
  by_cases hpng : i = .decpng
  · subst hpng
    exact (decodePng_post s).mono (fun _ => Held.execHeld_done (.inr rfl)) fun _ => id
  · exact (keeps_bodyOf (fun b e => hflip ⟨b, e⟩) hbmp hpng s).mono (fun _ h => ⟨h.execHeld i, h.stState⟩) fun _ => id

theorem held_rowOf (i : Instr) (y : Nat) (s : State) : Held s (rowOf i y s) := by
  cases i <;> exact ⟨rfl, rfl, rfl, rfl, rfl, rfl, rfl⟩

theorem execHeld_exec {i : Instr} {s t : State} (h : exec i s = .next t) : ExecHeld i s t := by
  cases hform : i.format with
  | f =>
    rw [exec_eq_row hform] at h
    cases h
    exact (held_rowOf i _ s).execHeld i
  | k =>
    by_cases hclr : i = .clr
    · subst hclr
      cases h
      exact ⟨rfl, rfl, rfl, rfl, fun _ => rfl, .inl rfl⟩
    have hpost := bodyOf_post i s
    rw [exec_eq_command hform hclr] at h
    rcases command_cases h with ⟨_, rfl⟩ | ⟨_, hb⟩ | ⟨_, k, n, u, hb, rfl⟩
    · exact (Held.refl t).execHeld i
    · rw [hb] at hpost
      exact hpost.1
    · rw [hb] at hpost
      exact execHeld_takeFailure hpost k n

/-- Settles O19: no body touches these fields, nor does the failure entry. -/
theorem noInstructionWritesTheSource : Obligations.NoInstructionWritesTheSource := by
  intro i s t h
  have hheld := execHeld_exec h
  exact ⟨hheld.src, congrArg BitVec.toNat hheld.srcValid, hheld.params, hheld.inputs⟩

/-- Settles O20: the outputs are kept by all but the completion of a whole decode. -/
theorem outputsWrittenOnlyByACompletedDecode : Obligations.OutputsWrittenOnlyByACompletedDecode := by
  intro i s t h hchange
  rcases (execHeld_exec h).out with hout | ⟨hi, hdone⟩
  · simp [hout] at hchange
  · exact ⟨hi, congrArg BitVec.toNat hdone⟩

/-- A format K command that ends FAULTED went through the failure entry. -/
theorem exec_eq_takeFailure {i : Instr} {s t : State} (hidle : Idle s) (hk : i.format = .k) (h : exec i s = .next t)
    (hf : t.reg .stState = 1) : ∃ k n u, Held s u ∧ t = takeFailure k n u := by
  have hpost := bodyOf_post i s
  by_cases hclr : i = .clr
  · subst hclr
    cases h
    cases hf
  rw [exec_eq_command hk hclr] at h
  rcases command_cases h with ⟨hs, rfl⟩ | ⟨_, hb⟩ | ⟨_, k, n, u, hb, rfl⟩
  · rw [hidle] at hs
    cases hs
  · rw [hb] at hpost
    rw [State.reg_stState, hpost.2, idle_iff.mp hidle] at hf
    cases hf
  · rw [hb] at hpost
    exact ⟨k, n, u, hpost, rfl⟩

/-- Settles O11: only the failure entry leads from IDLE to FAULTED, and no body changes the outputs before it. -/
theorem everyFailureLeavesNoResult : Obligations.EveryFailureLeavesNoResult := by
  intro i s t hidle hk h hf
  obtain ⟨k, n, u, hheld, rfl⟩ := exec_eq_takeFailure hidle hk h hf
  obtain ⟨hcbuf, hzbuf, hpix⟩ := takeFailure_unreadable k n u
  obtain ⟨hlow, hhigh⟩ := k.code_range
  exact ⟨rfl, rfl, hlow, hhigh, congrArg (fun o => o.outW.toNat) hheld.out, congrArg (fun o => o.outH.toNat) hheld.out,
    hcbuf, hzbuf, hpix⟩

/-! ### Reset -/

theorem reg_reset (r : Reg) : State.reset.reg r = 0 := by
  cases r <;> rfl

theorem reg_hostReset (s : State) (r : Reg) : (hostReset s).reg r = 0 := by
  cases r <;> rfl

theorem unreadable_reset (sp : Space) : Unreadable sp State.reset := by
  cases sp <;> exact unreadable_of_empty rfl

theorem unreadable_hostReset (s : State) (sp : Space) : Unreadable sp (hostReset s) := by
  cases sp <;> exact unreadable_of_empty rfl

/-- Settles O13: the registers and buffers of the reset state, in which no action waits. -/
theorem resetStateIsEmptyAndIdle : Obligations.ResetStateIsEmptyAndIdle :=
  ⟨reg_reset, unreadable_reset, step_idle rfl⟩

/-- Settles O14: the step performs the reset event on the state with the actions after it. -/
theorem resetEventResetsEverything : Obligations.ResetEventResetsEverything := by
  intro s rest hin
  exact ⟨hostReset (s.setInputs rest), step_cons hin, reg_hostReset _, unreadable_hostReset _, rfl, rfl⟩

/-! ### The host's accesses -/

theorem sameExcept_setSrc_len (s : State) (b : Buffer) (h : b.len = s.src.len) : SameExcept [] [.src] s (s.setSrc b) :=
  ⟨fun r _ => by cases r <;> first | rfl | simp [h], fun sp hs _ => by cases sp <;> first | rfl | simp at hs, rfl, rfl⟩

theorem sameExcept_setSrc (s : State) (b : Buffer) : SameExcept [.srcLen] [.src] s (s.setSrc b) :=
  ⟨fun r hr => by cases r <;> first | rfl | simp at hr,
    fun sp hs _ => by cases sp <;> first | rfl | simp at hs, rfl, rfl⟩

theorem sameExcept_setSrcValid (s : State) (x : Bit) :
    SameExcept [.srcValid] [] s (s.setCursor { s.cursor with srcValid := x }) :=
  ⟨fun r hr => by cases r <;> first | rfl | simp at hr, fun sp _ _ => by cases sp <;> rfl, rfl, rfl⟩

theorem sameExcept_setDfW (s : State) (x : Word) :
    SameExcept [.dfW] [] s (s.setDefilter { s.defilter with dfW := x }) :=
  ⟨fun r hr => by cases r <;> first | rfl | simp at hr, fun sp _ _ => by cases sp <;> rfl, rfl, rfl⟩

theorem sameExcept_setDfH (s : State) (x : Word) :
    SameExcept [.dfH] [] s (s.setDefilter { s.defilter with dfH := x }) :=
  ⟨fun r hr => by cases r <;> first | rfl | simp at hr, fun sp _ _ => by cases sp <;> rfl, rfl, rfl⟩

theorem sameExcept_setCfgFlip (s : State) (x : Bit) : SameExcept [.cfgFlip] [] s (s.setCfgFlip x) :=
  ⟨fun r hr => by cases r <;> first | rfl | simp at hr, fun sp _ _ => by cases sp <;> rfl, rfl, rfl⟩

theorem sameExcept_setInputs_reg (s : State) (rest : List HostInput) (r : Reg) : (s.setInputs rest).reg r = s.reg r := by
  cases r <;> rfl

/-- The registers the host may write (R37). -/
def hostRegs : List Reg := [.srcValid, .dfW, .dfH, .srcLen, .zlen]

theorem hostWritable_iff (r : Reg) : r.hostWritable = true ↔ r ∈ hostRegs := by
  cases r <;> decide

theorem hostSetReg_frame (r : Reg) (v : Nat) (s : State) : SameExcept hostRegs [.src, .zbuf] s (hostSetReg r v s) := by
  unfold hostSetReg
  split
  · split
    · exact (sameExcept_setSrc s _).mono (by decide) (by decide)
    · exact SameExcept.refl _ _ s
  · exact (sameExcept_setSrcValid s _).mono (by decide) (by decide)
  · split
    · exact (sameExcept_setZbuf s _).mono (by decide) (by decide)
    · exact SameExcept.refl _ _ s
  · exact (sameExcept_setDfW s _).mono (by decide) (by decide)
  · exact (sameExcept_setDfH s _).mono (by decide) (by decide)
  · exact SameExcept.refl _ _ s

theorem hostWriteByte_frame {sp : Space} {a : Nat} {v : Byte} {s t : State} (h : hostWriteByte sp a v s = .next t) :
    SameExcept hostRegs [.src, .zbuf] s t := by
  cases sp with
  | src =>
    simp only [hostWriteByte] at h
    split at h
    · cases h
      exact (sameExcept_setSrc s _).mono (by decide) (by decide)
    · cases h
  | zbuf =>
    simp only [hostWriteByte] at h
    split at h
    · cases h
      exact (sameExcept_setZbuf s _).mono (by decide) (by decide)
    · cases h
  | cbuf => cases h
  | pix => cases h

/-- What a step does: a command word that decodes, a reset, or an access that keeps all but the host's registers and
buffers. -/
theorem step_cases {s t : State} {act : HostInput} {rest : List HostInput} (hin : s.inputs = act :: rest)
    (h : step s = .next t) :
    (∃ w i, act = .command w ∧ decodeCommand w = .ok i ∧ exec i (s.setInputs rest) = .next t) ∨ act = .reset ∨
      SameExcept hostRegs [.src, .zbuf] (s.setInputs rest) t := by
  rw [step_cons hin] at h
  cases act with
  | command w =>
    cases hd : decodeCommand w with
    | ok i => exact .inl ⟨w, i, rfl, hd, (issue_ok hd _).symm.trans h⟩
    | error e => cases (issue_error hd _).symm.trans h
  | writeByte sp a v => exact .inr (.inr (hostWriteByte_frame h))
  | writeReg r v =>
    obtain ⟨-, -, rfl⟩ := hostWriteReg_eq_next h
    exact .inr (.inr (hostSetReg_frame r v _))
  | readByte sp a =>
    obtain rfl := hostReadByte_eq_next h
    exact .inr (.inr (SameExcept.refl _ _ _))
  | reset => exact .inr (.inl rfl)

/-- Settles O10: a command other than CLR is turned away, and the host's other accesses do not reach the record. -/
theorem faultedLeftOnlyByClrOrReset : Obligations.FaultedLeftOnlyByClrOrReset := by
  intro s t act rest hf hin h hreset hclr r hr
  rcases step_cases hin h with ⟨w, i, rfl, hdec, hex⟩ | rfl | hframe
  · have hne : i ≠ .clr := fun e => hclr w rfl (e ▸ hdec)
    rw [exec_eq_command (decodeOp_eq_ok hdec).1 hne, command_faulted (s := s.setInputs rest) hf] at hex
    cases hex
    exact sameExcept_setInputs_reg s rest r
  · exact absurd rfl hreset
  · have hnot : r ∉ hostRegs := by
      revert r
      decide
    exact (hframe.reg hnot).trans (sameExcept_setInputs_reg s rest r)

/-- Settles O23: an instruction other than SETFLIP keeps the flag, and so do the host's other accesses. -/
theorem flipChangedOnlyBySetflipOrReset : Obligations.FlipChangedOnlyBySetflipOrReset := by
  intro s t act rest hin h hreset hflip
  rcases step_cases hin h with ⟨w, i, rfl, hdec, hex⟩ | rfl | hframe
  · have hne : ∀ b, i ≠ .setflip b := fun b e => hflip w b rfl (e ▸ hdec)
    exact congrArg BitVec.toNat ((execHeld_exec hex).cfgFlip hne)
  · exact absurd rfl hreset
  · exact hframe.reg (by decide)

/-- A byte that the host can read is what the space holds there. -/
theorem hostByte_of_listed {sp : Space} {a : Nat} {s : State} (hlen : a < (s.buf sp).len.toNat)
    (hget : ((s.buf sp).mem.get? a).isSome) : hostByte sp a s = .ok (s.byte sp a) := by
  obtain ⟨v, hv⟩ := Option.isSome_iff_exists.mp hget
  have hbyte : s.byte sp a = v := by simp [State.byte, Buffer.byte, hv]
  rw [hbyte]
  exact hostByte_eq_ok.mpr ⟨hlen, hv⟩

theorem hostByte_unspecified {sp : Space} {a : Nat} {s : State}
    (h : ¬ (a < (s.buf sp).len.toNat ∧ ((s.buf sp).mem.get? a).isSome)) :
    hostByte sp a s = .error (.unspecifiedByte sp a) := by
  unfold hostByte
  split
  · rename_i hlen
    cases hget : (s.buf sp).mem.get? a with
    | some v => exact absurd ⟨hlen, by simp [hget]⟩ h
    | none => rfl
  · rfl

theorem hostReadByte_ok {sp : Space} {a : Nat} {s : State} {c : Byte} (h : hostByte sp a s = .ok c) :
    hostReadByte sp a s = .next s := by
  unfold hostReadByte; rw [h]

theorem hostReadByte_error {sp : Space} {a : Nat} {s : State} {r : Refusal} (h : hostByte sp a s = .error r) :
    hostReadByte sp a s = .refused r := by
  unfold hostReadByte; rw [h]

theorem hostWriteReg_tooWide {r : Reg} {v : Nat} (s : State) (hr : r.hostWritable = true) (hv : 2 ^ r.width ≤ v) :
    hostWriteReg r v s = .refused (.valueTooWide r) := by
  unfold hostWriteReg
  rw [if_neg (by simp [hr]), if_pos hv]

/-- A length written by the host keeps every readable byte below it. -/
theorem hostByte_hostSetLen {sp : Space} {s t : State} {v x : Nat} {c : Byte}
    (hbuf : t.buf sp = (s.buf sp).hostSetLen v) (hv : v < 2 ^ 64) (hx : x < v) (h : hostByte sp x s = .ok c) :
    hostByte sp x t = .ok c := by
  obtain ⟨-, hget⟩ := hostByte_eq_ok.mp h
  refine hostByte_eq_ok.mpr ⟨?_, ?_⟩
  · rw [hbuf, Buffer.hostSetLen_len, toNat_ofNat_of_lt hv]
    exact hx
  · rw [hbuf, Buffer.hostSetLen_get? _ hx, hget]

section
variable {s : State} {rest : List HostInput} {sp : Space} {a v : Nat} {b : Byte} {r : Reg}

theorem step_writeByte_src (hin : s.inputs = .writeByte .src a b :: rest) (ha : a < s.params.srcCap) :
    ∃ t, step s = .next t ∧ t.byte .src a = b ∧ (∀ x, x ≠ a → t.byte .src x = s.byte .src x) ∧
      SameExcept [] [.src] (s.setInputs rest) t :=
  ⟨(s.setInputs rest).setSrc (s.src.write a b), (step_cons hin).trans (if_pos ha),
    (Buffer.byte_write _ _ _ _ _).trans (if_pos rfl), fun _ hx => (Buffer.byte_write _ _ _ _ _).trans (if_neg hx),
    sameExcept_setSrc_len _ _ rfl⟩

theorem step_writeByte_zbuf (hin : s.inputs = .writeByte .zbuf a b :: rest) (ha : a < s.params.zbufCap) :
    ∃ t, step s = .next t ∧ t.byte .zbuf a = b ∧ (∀ x, x ≠ a → t.byte .zbuf x = s.byte .zbuf x) ∧
      SameExcept [] [.zbuf] (s.setInputs rest) t :=
  ⟨(s.setInputs rest).setZbuf (s.zbuf.write a b), (step_cons hin).trans (if_pos ha),
    (Buffer.byte_write _ _ _ _ _).trans (if_pos rfl), fun _ hx => (Buffer.byte_write _ _ _ _ _).trans (if_neg hx),
    sameExcept_setZbuf_len _ _ rfl⟩

theorem step_writeReg (hin : s.inputs = .writeReg r v :: rest) (hr : r ∈ hostRegs) (hv : v < 2 ^ r.width) :
    step s = .next (hostSetReg r v (s.setInputs rest)) :=
  (step_cons hin).trans (hostWriteReg_next _ ((hostWritable_iff r).mpr hr) hv)

/-- SRC_VALID, DF_W and DF_H take the value that is written. -/
theorem hostSetReg_value (hr : r ∈ [Reg.srcValid, .dfW, .dfH]) (hv : v < 2 ^ r.width) (s : State) :
    (hostSetReg r v s).reg r = v ∧ SameExcept [r] [] s (hostSetReg r v s) := by
  simp only [List.mem_cons, List.not_mem_nil, or_false] at hr
  rcases hr with rfl | rfl | rfl
  · exact ⟨toNat_ofNat_of_lt hv, sameExcept_setSrcValid s _⟩
  · exact ⟨toNat_ofNat_of_lt hv, sameExcept_setDfW s _⟩
  · exact ⟨toNat_ofNat_of_lt hv, sameExcept_setDfH s _⟩

theorem step_writeReg_srcLen (hin : s.inputs = .writeReg .srcLen v :: rest) (hp : s.params.wf)
    (hcap : v ≤ s.params.srcCap) :
    ∃ t, step s = .next t ∧ t.reg .srcLen = v ∧ SameExcept [.srcLen] [.src] (s.setInputs rest) t ∧
      ∀ x c, x < v → hostByte .src x s = .ok c → hostByte .src x t = .ok c := by
  have hv : v < 2 ^ 64 := Nat.lt_of_le_of_lt hcap hp.2.1
  have hset : hostSetReg .srcLen v (s.setInputs rest) = (s.setInputs rest).setSrc (s.src.hostSetLen v) := if_pos hcap
  refine ⟨_, step_writeReg hin (by decide) hv, ?_, ?_, fun x c hx h => ?_⟩
  · rw [hset, State.reg_srcLen, State.setSrc_src, Buffer.hostSetLen_len, toNat_ofNat_of_lt hv]
  · rw [hset]
    exact sameExcept_setSrc _ _
  · exact hostByte_hostSetLen (by rw [hset]; rfl) hv hx h

theorem step_writeReg_zlen (hin : s.inputs = .writeReg .zlen v :: rest) (hp : s.params.wf)
    (hcap : v ≤ s.params.zbufCap) :
    ∃ t, step s = .next t ∧ t.reg .zlen = v ∧ SameExcept [.zlen] [.zbuf] (s.setInputs rest) t ∧
      ∀ x c, x < v → hostByte .zbuf x s = .ok c → hostByte .zbuf x t = .ok c := by
  have hv : v < 2 ^ 64 := Nat.lt_of_le_of_lt hcap hp.1
  have hset : hostSetReg .zlen v (s.setInputs rest) = (s.setInputs rest).setZbuf (s.zbuf.hostSetLen v) := if_pos hcap
  refine ⟨_, step_writeReg hin (by decide) hv, ?_, ?_, fun x c hx h => ?_⟩
  · rw [hset, State.reg_zlen, State.setZbuf_zbuf, Buffer.hostSetLen_len, toNat_ofNat_of_lt hv]
  · rw [hset]
    exact sameExcept_setZbuf _ _
  · exact hostByte_hostSetLen (by rw [hset]; rfl) hv hx h

end

/-- Settles O18: each access is the step over one of the host's operations, in the case that its check selects. -/
theorem hostAccessesOnlyWhatItMay : Obligations.HostAccessesOnlyWhatItMay := by
  intro s rest sp a v b r
  refine ⟨step_writeByte_src, step_writeByte_zbuf, fun hin hr hv => ?_, step_writeReg_srcLen, step_writeReg_zlen,
    fun hin hcap hv => ?_, fun hin hcap hv => ?_, fun hin hr => ?_, fun hin hr hv => ?_, fun hin hsp => ?_,
    fun hin ha => (step_cons hin).trans (if_neg (Nat.not_lt.mpr ha)),
    fun hin ha => (step_cons hin).trans (if_neg (Nat.not_lt.mpr ha)), fun hin hlen hget => ?_, fun hin h => ?_⟩
  · have hmem : r ∈ hostRegs := List.mem_append_left [Reg.srcLen, Reg.zlen] hr
    obtain ⟨hval, hframe⟩ := hostSetReg_value hr hv (s.setInputs rest)
    exact ⟨_, step_writeReg hin hmem hv, hval, hframe⟩
  · rw [step_writeReg hin (by decide) hv]
    exact congrArg Host.Outcome.next (if_neg (Nat.not_le.mpr hcap))
  · rw [step_writeReg hin (by decide) hv]
    exact congrArg Host.Outcome.next (if_neg (Nat.not_le.mpr hcap))
  · refine (step_cons hin).trans (hostWriteReg_refused v _ ?_)
    rw [← Bool.not_eq_true, hostWritable_iff]
    exact hr
  · exact (step_cons hin).trans (hostWriteReg_tooWide _ ((hostWritable_iff r).mpr hr) hv)
  · rcases hsp with rfl | rfl
    · exact step_cons hin
    · exact step_cons hin
  · have hbyte := hostByte_of_listed hlen hget
    exact ⟨hbyte, (step_cons hin).trans (hostReadByte_ok (s := s.setInputs rest) hbyte)⟩
  · exact (step_cons hin).trans (hostReadByte_error (s := s.setInputs rest) (hostByte_unspecified h))

/-! ### Memory -/

/-- Settles O17: the read-after-write rules of the buffer. -/
theorem readReturnsTheLatestWrite : Obligations.ReadReturnsTheLatestWrite := by
  intro sp b a vs
  exact ⟨fun j hj => Buffer.byte_writeBytes_in sp b a vs j hj, fun x hx => Buffer.byte_writeBytes_out sp b a vs x hx,
    fun hw => Buffer.wf_writeBytes hw a vs⟩

/-! ### System -/

/-- Settles O21: NOP's body ends in the state it began in, and while FAULTED it does not run. -/
theorem nopChangesNothing : Obligations.NopChangesNothing := by
  intro s
  exact congrArg Host.Outcome.next (ite_self s)

/-- Settles O22: the operand's bit 0 is its number modulo 2, and the body writes it. -/
theorem setflipWritesArgBitZero : Obligations.SetflipWritesArgBitZero := by
  intro s w hidle hop
  have hdec : decodeCommand w = .ok (.setflip ((argField w).extractLsb' 0 1)) := by
    unfold decodeCommand
    rw [hop, decodeOp_setflip]
  have hbit : ((argField w).extractLsb' 0 1).toNat = (argField w).toNat % 2 := by simp
  exact ⟨_, s.setCfgFlip _, hdec, rfl, exec_ok hidle rfl, hbit, sameExcept_setCfgFlip s _⟩

end Sys2Proof.Machine
end

section
/-! The byte cursor and the header parser. -/
namespace Sys2Proof.Machine

open Sys2Proof.Safety

/-! ### Byte cursor -/

theorem exec_readFailures {i : Instr} {n : Nat} {s : State} {f : List Byte → State → Res Unit} (hidle : Idle s)
    (hbody : bodyOf i s = (curRead n s).andThen f) (hk : i.format = .k := by rfl) (hclr : i ≠ .clr := by nofun) :
    ReadFailures n i s :=
  readFailures_of hidle (exec_eq_command hk hclr s) hbody

/-- A command that reads a number: VAL and POS are written, or the read fails. -/
theorem exec_readVal {i : Instr} {n : Nat} {order : List Byte → Nat} {s : State} {x : Nat} (hidle : Idle s)
    (hbody : bodyOf i = readVal n order) (hval : order (s.ahead n) = x) (hx : x < 2 ^ 32) (hk : i.format = .k := by rfl)
    (hclr : i ≠ .clr := by nofun) :
    (CanRead n s → ∃ t, exec i s = .next t ∧ t.reg .val = x ∧ t.reg .pos = s.reg .pos + n ∧
      SameExcept [.val, .pos] [] s t) ∧ ReadFailures n i s := by
  refine ⟨fun hc => ⟨(s.past n).setVal x, exec_ok hidle ?_ hk hclr, toNat_ofNat_of_lt hx, pos_after hc, ?_⟩,
    exec_readFailures hidle (congrFun hbody s) hk hclr⟩
  · rw [hbody, readVal, curRead_ok hc, Res.andThen_ok, hval]
  · exact ((sameExcept_setPos s _).trans (sameExcept_setVal _ x)).mono (by decide) (by decide)

theorem leNat_bytes_lt {b : Buffer} {a n : Nat} (hn : n ≤ 4) : leNat (b.bytes .src a n) < 2 ^ 32 :=
  calc leNat (b.bytes .src a n) < 256 ^ (b.bytes .src a n).length := leNat_lt _
    _ ≤ 256 ^ 4 := Nat.pow_le_pow_right (by decide) (by rwa [Buffer.bytes_length])

theorem beNat_bytes_lt {b : Buffer} {a n : Nat} (hn : n ≤ 4) : beNat (b.bytes .src a n) < 2 ^ 32 :=
  calc beNat (b.bytes .src a n) < 256 ^ (b.bytes .src a n).length := beNat_lt _
    _ ≤ 256 ^ 4 := Nat.pow_le_pow_right (by decide) (by rwa [Buffer.bytes_length])

/-- Settles O24: a read of one byte, which is its own number. -/
theorem rd8ReadsOneByte : Obligations.Rd8ReadsOneByte := by
  intro s arg hidle
  have hval := leNat_bytes_1 .src s.src s.cursor.pos.toNat
  exact ⟨rfl, exec_readVal hidle rfl hval (hval ▸ leNat_bytes_lt (by decide))⟩

/-- Settles O25: a read of two bytes in little-endian order. -/
theorem rd16leReadsLittleEndian : Obligations.Rd16leReadsLittleEndian := by
  intro s arg hidle
  have hval := leNat_bytes_2 .src s.src s.cursor.pos.toNat
  exact ⟨rfl, exec_readVal hidle rfl hval (hval ▸ leNat_bytes_lt (by decide))⟩

/-- Settles O26: a read of four bytes in little-endian order. -/
theorem rd32leReadsLittleEndian : Obligations.Rd32leReadsLittleEndian := by
  intro s arg hidle
  have hval := leNat_bytes_4 .src s.src s.cursor.pos.toNat
  exact ⟨rfl, exec_readVal hidle rfl hval (hval ▸ leNat_bytes_lt (by decide))⟩

/-- Settles O27: a read of four bytes in big-endian order. -/
theorem rd32beReadsBigEndian : Obligations.Rd32beReadsBigEndian := by
  intro s arg hidle
  have hval := beNat_bytes_4 .src s.src s.cursor.pos.toNat
  exact ⟨rfl, exec_readVal hidle rfl hval (hval ▸ beNat_bytes_lt (by decide))⟩

theorem setPos_pos (s : State) : s.setPos (s.reg .pos) = s := by
  rw [State.setPos, State.reg_pos, BitVec.ofNat_toNat, BitVec.setWidth_eq]
  rfl

/-- Settles O28: SKIP is the read with its bytes thrown away; none are asked for by SKIP 0. -/
theorem skipConsumesArgBytes : Obligations.SkipConsumesArgBytes := by
  intro s n hidle hn
  refine ⟨congrArg (Except.ok ∘ Instr.skip) (toNat_ofNat_of_lt hn), fun hc => ?_,
    exec_readFailures hidle rfl, fun h0 hv => ?_⟩
  · exact ⟨s.past n, exec_ok hidle (curSkip_ok hc), pos_after hc, sameExcept_setPos s _⟩
  · subst h0
    have hc : CanRead 0 s := ⟨hv, Nat.zero_le _⟩
    have hsame : s.past 0 = s := setPos_pos s
    exact exec_ok hidle ((curSkip_ok hc).trans (congrArg (Res.ok ()) hsame))

/-- Settles O29: SEEK writes POS, which holds every 32-bit operand. -/
theorem seekSetsThePosition : Obligations.SeekSetsThePosition := by
  intro s target hidle ht
  have hpos : (s.setPos target).reg .pos = target := toNat_ofNat_of_lt (Nat.lt_trans ht (by decide))
  exact ⟨s.setPos target, exec_ok hidle rfl, hpos, sameExcept_setPos s target⟩

/-! ### Header parser -/

/-- The file header registers after 14 bytes. -/
abbrev pastBmpFile (s : State) : State := (s.past 14).setBmpFile (bmpFileOf (s.ahead 14))

theorem bfType_eq_magic_iff (b : List Byte) : (bmpFileOf b).bfType = magicBM ↔ leField b 0 2 = 0x4D42 := by
  rw [← BitVec.toNat_inj]
  change (BitVec.ofNat 16 (leField b 0 2)).toNat = 0x4D42 ↔ _
  rw [toNat_leField_16]

/-- Settles O30: the registers are written whole, and the signature is checked on the register. -/
theorem pbmpfParsesTheFileHeader : Obligations.PbmpfParsesTheFileHeader := by
  intro s hidle
  refine ⟨fun hc => ?_, exec_readFailures hidle rfl⟩
  refine ⟨pastBmpFile s, rfl, toNat_leField_16 _ _, toNat_leField_32 _ _, toNat_leField_16 _ _, toNat_leField_16 _ _,
    toNat_leField_32 _ _, toNat_leField_32 _ _, pos_after hc, ?_, fun hm => ?_, fun hm => ?_⟩
  · exact ((sameExcept_setPos s _).trans (sameExcept_setBmpFile _ _)).mono (by decide) (by decide)
  · exact exec_ok hidle (parseBmpFile_ok hc ((bfType_eq_magic_iff _).mpr hm))
  · have hraised := exec_raised (i := .pbmpf) hidle (parseBmpFile_badSignature hc fun e => hm ((bfType_eq_magic_iff _).mp e))
    rwa [show (bmpFileOf (s.ahead 14)).bfType.toNat = leField (s.ahead 14) 0 2 from toNat_leField_16 _ _] at hraised

/-- Settles O31: eleven fields of the 40 bytes. -/
theorem pbmpiParsesTheInfoHeader : Obligations.PbmpiParsesTheInfoHeader := by
  intro s hidle
  refine ⟨fun hc => ?_, exec_readFailures hidle rfl⟩
  refine ⟨_, exec_ok hidle (parseBmpInfo_ok hc), toNat_leField_32 _ _, toNat_leField_32 _ _, toNat_leField_32 _ _,
    toNat_leField_16 _ _, toNat_leField_16 _ _, toNat_leField_32 _ _, toNat_leField_32 _ _, toNat_leField_32 _ _,
    toNat_leField_32 _ _, toNat_leField_32 _ _, toNat_leField_32 _ _, pos_after hc, ?_⟩
  exact ((sameExcept_setPos s _).trans (sameExcept_setBmpInfo _ _)).mono (by decide) (by decide)

/-- Settles O32: five fields of the colour header, however long it is. -/
theorem pbmpcParsesTheColourHeader : Obligations.PbmpcParsesTheColourHeader := by
  intro s hidle _
  refine ⟨fun hc => ?_, exec_readFailures hidle rfl⟩
  refine ⟨_, exec_ok hidle (parseBmpColour_ok hc), toNat_leField_32 _ _, toNat_leField_32 _ _, toNat_leField_32 _ _,
    toNat_leField_32 _ _, toNat_leField_32 _ _, pos_after hc, ?_⟩
  exact ((sameExcept_setPos s _).trans (sameExcept_setBmpColour _ _)).mono (by decide) (by decide)

/-- A 4-byte field of the bytes ahead, as its register holds it. -/
theorem toNat_beField_ahead_4 (s : State) {n off : Nat} (h : off + 4 ≤ n) :
    (BitVec.ofNat 32 (beField (s.ahead n) off 4)).toNat =
      2 ^ 24 * (s.byte .src (s.reg .pos + off)).toNat + 2 ^ 16 * (s.byte .src (s.reg .pos + (off + 1))).toNat +
        2 ^ 8 * (s.byte .src (s.reg .pos + (off + 2))).toNat + (s.byte .src (s.reg .pos + (off + 3))).toNat := by
  rw [toNat_beField_32, beField_bytes _ _ _ _ _ _ h, beNat_bytes_4]
  simp only [State.byte, State.buf_src, State.reg_pos, Nat.add_assoc]

theorem toNat_beField_ahead_1 (s : State) {n off : Nat} (h : off + 1 ≤ n) :
    (BitVec.ofNat 8 (beField (s.ahead n) off 1)).toNat = (s.byte .src (s.reg .pos + off)).toNat := by
  rw [toNat_beField_8, beField_bytes _ _ _ _ _ _ h, beNat_bytes_1]
  rfl

theorem sameExcept_setChunk_seen (s : State) (b : Bit) :
    SameExcept [.ihdrSeen] [] s (s.setChunk { s.chunk with ihdrSeen := b }) :=
  ⟨fun r hr => by cases r <;> first | rfl | simp at hr, fun sp _ _ => by cases sp <;> rfl, rfl, rfl⟩

theorem sameExcept_setChunk_header (s : State) (len tag : Word) :
    SameExcept [.chLen, .chTag] [] s (s.setChunk { s.chunk with chLen := len, chTag := tag }) :=
  ⟨fun r hr => by cases r <;> first | rfl | simp at hr, fun sp _ _ => by cases sp <;> rfl, rfl, rfl⟩

/-- Settles O33: the seven fields of the 13 bytes, big-endian. -/
theorem pihdrParsesTheImageHeader : Obligations.PihdrParsesTheImageHeader := by
  intro s arg hidle
  refine ⟨rfl, fun hc => ?_, exec_readFailures hidle rfl⟩
  have h4 := fun off h => toNat_beField_ahead_4 s (n := 13) (off := off) h
  have h1 := fun off h => toNat_beField_ahead_1 s (n := 13) (off := off) h
  refine ⟨_, exec_ok hidle (parseIhdr_ok hc), h4 0 (by decide), h4 4 (by decide), h1 8 (by decide), h1 9 (by decide),
    h1 10 (by decide), h1 11 (by decide), h1 12 (by decide), rfl, pos_after hc, ?_⟩
  exact (((sameExcept_setPos s _).trans (sameExcept_setIhdr _ _)).trans (sameExcept_setChunk_seen _ 1)).mono (by decide)
    (by decide)

/-- Settles O34: the two fields of the 8 bytes, big-endian. -/
theorem pchunkParsesTheChunkHeader : Obligations.PchunkParsesTheChunkHeader := by
  intro s arg hidle
  refine ⟨rfl, fun hc => ?_, exec_readFailures hidle rfl⟩
  refine ⟨_, exec_ok hidle (parseChunk_ok hc), toNat_beField_ahead_4 s (off := 0) (by decide),
    toNat_beField_ahead_4 s (off := 4) (by decide), pos_after hc, ?_⟩
  exact ((sameExcept_setPos s _).trans (sameExcept_setChunk_header _ _ _)).mono (by decide) (by decide)

/-- The bytes of the image, its factors in R146's order. -/
theorem BmpInfo.rowBytes_mul_rows (h : BmpInfo) :
    h.rowBytes * h.rows = h.width.toNat * h.height.natAbs * (h.biBitcount.toNat / 8) :=
  Nat.mul_right_comm _ _ _

/-- Settles O35: BXROWS fails as its gate does, and the gate with the first check that is not passed. -/
theorem bmpGateChecksInOrder : Obligations.BmpGateChecksInOrder := by
  intro s hidle
  have hfails := bmpGateFailures_imp (bmpGate_failures s) fun info hgate =>
    exec_raised (i := .bxrows) hidle (readRows_gate hgate)
  obtain ⟨hdepth, hcomp, hsize, hcap⟩ := hfails
  refine ⟨hdepth, hcomp, hsize, fun h1 h2 h3 h4 => ?_⟩
  rw [State.reg_biBitcount, ← BmpInfo.rowBytes_mul_rows] at *
  exact hcap h1 h2 h3 h4

end Sys2Proof.Machine
end

section
/-! The BMP unit. -/
namespace Sys2Proof.Machine

open Sys2Proof.Safety

/-! ### BXROWS -/

theorem reg_warned (f : Status) (height : Int) :
    (f.warned height).stWarnTopdown.toNat = if height < 0 then 1 else f.stWarnTopdown.toNat := by
  rw [Status.warned_stWarnTopdown]
  split <;> rfl

/-- The state in which BXROWS stops, seen from outside. -/
theorem rowsStopped {s : State} {b : Buffer} {p : Nat} (hb : b.len = 0) (hp : p < 2 ^ 64) :
    let u := ((rowsBegun s).setPix b).setPos p
    SameExcept [.pixLen, .pos, .stWarnTopdown] [.pix] s u ∧ u.reg .pixLen = 0 ∧ u.reg .pos = p ∧
      u.reg .stWarnTopdown = if s.bmpInfo.height < 0 then 1 else s.reg .stWarnTopdown :=
  ⟨sameExcept_rows s b p, congrArg BitVec.toNat hb, toNat_ofNat_of_lt hp, reg_warned _ _⟩

/-- The position of a read that fails in the rows is a 64-bit number. -/
theorem rowsStop_lt (s : State) (h : BmpInfo) : s.reg .pos + rowsStop h (avail s) < 2 ^ 64 := by
  have hle := rowsStop_le h (avail s)
  have hpos := s.cursor.pos.isLt
  have hlen := s.src.len.isLt
  simp only [avail, State.reg_pos, State.reg_srcLen] at *
  omega

/-- BXROWS that completes leaves PIX_LEN, POS and the warning, and the rest as it was. -/
theorem rowsRead_spec {s : State} (b : Buffer) (hp : s.params.wf) (hg : BmpOk s.params s.bmpInfo)
    (hc : CanRead (s.bmpInfo.rows * s.bmpInfo.stride) s) :
    SameExcept [.pixLen, .pos, .stWarnTopdown] [.pix] s (rowsRead b s) ∧ (rowsRead b s).reg .pixLen = s.bmpInfo.need ∧
      (rowsRead b s).reg .pos = s.reg .pos + s.bmpInfo.rows * s.bmpInfo.stride ∧
      (rowsRead b s).reg .stWarnTopdown = if s.bmpInfo.height < 0 then 1 else s.reg .stWarnTopdown :=
  ⟨sameExcept_rows s _ _, toNat_ofNat_of_lt (Nat.lt_of_le_of_lt hg.2.2.2.2 hp.2.2.2.1), pos_after hc, reg_warned _ _⟩

/-- A failure at a known position, in the registers the host reads after it. -/
theorem failsFrom_truncated {i : Instr} {s : State} {regs : List Reg} {spaces : List Space} {p : Nat}
    {how : State → Prop} (h : FailsFrom i s regs spaces .truncatedStream p how) (hp : p < 2 ^ 64)
    (hpos : ∀ u, how u → u.reg .pos = p) : ∃ t, exec i s = .next t ∧ t.reg .stState = 1 ∧ t.reg .stErr = 4 ∧
      t.reg .stErrinfo = p ∧ t.reg .pos = p ∧ t.reg .pixLen = 0 := by
  obtain ⟨u, e, -, hu⟩ := h
  exact ⟨_, e, rfl, rfl, toNat_ofNat_of_lt hp, hpos u hu, rfl⟩

/-- Settles O38: behind a passed gate BXROWS reads all the rows, or stops where the source is not readable or short. -/
theorem bxrowsRemovesThePadding : Obligations.BxrowsRemovesThePadding := by
  intro s hidle hp h warned fails hg
  refine ⟨fun hc => ?_, fun hv => ?_, fun hv hshort => ?_⟩
  · obtain ⟨b, e, hbytes, -, -⟩ := readRows_ok hg hc
    obtain ⟨hframe, hlen, hpos, hwarn⟩ := rowsRead_spec b hp hg hc
    exact ⟨rowsRead b s, exec_ok hidle e, hbytes, hlen, hpos, hwarn, hframe⟩
  · obtain ⟨hframe, hlen, hpos, hwarn⟩ := rowsStopped (s := s) (b := s.pix.emptied) rfl s.cursor.pos.isLt
    have hsame : ((rowsBegun s).setPix s.pix.emptied).setPos s.cursor.pos.toNat = rowsBegun s := setPos_pos (rowsBegun s)
    rw [hsame] at hframe hlen hpos hwarn
    exact ⟨rowsBegun s, exec_raised hidle (readRows_invalid hg hv), hframe, hlen, hpos, hwarn⟩
  · have hlt := rowsStop_lt s h
    obtain ⟨b, hb, e⟩ := readRows_short hg hv hshort
    obtain ⟨hframe, hlen, hpos, hwarn⟩ := rowsStopped (s := s) hb hlt
    have hfails : fails .truncatedStream _ _ := ⟨_, exec_raised hidle e, hframe, hlen, hpos, hwarn⟩
    exact ⟨hfails, failsFrom_truncated hfails hlt fun u hu => hu.2.1⟩

/-! ### BXSWAP -/

theorem depth_iff (h : BmpInfo) : (h.biBitcount.toNat = 24 ∨ h.biBitcount.toNat = 32) ↔
    (h.biBitcount = 24 ∨ h.biBitcount = 32) := by
  simp only [← BitVec.toNat_inj]
  rfl

/-- PIX with the first and third byte of every whole pixel exchanged. -/
abbrev swappedPix (s : State) : Buffer := swapLoop s.bmpInfo.bpp (s.pix.len.toNat / s.bmpInfo.bpp) 0 s.pix

theorem swappedPix_byte_in {s : State} (hb : 3 ≤ s.bmpInfo.bpp) {p c : Nat} (hp : p < s.pix.len.toNat / s.bmpInfo.bpp)
    (hc : c < s.bmpInfo.bpp) :
    (swappedPix s).byte .pix (p * s.bmpInfo.bpp + c) = s.pix.byte .pix (p * s.bmpInfo.bpp + swapped c) :=
  swapLoop_byte_in hb hc _ 0 s.pix (Nat.zero_le p) (by omega)

theorem swappedPix_byte_out {s : State} (hb : 3 ≤ s.bmpInfo.bpp) {a : Nat}
    (ha : s.pix.len.toNat / s.bmpInfo.bpp * s.bmpInfo.bpp ≤ a) : (swappedPix s).byte .pix a = s.pix.byte .pix a :=
  swapLoop_byte_out hb _ 0 s.pix (by rw [Nat.zero_add]; exact .inr ha)

/-- Settles O39: the pixel loop over the whole pixels, or the depth check. -/
theorem bxswapExchangesFirstAndThird : Obligations.BxswapExchangesFirstAndThird := by
  intro s arg hidle
  refine ⟨rfl, fun h24 h32 => ?_, fun hd => ?_⟩
  · have hdepth := mt (depth_iff s.bmpInfo).mpr (not_or.mpr ⟨h24, h32⟩)
    exact exec_raised hidle (swapChannels_raised hdepth)
  · have hdepth := (depth_iff s.bmpInfo).mp hd
    have hb := three_le_bpp hdepth
    exact ⟨s.setPix (swappedPix s), exec_ok hidle (swapChannels_ok hdepth), fun p c => swappedPix_byte_in hb,
      fun a => swappedPix_byte_out hb, sameExcept_setPix_len s _ (swapLoop_len _ _ _ _)⟩

theorem swapped_swapped {c bpp : Nat} (hb : 3 ≤ bpp) (hc : c < bpp) : swapped c < bpp ∧ swapped (swapped c) = c := by
  unfold swapped
  grind

/-- Exchanging twice gives every byte back. -/
theorem swappedPix_twice {s : State} (hb : 3 ≤ s.bmpInfo.bpp) (a : Nat) :
    (swappedPix (s.setPix (swappedPix s))).byte .pix a = s.pix.byte .pix a := by
  have hlen : (swappedPix s).len = s.pix.len := swapLoop_len _ _ _ _
  by_cases ha : s.pix.len.toNat / s.bmpInfo.bpp * s.bmpInfo.bpp ≤ a
  · rw [swappedPix_byte_out (s := s.setPix (swappedPix s)) hb (by simpa [hlen] using ha)]
    exact swappedPix_byte_out hb ha
  · have hpix : a / s.bmpInfo.bpp < s.pix.len.toNat / s.bmpInfo.bpp :=
      (Nat.div_lt_iff_lt_mul (by omega)).mpr (Nat.not_le.mp ha)
    have hmod : a % s.bmpInfo.bpp < s.bmpInfo.bpp := Nat.mod_lt _ (by omega)
    obtain ⟨hlt, htwice⟩ := swapped_swapped hb hmod
    rw [← Nat.div_add_mod' a s.bmpInfo.bpp]
    calc (swappedPix (s.setPix (swappedPix s))).byte .pix (a / s.bmpInfo.bpp * s.bmpInfo.bpp + a % s.bmpInfo.bpp)
      _ = (swappedPix s).byte .pix (a / s.bmpInfo.bpp * s.bmpInfo.bpp + swapped (a % s.bmpInfo.bpp)) :=
        swappedPix_byte_in (s := s.setPix (swappedPix s)) hb (by simpa [hlen] using hpix) hmod
      _ = s.pix.byte .pix (a / s.bmpInfo.bpp * s.bmpInfo.bpp + a % s.bmpInfo.bpp) := by
        rw [swappedPix_byte_in hb hpix hlt, htwice]

/-- Settles O40: the exchange of two bytes is its own inverse, and the depth is not written. -/
theorem bxswapTwiceRestores : Obligations.BxswapTwiceRestores := by
  intro s hidle hd
  have hdepth := (depth_iff s.bmpInfo).mp hd
  have hb := three_le_bpp hdepth
  have hlen : (swappedPix s).len = s.pix.len := swapLoop_len _ _ _ _
  have hlen' : (swappedPix (s.setPix (swappedPix s))).len = s.pix.len := (swapLoop_len _ _ _ _).trans hlen
  have hframe := sameExcept_setPix_len s (swappedPix (s.setPix (swappedPix s))) hlen'
  refine ⟨s.setPix (swappedPix s), _, exec_ok hidle (swapChannels_ok hdepth),
    exec_ok (s := s.setPix (swappedPix s)) hidle (swapChannels_ok hdepth), hframe.1, fun sp _ a => ?_, rfl, rfl⟩
  by_cases hsp : sp = .pix
  · subst hsp
    exact swappedPix_twice hb a
  · exact hframe.byte (by simpa using hsp) a

end Sys2Proof.Machine
end

section
/-! DECBMP on every source: where it stops, and what it leaves where it does not. -/
namespace Sys2Proof.Machine

open Sys2Proof.Safety

/-! ### The states DECBMP goes through -/

/-- After DECBMP line 3. -/
abbrev fileRead (s : State) : State := pastBmpFile (startBmp s)

/-- After DECBMP line 4. -/
abbrev infoRead (s : State) : State := ((fileRead s).past 40).setBmpInfo (bmpInfoOf ((fileRead s).ahead 40))

variable {s : State}

theorem sameExcept_startBmp (s : State) : SameExcept [.stDone, .stWarnTopdown, .pixLen, .pos] [.pix] s (startBmp s) :=
  ⟨fun r hr => by cases r <;> first | rfl | simp at hr, fun sp hs _ => by cases sp <;> first | rfl | simp at hs,
    rfl, rfl⟩

theorem sameExcept_fileRead (s : State) :
    SameExcept ([.stDone, .stWarnTopdown, .pixLen, .pos] ++ bmpFileRegs) [.pix] s (fileRead s) :=
  ((sameExcept_startBmp s).trans ((sameExcept_setPos _ _).trans (sameExcept_setBmpFile _ _))).mono (by decide) (by decide)

theorem sameExcept_infoRead (s : State) :
    SameExcept ([.stDone, .stWarnTopdown, .pixLen, .pos] ++ (bmpFileRegs ++ bmpInfoRegs)) [.pix] s (infoRead s) :=
  ((sameExcept_fileRead s).trans ((sameExcept_setPos _ _).trans (sameExcept_setBmpInfo _ _))).mono (by decide) (by decide)

theorem sameExcept_rowsAt (s : State) (p : Nat) (c : BmpColour) :
    SameExcept ([.stDone, .stWarnTopdown, .pixLen, .pos] ++ (bmpFileRegs ++ bmpInfoRegs ++ bmpColourRegs)) [.pix] s
      (rowsAt (((infoRead s).setPos p).setBmpColour c)) := by
  have hcolour := (sameExcept_infoRead s).trans ((sameExcept_setPos _ p).trans (sameExcept_setBmpColour _ c))
  have hheader : SameExcept (bmpInfoRegs ++ bmpFileRegs) [] (((infoRead s).setPos p).setBmpColour c)
      (recomputeHeader (((infoRead s).setPos p).setBmpColour c)) :=
    (sameExcept_setBmpInfo _ _).trans (sameExcept_setBmpFile _ _)
  exact ((hcolour.trans hheader).trans (sameExcept_setPos _ _)).mono (by decide) (by decide)

/-! ### The reads -/

theorem avail_startBmp (s : State) : avail (startBmp s) = s.reg .srcLen := rfl

theorem avail_fileRead (s : State) : avail (fileRead s) = s.reg .srcLen - 14 := rfl

theorem avail_infoRead (s : State) : avail (infoRead s) = s.reg .srcLen - 54 := rfl

/-- A part that begins with a read fails as the read does. -/
theorem reads_invalid {α : Type} {r : Res α} {n : Nat} {f : List Byte → State → Res α} (hr : r = (curRead n s).andThen f)
    (hv : s.reg .srcValid = 0) : r = .raised .unreadableSource 0 s := by
  rw [hr, curRead_invalid hv, Res.andThen_raised]

theorem reads_short {α : Type} {r : Res α} {n : Nat} {f : List Byte → State → Res α} (hr : r = (curRead n s).andThen f)
    (hv : s.reg .srcValid = 1) (hn : avail s < n) : r = .raised .truncatedStream (s.reg .pos) s := by
  rw [hr, curRead_short hv hn, Res.andThen_raised]

/-- DECBMP line 3 where the file header is there. -/
theorem fileRead_ok (hv : s.reg .srcValid = 1) (hl : 14 ≤ s.reg .srcLen)
    (hm : (bmpFileOf (sourceBytes s 0 14)).bfType = magicBM) : parseBmpFile (startBmp s) = .ok () (fileRead s) :=
  parseBmpFile_ok ⟨hv, hl⟩ hm

/-- DECBMP line 4 where the info header is there. -/
theorem infoRead_ok (hv : s.reg .srcValid = 1) (hl : 54 ≤ s.reg .srcLen) :
    parseBmpInfo (fileRead s) = .ok () (infoRead s) :=
  parseBmpInfo_ok ⟨hv, by rw [avail_fileRead]; omega⟩

/-- DECBMP line 6 where the colour header is there, if it is asked for. -/
theorem colourIfDeep_ok (hc : s.bmpInfo.biBitcount = 32 → CanRead s.params.colourHdrBytes s) :
    ∃ p c, colourIfDeep s = .ok () ((s.setPos p).setBmpColour c) ∧
      (s.bmpInfo.biBitcount = 32 → c = bmpColourOf (s.ahead s.params.colourHdrBytes)) ∧
      (s.bmpInfo.biBitcount = 24 → c = s.bmpColour) := by
  unfold colourIfDeep
  split
  · rename_i h32
    exact ⟨_, _, parseBmpColour_ok (hc h32), fun _ => rfl, fun h24 => by rw [h24] at h32; cases h32⟩
  · rename_i h32
    refine ⟨s.reg .pos, s.bmpColour, ?_, fun h => absurd h h32, fun _ => rfl⟩
    rw [setPos_pos, State.setBmpColour_self]

/-! ### The pixels -/

/-- Channel `c` of pixel `k` of row `r`, in a picture of whole pixels. -/
theorem pixel_place (h : BmpInfo) {r k c : Nat} (hr : r < h.rows) (hk : k < h.width.toNat) (hc : c < h.bpp) :
    r * h.rowBytes + k * h.bpp + c = (r * h.width.toNat + k) * h.bpp + c ∧
      r * h.width.toNat + k < h.need / h.bpp ∧ k * h.bpp + c < h.rowBytes := by
  have hneed : h.need = h.rows * h.width.toNat * h.bpp := by
    simp only [BmpInfo.need, BmpInfo.rowBytes]; ring
  have hrow : (r + 1) * h.width.toNat ≤ h.rows * h.width.toNat := Nat.mul_le_mul_right _ hr
  have hpixel : (k + 1) * h.bpp ≤ h.width.toNat * h.bpp := Nat.mul_le_mul_right _ hk
  rw [Nat.succ_mul] at hrow hpixel
  refine ⟨?_, ?_, ?_⟩
  · simp only [BmpInfo.rowBytes]; ring
  · rw [hneed, Nat.mul_div_cancel _ (by omega)]
    omega
  · simp only [BmpInfo.rowBytes]; omega

/-- The pixels of a completed BXROWS after BXSWAP. -/
theorem swappedRows_byte {b : Buffer} (hp : s.params.wf) (hg : BmpOk s.params s.bmpInfo)
    (hb : ∀ r j, r < s.bmpInfo.rows → j < s.bmpInfo.rowBytes →
      b.byte .pix (r * s.bmpInfo.rowBytes + j) = s.src.byte .src (s.cursor.pos.toNat + r * s.bmpInfo.stride + j))
    {r k c : Nat} (hr : r < s.bmpInfo.rows) (hk : k < s.bmpInfo.width.toNat) (hc : c < s.bmpInfo.bpp) :
    (swappedPix (rowsRead b s)).byte .pix (r * s.bmpInfo.rowBytes + k * s.bmpInfo.bpp + c) =
      s.src.byte .src (s.cursor.pos.toNat + r * s.bmpInfo.stride + k * s.bmpInfo.bpp + swapped c) := by
  have hbpp := (bmpOk_need_pos hg).2.2
  have hlen : (rowsRead b s).pix.len.toNat = s.bmpInfo.need :=
    toNat_ofNat_of_lt (Nat.lt_of_le_of_lt hg.2.2.2.2 hp.2.2.2.1)
  have hsc := (swapped_swapped hbpp hc).1
  obtain ⟨hplace, hpix, -⟩ := pixel_place s.bmpInfo hr hk hc
  obtain ⟨hplace', -, hin⟩ := pixel_place s.bmpInfo hr hk hsc
  rw [hplace]
  calc (swappedPix (rowsRead b s)).byte .pix ((r * s.bmpInfo.width.toNat + k) * s.bmpInfo.bpp + c)
    _ = b.byte .pix ((r * s.bmpInfo.width.toNat + k) * s.bmpInfo.bpp + swapped c) :=
      swappedPix_byte_in (s := rowsRead b s) hbpp (by rw [hlen]; exact hpix) hc
    _ = b.byte .pix (r * s.bmpInfo.rowBytes + (k * s.bmpInfo.bpp + swapped c)) := by rw [← hplace', Nat.add_assoc]
    _ = _ := by rw [hb r _ hr hin, Nat.add_assoc _ (k * s.bmpInfo.bpp)]

/-! ### The failures of DECBMP -/

/-- What the statement on DECBMP says of a failure. -/
abbrev DecbmpFails (s : State) (regs : List Reg) (k : ErrKind) (info p warning : Nat) (how : State → Prop) : Prop :=
  FailsFrom .decbmp s ([.stDone, .stWarnTopdown, .pixLen, .pos] ++ regs) [.pix] k info fun u =>
    u.reg .pixLen = 0 ∧ u.reg .pos = p ∧ u.reg .stWarnTopdown = warning ∧ how u

theorem decbmp_invalid (hidle : Idle s) (hv : s.reg .srcValid = 0) :
    DecbmpFails s [] .unreadableSource 0 0 0 fun _ => True :=
  ⟨startBmp s, exec_raised hidle (decodeBmp_file_raised (reads_invalid (s := startBmp s) rfl hv)), sameExcept_startBmp s,
    rfl, rfl, rfl, trivial⟩

theorem decbmp_file_short (hidle : Idle s) (hv : s.reg .srcValid = 1) (hl : s.reg .srcLen < 14) :
    DecbmpFails s [] .truncatedStream 0 0 0 fun _ => True :=
  ⟨startBmp s, exec_raised hidle (decodeBmp_file_raised (reads_short (s := startBmp s) rfl hv hl)), sameExcept_startBmp s,
    rfl, rfl, rfl, trivial⟩

theorem decbmp_badSignature (hidle : Idle s) (hv : s.reg .srcValid = 1) (hl : 14 ≤ s.reg .srcLen)
    (hm : (bmpFileOf (sourceBytes s 0 14)).bfType ≠ magicBM) :
    DecbmpFails s bmpFileRegs .badSignature (bmpFileOf (sourceBytes s 0 14)).bfType.toNat 14 0 fun u =>
      u.bmpFile = bmpFileOf (sourceBytes s 0 14) :=
  ⟨fileRead s, exec_raised hidle (decodeBmp_file_raised (parseBmpFile_badSignature (s := startBmp s) ⟨hv, hl⟩ hm)),
    sameExcept_fileRead s, rfl, rfl, rfl, rfl⟩

theorem decbmp_info_short (hidle : Idle s) (hv : s.reg .srcValid = 1) (hl : 14 ≤ s.reg .srcLen)
    (hm : (bmpFileOf (sourceBytes s 0 14)).bfType = magicBM) (hshort : s.reg .srcLen < 54) :
    DecbmpFails s bmpFileRegs .truncatedStream 14 14 0 fun u => u.bmpFile = bmpFileOf (sourceBytes s 0 14) :=
  ⟨fileRead s, exec_raised hidle (decodeBmp_info_raised (fileRead_ok hv hl hm)
    (reads_short (s := fileRead s) rfl hv (by rw [avail_fileRead]; show _ < 40; omega))),
    sameExcept_fileRead s, rfl, rfl, rfl, rfl⟩

theorem decbmp_gate (hidle : Idle s) (hv : s.reg .srcValid = 1) (hl : 54 ≤ s.reg .srcLen)
    (hm : (bmpFileOf (sourceBytes s 0 14)).bfType = magicBM) :
    BmpGateFailures s.params (bmpInfoOf (sourceBytes s 14 40)) fun info =>
      DecbmpFails s (bmpFileRegs ++ bmpInfoRegs) .unsupportedVariant info 54 0 fun u =>
        u.bmpFile = bmpFileOf (sourceBytes s 0 14) ∧ u.bmpInfo = bmpInfoOf (sourceBytes s 14 40) :=
  bmpGateFailures_imp (bmpGate_failures (infoRead s)) fun _ hgate =>
    ⟨infoRead s, exec_raised hidle (decodeBmp_gate_raised (fileRead_ok hv (by omega) hm) (infoRead_ok hv hl) hgate),
      sameExcept_infoRead s, rfl, rfl, rfl, rfl, rfl⟩

theorem decbmp_colour_short (hidle : Idle s) (hv : s.reg .srcValid = 1) (hl : 54 ≤ s.reg .srcLen)
    (hm : (bmpFileOf (sourceBytes s 0 14)).bfType = magicBM) (hg : BmpOk s.params (bmpInfoOf (sourceBytes s 14 40)))
    (h32 : (bmpInfoOf (sourceBytes s 14 40)).biBitcount = 32) (hshort : s.reg .srcLen < 54 + s.params.colourHdrBytes) :
    DecbmpFails s (bmpFileRegs ++ bmpInfoRegs) .truncatedStream 54 54 0 fun u =>
      u.bmpFile = bmpFileOf (sourceBytes s 0 14) ∧ u.bmpInfo = bmpInfoOf (sourceBytes s 14 40) := by
  have hcolour : colourIfDeep (infoRead s) = .raised .truncatedStream 54 (infoRead s) := by
    refine (if_pos h32).trans ?_
    refine reads_short (s := infoRead s) rfl hv ?_
    rw [avail_infoRead]
    show _ < s.params.colourHdrBytes
    omega
  exact ⟨infoRead s, exec_raised hidle
    (decodeBmp_colour_raised (fileRead_ok hv (by omega) hm) (infoRead_ok hv hl) hg hcolour),
    sameExcept_infoRead s, rfl, rfl, rfl, rfl, rfl⟩

/-- There is something to read where the gate passes. -/
theorem bmpOk_block_pos {p : Config.Params} {h : BmpInfo} (hg : BmpOk p h) : 0 < h.rows * h.stride := by
  obtain ⟨hneed, hrows, -⟩ := bmpOk_need_pos hg
  have hstride : h.rowBytes ≤ h.stride := by
    have hpad := h.pad_add
    omega
  have hrow : 0 < h.rowBytes := Nat.pos_of_mul_pos_right (Nat.lt_of_lt_of_le (by decide) hneed)
  exact Nat.mul_pos hrows (Nat.lt_of_lt_of_le hrow hstride)

/-! ### The rows -/

/-- The info header with BI_SIZE rewritten (R165 line 7), on which no geometry depends. -/
def BmpInfo.withSize (h : BmpInfo) (x : Word) : BmpInfo := { h with biSize := x }

@[simp] theorem BmpInfo.withSize_rows (h : BmpInfo) (x : Word) : (h.withSize x).rows = h.rows := rfl
@[simp] theorem BmpInfo.withSize_rowBytes (h : BmpInfo) (x : Word) : (h.withSize x).rowBytes = h.rowBytes := rfl
@[simp] theorem BmpInfo.withSize_stride (h : BmpInfo) (x : Word) : (h.withSize x).stride = h.stride := rfl
@[simp] theorem BmpInfo.withSize_width (h : BmpInfo) (x : Word) : (h.withSize x).width = h.width := rfl
@[simp] theorem BmpInfo.withSize_height (h : BmpInfo) (x : Word) : (h.withSize x).height = h.height := rfl
@[simp] theorem BmpInfo.withSize_bpp (h : BmpInfo) (x : Word) : (h.withSize x).bpp = h.bpp := rfl
@[simp] theorem BmpInfo.withSize_need (h : BmpInfo) (x : Word) : (h.withSize x).need = h.need := rfl
@[simp] theorem BmpInfo.withSize_biWidth (h : BmpInfo) (x : Word) : (h.withSize x).biWidth = h.biWidth := rfl
@[simp] theorem BmpInfo.withSize_biHeight (h : BmpInfo) (x : Word) : (h.withSize x).biHeight = h.biHeight := rfl

theorem rowsStop_withSize (h : BmpInfo) (x : Word) (n : Nat) : rowsStop (h.withSize x) n = rowsStop h n := rfl

theorem bmpOk_withSize (p : Config.Params) (h : BmpInfo) (x : Word) : BmpOk p (h.withSize x) ↔ BmpOk p h := Iff.rfl

/-- The state in which DECBMP reads the rows (R165 line 9), the headers read and recomputed. -/
structure RowsReady (s r : State) : Prop where
  src : r.src = s.src
  params : r.params = s.params
  srcValid : r.reg .srcValid = s.reg .srcValid
  pos : r.reg .pos = (bmpFileOf (sourceBytes s 0 14)).declOff.toNat
  warn : r.reg .stWarnTopdown = 0
  file : r.bmpFile = { bmpFileOf (sourceBytes s 0 14) with bfOffbits := BitVec.ofNat 32 (14 + headerBytes (infoRead s)) }
  info : r.bmpInfo = (bmpInfoOf (sourceBytes s 14 40)).withSize (BitVec.ofNat 32 (headerBytes (infoRead s)))
  colour32 : (bmpInfoOf (sourceBytes s 14 40)).biBitcount = 32 →
    r.bmpColour = bmpColourOf (sourceBytes s 54 s.params.colourHdrBytes)
  colour24 : (bmpInfoOf (sourceBytes s 14 40)).biBitcount = 24 → r.bmpColour = s.bmpColour
  frame : SameExcept ([.stDone, .stWarnTopdown, .pixLen, .pos] ++ (bmpFileRegs ++ bmpInfoRegs ++ bmpColourRegs)) [.pix] s r

theorem rowsReady_rowsAt {p : Nat} {c : BmpColour}
    (h32 : (bmpInfoOf (sourceBytes s 14 40)).biBitcount = 32 →
      c = bmpColourOf (sourceBytes s 54 s.params.colourHdrBytes))
    (h24 : (bmpInfoOf (sourceBytes s 14 40)).biBitcount = 24 → c = s.bmpColour) :
    RowsReady s (rowsAt (((infoRead s).setPos p).setBmpColour c)) :=
  ⟨rfl, rfl, rfl, toNat_ofNat_of_lt (Nat.lt_trans (bmpFileOf (sourceBytes s 0 14)).declOff.isLt (by decide)), rfl, rfl,
    rfl, h32, h24, sameExcept_rowsAt s p c⟩

/-- DECBMP lines 3 to 8 where the headers are there and the gate passes: what is left is BXROWS and BXSWAP. -/
theorem decodeBmp_rows (hv : s.reg .srcValid = 1)
    (hl : 14 + headerBytes (infoRead s) ≤ s.reg .srcLen) (hm : (bmpFileOf (sourceBytes s 0 14)).bfType = magicBM)
    (hg : BmpOk s.params (bmpInfoOf (sourceBytes s 14 40))) :
    ∃ r, RowsReady s r ∧ decodeBmp s = (readRows r).andThen fun _ t =>
      (swapChannels t).andThen fun _ t => .ok () (completeBmp t) := by
  have h40 : 40 ≤ headerBytes (infoRead s) := by
    unfold headerBytes
    split
    · exact Nat.le_add_right _ _
    · exact Nat.le_refl _
  obtain ⟨p, c, e, h32, h24⟩ := colourIfDeep_ok (s := infoRead s) fun h32 => by
    rw [headerBytes, if_pos h32] at hl
    refine ⟨hv, ?_⟩
    rw [avail_infoRead]
    change 14 + (40 + s.params.colourHdrBytes) ≤ _ at hl
    change s.params.colourHdrBytes ≤ _
    omega
  refine ⟨_, rowsReady_rowsAt (p := p) h32 h24, ?_⟩
  rw [decodeBmp, fileRead_ok hv (by omega) hm, Res.andThen_ok, infoRead_ok hv (by omega), Res.andThen_ok,
    bmpGate_ok hg, Res.andThen_ok, e, Res.andThen_ok]
  rfl

variable {r : State}

theorem RowsReady.bmpOk (h : RowsReady s r) (hg : BmpOk s.params (bmpInfoOf (sourceBytes s 14 40))) :
    BmpOk r.params r.bmpInfo := by
  rw [h.params, h.info]
  exact (bmpOk_withSize _ _ _).mpr hg

theorem RowsReady.avail (h : RowsReady s r) :
    avail r = s.reg .srcLen - (bmpFileOf (sourceBytes s 0 14)).declOff.toNat := by
  rw [Safety.avail, h.pos, State.reg_srcLen, h.src]
  rfl

theorem decbmp_rows_short (hidle : Idle s) (hv : s.reg .srcValid = 1)
    (hl : 14 + headerBytes (infoRead s) ≤ s.reg .srcLen) (hm : (bmpFileOf (sourceBytes s 0 14)).bfType = magicBM)
    (hg : BmpOk s.params (bmpInfoOf (sourceBytes s 14 40)))
    (hshort : s.reg .srcLen < (bmpFileOf (sourceBytes s 0 14)).declOff.toNat +
      (bmpInfoOf (sourceBytes s 14 40)).rows * (bmpInfoOf (sourceBytes s 14 40)).stride) :
    let start := (bmpFileOf (sourceBytes s 0 14)).declOff.toNat
    let p := start + rowsStop (bmpInfoOf (sourceBytes s 14 40)) (s.reg .srcLen - start)
    ∃ r, RowsReady s r ∧ DecbmpFails s (bmpFileRegs ++ bmpInfoRegs ++ bmpColourRegs) .truncatedStream p p
      (if (bmpInfoOf (sourceBytes s 14 40)).height < 0 then 1 else 0) fun u =>
        u.bmpFile = r.bmpFile ∧ u.bmpInfo = r.bmpInfo ∧ u.bmpColour = r.bmpColour := by
  intro start p
  obtain ⟨r, hr, e⟩ := decodeBmp_rows hv hl hm hg
  have hp : r.reg .pos + rowsStop r.bmpInfo (avail r) = p := by
    rw [hr.pos, hr.avail, hr.info, rowsStop_withSize]
  have hlt : p < 2 ^ 64 := hp ▸ rowsStop_lt r r.bmpInfo
  have hshort' : avail r < r.bmpInfo.rows * r.bmpInfo.stride := by
    have hpos := bmpOk_block_pos hg
    rw [hr.avail, hr.info, BmpInfo.withSize_rows, BmpInfo.withSize_stride]
    omega
  obtain ⟨b, hb, e4⟩ := readRows_short (hr.bmpOk hg) (hr.srcValid.trans hv) hshort'
  obtain ⟨hframe, hlen, hpos, hwarn⟩ := rowsStopped (s := r) hb hlt
  rw [hr.info, BmpInfo.withSize_height, hr.warn] at hwarn
  rw [e4, Res.andThen_raised, hp] at e
  exact ⟨r, hr, ((rowsBegun r).setPix b).setPos p, exec_raised hidle e,
    (hr.frame.trans hframe).mono (by decide) (by decide), hlen, hpos, hwarn, rfl, rfl, rfl⟩

/-- The state a completed DECBMP leaves, `b` the rows read. -/
def bmpDecoded (b : Buffer) (r : State) : State :=
  completeBmp ((rowsRead b r).setPix (swappedPix (rowsRead b r)))

theorem sameExcept_bmpDecoded (b : Buffer) (r : State) :
    SameExcept [.stDone, .stWarnTopdown, .outW, .outH, .pixLen, .pos] [.pix] r (bmpDecoded b r) := by
  have hdone : SameExcept [.stDone, .outW, .outH] [] ((rowsRead b r).setPix (swappedPix (rowsRead b r)))
      (bmpDecoded b r) :=
    ⟨fun q hq => by cases q <;> first | rfl | simp at hq, fun sp _ _ => by cases sp <;> rfl, rfl, rfl⟩
  have hrows : SameExcept [.pixLen, .pos, .stWarnTopdown] [.pix] r (rowsRead b r) := sameExcept_rows r _ _
  exact ((hrows.trans (sameExcept_setPix _ _)).trans hdone).mono (by decide) (by decide)

theorem bmpDecoded_regs (b : Buffer) (r : State) :
    (bmpDecoded b r).reg .stDone = 1 ∧ (bmpDecoded b r).reg .outW = r.bmpInfo.biWidth.toNat ∧
      (bmpDecoded b r).reg .outH = r.bmpInfo.biHeight.toNat ∧
      (bmpDecoded b r).reg .pixLen = (rowsRead b r).reg .pixLen ∧ (bmpDecoded b r).reg .pos = (rowsRead b r).reg .pos ∧
      (bmpDecoded b r).reg .stWarnTopdown = (rowsRead b r).reg .stWarnTopdown :=
  ⟨rfl, rfl, rfl, congrArg BitVec.toNat (swapLoop_len _ _ _ _), rfl, rfl⟩

theorem bmpDecoded_headers (b : Buffer) (r : State) : (bmpDecoded b r).bmpFile = r.bmpFile ∧
    (bmpDecoded b r).bmpInfo = r.bmpInfo ∧ (bmpDecoded b r).bmpColour = r.bmpColour :=
  ⟨rfl, rfl, rfl⟩

/-- DECBMP where the headers and the rows at the declared offset are there. -/
theorem decodeBmp_ok (hv : s.reg .srcValid = 1) (hl : 14 + headerBytes (infoRead s) ≤ s.reg .srcLen)
    (hm : (bmpFileOf (sourceBytes s 0 14)).bfType = magicBM) (hg : BmpOk s.params (bmpInfoOf (sourceBytes s 14 40)))
    (hrows : (bmpFileOf (sourceBytes s 0 14)).declOff.toNat +
      (bmpInfoOf (sourceBytes s 14 40)).rows * (bmpInfoOf (sourceBytes s 14 40)).stride ≤ s.reg .srcLen) :
    ∃ r b, RowsReady s r ∧ BmpOk r.params r.bmpInfo ∧ CanRead (r.bmpInfo.rows * r.bmpInfo.stride) r ∧
      decodeBmp s = .ok () (bmpDecoded b r) ∧
      ∀ k j, k < r.bmpInfo.rows → j < r.bmpInfo.rowBytes → b.byte .pix (k * r.bmpInfo.rowBytes + j) =
        r.src.byte .src (r.cursor.pos.toNat + k * r.bmpInfo.stride + j) := by
  obtain ⟨r, hr, e⟩ := decodeBmp_rows hv hl hm hg
  have hc : CanRead (r.bmpInfo.rows * r.bmpInfo.stride) r := by
    refine ⟨hr.srcValid.trans hv, ?_⟩
    rw [hr.avail, hr.info, BmpInfo.withSize_rows, BmpInfo.withSize_stride]
    omega
  obtain ⟨b, e4, hbytes, -, -⟩ := readRows_ok (hr.bmpOk hg) hc
  rw [e4, Res.andThen_ok, swapChannels_ok (s := rowsRead b r) (hr.bmpOk hg).1, Res.andThen_ok] at e
  exact ⟨r, b, hr, hr.bmpOk hg, hc, e, hbytes⟩

/-- Settles O41: each phase fails as its read or check does, and where none fails the phases are put together. -/
theorem decbmpDecodesAWellFormedBitmap : Obligations.DecbmpDecodesAWellFormedBitmap := by
  intro s hidle file h start headers file' h' warned fails
  refine ⟨decbmp_invalid hidle, decbmp_file_short hidle, decbmp_badSignature hidle, decbmp_info_short hidle,
    decbmp_gate hidle, decbmp_colour_short hidle, fun hv hl hm hg hshort => ?_, fun hp hv hl hm hg henough => ?_⟩
  · obtain ⟨r, hr, u, e, hframe, hlen, hpos, hwarn, hfile, hinfo, hcolour⟩ := decbmp_rows_short hidle hv hl hm hg hshort
    exact ⟨u, e, hframe, hlen, hpos, hwarn, hfile.trans hr.file, hinfo.trans hr.info,
      fun h32 => hcolour.trans (hr.colour32 h32), fun h24 => hcolour.trans (hr.colour24 h24)⟩
  · obtain ⟨r, b, hr, hok, hc, e, hbytes⟩ := decodeBmp_ok hv hl hm hg henough
    have hp' : r.params.wf := hr.params ▸ hp
    obtain ⟨-, hlen, hpos, hwarn⟩ := rowsRead_spec b hp' hok hc
    obtain ⟨hdone, houtW, houtH, hlen', hpos', hwarn'⟩ := bmpDecoded_regs b r
    obtain ⟨hfile, hinfo, hcolour⟩ := bmpDecoded_headers b r
    have hpix := fun k n j => swappedRows_byte hp' hok hbytes (r := k) (k := n) (c := j)
    rw [hr.pos] at hpos
    simp only [← State.reg_pos, hr.pos, hr.src] at hpix
    rw [hr.warn] at hwarn
    rw [hr.info] at houtW houtH hlen hpos hwarn
    simp only [hr.info] at hpix
    exact ⟨bmpDecoded b r, exec_ok hidle e, hdone, hwarn'.trans hwarn, houtW, houtH, hlen'.trans hlen, hpix,
      hpos'.trans hpos, hfile.trans hr.file, hinfo.trans hr.info,
      fun h32 => hcolour.trans (hr.colour32 h32), fun h24 => hcolour.trans (hr.colour24 h24),
      (hr.frame.trans (sameExcept_bmpDecoded b r)).mono (by decide) (by decide)⟩

end Sys2Proof.Machine
end

section
/-! The scanline defilter. -/
namespace Sys2Proof.Machine

open Sys2Proof.Safety

/-! ### One row -/

theorem toNat_add8 (a b : Byte) : (add8 a b).toNat = (a.toNat + b.toNat) % 256 := by
  simp [add8]

theorem add8_zero (a : Byte) : add8 a 0 = a := by
  rw [← BitVec.toNat_inj, toNat_add8]
  exact Nat.mod_eq_of_lt a.isLt

theorem toNat_avg (a b : Byte) : (avg a b).toNat = (a.toNat + b.toNat) / 2 := by
  have ha := a.isLt
  have hb := b.isLt
  exact toNat_ofNat_of_lt (by omega)

theorem exec_filter (f : FilterType) (s : State) : exec f.instr s = .next (applyFilter f s.defilter.dfY.toNat s) := by
  cases f <;> rfl

/-- A format F instruction on the record at DF_Y: the row is reconstructed, with the neighbours above it as they were. -/
theorem exec_filter_spec (f : FilterType) (s : State) : let w := s.reg .dfW
    let y := s.reg .dfY
    ∃ t, exec f.instr s = .next t ∧
      (∀ i, 1 ≤ i → i ≤ 4 * w → t.byte .zbuf (rowStart w y + i) = add8 (s.byte .zbuf (rowStart w y + i))
        (predictorOf f (leftOf t.zbuf w y i) (upOf s.zbuf w y i) (upleftOf s.zbuf w y i))) ∧
      (∀ a, a ≤ rowStart w y ∨ rowStart w (y + 1) ≤ a → t.byte .zbuf a = s.byte .zbuf a) ∧ SameExcept [] [.zbuf] s t := by
  intro w y
  obtain ⟨z, e, hlen, -, hrec, hout⟩ := applyFilter_spec f y s
  refine ⟨s.setZbuf z, (exec_filter f s).trans (congrArg Host.Outcome.next e), fun i h1 h2 => ?_, hout .zbuf,
    sameExcept_setZbuf_len s z hlen⟩
  obtain ⟨hup, hupleft⟩ := neighbours_congr (w := w) (y := y) h2 fun x hx => hout .zbuf x (.inl (Nat.le_of_lt hx))
  rw [← hup, ← hupleft]
  exact hrec i h1 h2

theorem leftOf_of_first {b : Buffer} {w y i : Nat} (hi : i ≤ 4) : leftOf b w y i = 0 := if_neg (by omega)

theorem leftOf_of_later {b : Buffer} {w y i : Nat} (hi : 5 ≤ i) :
    leftOf b w y i = b.byte .zbuf (rowStart w y + i - 4) := if_pos hi

theorem upOf_row_zero (b : Buffer) (w i : Nat) : upOf b w 0 i = 0 := rfl

theorem upleftOf_row_zero (b : Buffer) (w i : Nat) : upleftOf b w 0 i = 0 := if_neg (by omega)

/-- Every address of a row's samples, and the addresses outside them. -/
theorem row_cases (w y a : Nat) :
    (a ≤ rowStart w y ∨ rowStart w (y + 1) ≤ a) ∨ ∃ i, 1 ≤ i ∧ i ≤ 4 * w ∧ a = rowStart w y + i := by
  by_cases h : a ≤ rowStart w y ∨ rowStart w (y + 1) ≤ a
  · exact .inl h
  · rw [rowStart_succ] at h
    exact .inr ⟨a - rowStart w y, by omega, by omega, by omega⟩

/-- Settles O44: F_NONE's row operation is the identity. -/
theorem fNoneChangesNothing : Obligations.FNoneChangesNothing := fun _ => rfl

/-- Settles O45: the predictor is the left neighbour, 0 in the first pixel. -/
theorem fSubAddsTheLeftNeighbour : Obligations.FSubAddsTheLeftNeighbour := by
  intro s w y
  obtain ⟨t, e, hrec, hout, hframe⟩ := exec_filter_spec .sub s
  refine ⟨t, e, fun i h5 h2 => ?_, fun i h1 h4 => ?_, hout, hframe⟩
  · rw [hrec i (by omega) h2, toNat_add8]
    exact congrArg (fun x : Byte => (_ + x.toNat) % 256) (leftOf_of_later h5)
  · by_cases h2 : i ≤ 4 * w
    · have hleft : predictorOf .sub (leftOf t.zbuf w y i) (upOf s.zbuf w y i) (upleftOf s.zbuf w y i) = 0 :=
        leftOf_of_first h4
      rw [hrec i h1 h2, hleft, add8_zero]
    · have hbeyond : rowStart w (y + 1) ≤ rowStart w y + i := by
        rw [rowStart_succ]
        omega
      exact hout _ (.inr hbeyond)

/-- Settles O46: the predictor is the byte above, 0 on row 0. -/
theorem fUpAddsTheUpperNeighbour : Obligations.FUpAddsTheUpperNeighbour := by
  intro s w y
  obtain ⟨t, e, hrec, hout, hframe⟩ := exec_filter_spec .up s
  refine ⟨t, e, fun i h1 h2 hy => ?_, fun hy a => ?_, hout, hframe⟩
  · rw [hrec i h1 h2, toNat_add8]
    exact congrArg (fun x : Byte => (_ + x.toNat) % 256) (if_pos hy)
  · rcases row_cases w y a with ha | ⟨i, h1, h2, rfl⟩
    · exact hout a ha
    · have hup : predictorOf .up (leftOf t.zbuf w y i) (upOf s.zbuf w y i) (upleftOf s.zbuf w y i) = 0 := by
        rw [hy]; rfl
      rw [hrec i h1 h2, hup, add8_zero]

/-- Settles O47: the predictor is the exact sum of left and up, halved. -/
theorem fAvgAddsTheHalvedSum : Obligations.FAvgAddsTheHalvedSum := by
  intro s w y
  obtain ⟨t, e, hrec, hout, hframe⟩ := exec_filter_spec .average s
  refine ⟨t, e, fun i h1 h2 => ?_, hout, hframe⟩
  have hleft : (leftOf t.zbuf w y i).toNat = if 5 ≤ i then (t.byte .zbuf (rowStart w y + i - 4)).toNat else 0 :=
    apply_ite BitVec.toNat _ _ _
  have hup : (upOf s.zbuf w y i).toNat = if 1 ≤ y then (s.byte .zbuf (rowStart w (y - 1) + i)).toNat else 0 :=
    apply_ite BitVec.toNat _ _ _
  rw [hrec i h1 h2, toNat_add8, predictorOf, toNat_avg, hleft, hup]

/-- Where two predictors agree on every neighbourhood of the row, their loops are the same. -/
theorem reconLoop_congr_pred {pred pred' : Byte → Byte → Byte → Byte} {w y : Nat}
    (h : ∀ b i, pred (leftOf b w y i) (upOf b w y i) (upleftOf b w y i) =
      pred' (leftOf b w y i) (upOf b w y i) (upleftOf b w y i)) :
    ∀ (n i : Nat) (b : Buffer), reconLoop pred w y n i b = reconLoop pred' w y n i b
  | 0, _, _ => rfl
  | n + 1, i, b => by
    rw [reconLoop, reconLoop, h b i]
    exact reconLoop_congr_pred h n (i + 1) _

/-- On row 0 the Paeth predictor is the left neighbour. -/
theorem rowPaeth_zero (s : State) : rowPaeth 0 s = rowSub 0 s := by
  have hpred : ∀ (b : Buffer) (i : Nat), paeth (leftOf b s.defilter.dfW.toNat 0 i) (upOf b s.defilter.dfW.toNat 0 i)
      (upleftOf b s.defilter.dfW.toNat 0 i) = leftOf b s.defilter.dfW.toNat 0 i := fun b i => by
    rw [upOf_row_zero, upleftOf_row_zero, paeth_of_up_eq_upleft]
  exact congrArg s.setZbuf (reconLoop_congr_pred hpred _ _ _)

/-- Settles O48: the Paeth predictor of the three neighbours, which on row 0 is the left one. -/
theorem fPaethAddsThePredictor : Obligations.FPaethAddsThePredictor := by
  intro s w y
  obtain ⟨t, e, hrec, hout, hframe⟩ := exec_filter_spec .paeth s
  refine ⟨t, e, fun i h1 h2 => ?_, fun hy => ?_, hout, hframe⟩
  · rw [hrec i h1 h2, toNat_add8]
    rfl
  · rw [← e]
    change Host.Outcome.next (rowSub y s) = Host.Outcome.next (rowPaeth y s)
    rw [hy, rowPaeth_zero]

/-! ### The Sub loop -/

theorem reconLoop_add (pred : Byte → Byte → Byte → Byte) (w y : Nat) : ∀ (m n i : Nat) (b : Buffer),
    reconLoop pred w y (m + n) i b = reconLoop pred w y n (i + m) (reconLoop pred w y m i b)
  | 0, n, i, b => by rw [Nat.zero_add]; rfl
  | m + 1, n, i, b => by
    rw [show m + 1 + n = m + n + 1 by omega, reconLoop, reconLoop_add pred w y m n (i + 1) _,
      show i + 1 + m = i + (m + 1) by omega]
    rfl

/-- Two buffers that agree below an address that the loop does not reach agree there after it. -/
theorem reconLoop_congr {pred : Byte → Byte → Byte → Byte} {w y top : Nat} :
    ∀ (n i : Nat) (b c : Buffer), i + n ≤ 4 * w + 1 → rowStart w y + i + n ≤ top →
      (∀ x, x < top → b.byte .zbuf x = c.byte .zbuf x) →
      ∀ x, x < top → (reconLoop pred w y n i b).byte .zbuf x = (reconLoop pred w y n i c).byte .zbuf x
  | 0, _, _, _, _, _, h => h
  | n + 1, i, b, c, hi, htop, h => by
    obtain ⟨hup, hupleft⟩ := neighbours_congr (w := w) (y := y) (i := i) (by omega) fun x hx => h x (by omega)
    have hleft := leftOf_congr (w := w) (y := y) (i := i) fun x hx => h x (by omega)
    refine reconLoop_congr n (i + 1) _ _ (by omega) (by omega) fun x hx => ?_
    rw [Buffer.byte_write, Buffer.byte_write, h x hx, h _ (by omega : rowStart w y + i < top), hup, hupleft, hleft]

/-- The Sub loop over the first pixel changes nothing. -/
theorem reconLoop_sub_first {w y : Nat} (hw : 1 ≤ w) (b : Buffer) (x : Nat) :
    (reconLoop (fun left _ _ => left) w y 4 1 b).byte .zbuf x = b.byte .zbuf x := by
  by_cases hx : x < rowStart w y + 1 ∨ rowStart w y + 1 + 4 ≤ x
  · exact reconLoop_out .zbuf 4 1 b hx
  · obtain ⟨j, rfl⟩ : ∃ j, x = rowStart w y + j := ⟨x - rowStart w y, by omega⟩
    rw [reconLoop_in 4 1 b (by omega) (by omega) (by omega) (by omega), leftOf_of_first (by omega), add8_zero]

/-- Settles O49: the four offsets that the longer loop has more are those of the first pixel. -/
theorem subStartOffsetDoesNotMatter : Obligations.SubStartOffsetDoesNotMatter := by
  intro b w y a hw
  conv_rhs => rw [show 4 * w = 4 + (4 * w - 4) by omega, reconLoop_add]
  exact reconLoop_congr (top := rowStart w y + (4 * w + 1) + (a + 1)) _ _ _ _ (by omega) (by omega)
    (fun x _ => (reconLoop_sub_first hw b x).symm) a (by omega)

/-! ### DFROW -/

theorem sameExcept_fetchRow (y : Nat) (s : State) : SameExcept [.dfY, .dfFt] [] s (fetchRow y s) :=
  ⟨fun r hr => by cases r <;> first | rfl | simp at hr, fun sp _ _ => by cases sp <;> rfl, rfl, rfl⟩

/-- A row inside the image has a 32-bit number. -/
theorem dfY_fetchRow {s : State} {y : Nat} (hy : y < s.reg .dfH) : (fetchRow y s).reg .dfY = y :=
  toNat_ofNat_of_lt (Nat.lt_trans hy s.defilter.dfH.isLt)

theorem decodeRecord_eq_ok {ft : Byte} {i : Instr} (h : decodeRecord ft = .ok i) :
    ∃ f, filterOf ft = some f ∧ i = f.instr := by
  unfold decodeRecord at h
  split at h
  · rename_i f hf
    cases h
    exact ⟨f, hf, rfl⟩
  · cases h

/-- Settles O6: DFROW is the fetch, then the row operation that the fetched instruction is. -/
theorem dfrowRunsTheFetchedRecord : Obligations.DfrowRunsTheFetchedRecord := by
  intro s y i hidle hy hz hdec
  obtain ⟨f, hf, rfl⟩ := decodeRecord_eq_ok hdec
  obtain ⟨z, e, hlen, -⟩ := applyFilter_spec f y (fetchRow y s)
  have hexec : exec (.dfrow y) s = .next (applyFilter f y (fetchRow y s)) := exec_ok hidle (defilterRow_ok hy hz hf)
  have hrun : exec f.instr (fetchRow y s) = .next (applyFilter f y (fetchRow y s)) := by
    rw [exec_filter, ← State.reg_dfY, dfY_fetchRow hy]
  rw [e] at hexec hrun
  exact ⟨_, hexec, hrun, dfY_fetchRow hy, rfl, (sameExcept_fetchRow y s).trans (sameExcept_setZbuf_len _ z hlen)⟩

/-- Settles O50: DFROW's checks in their order. -/
theorem dfrowFailures : Obligations.DfrowFailures := by
  intro s y hidle w
  refine ⟨fun hy => exec_raised hidle (if_pos hy), fun hy hz => exec_raised hidle ?_, fun hy hz => ?_⟩
  · exact (if_neg (Nat.not_le.mpr hy)).trans (if_pos hz)
  · intro ft hft
    exact ⟨fetchRow y s, dfY_fetchRow hy, rfl, sameExcept_fetchRow y s,
      exec_raised hidle (defilterRow_reserved hy hz hft)⟩

/-! ### DFRUN -/

variable {f : Nat → FilterType} {s t : State} {n : Nat}

theorem Defiltered.defilter {y : Nat} (h : Defiltered f s t y n) :
    t.defilter.dfW = s.defilter.dfW ∧ t.defilter.dfH = s.defilter.dfH := by
  obtain ⟨z, d, rfl, hw, hh, -⟩ := h.state
  exact ⟨hw, hh⟩

theorem Defiltered.frame {y : Nat} (h : Defiltered f s t y n) : SameExcept [.dfY, .dfFt] [.zbuf] s t := by
  have hlen := h.len
  obtain ⟨z, d, rfl, hw, hh, -⟩ := h.state
  have hzlen : z.len = s.zbuf.len := hlen
  refine ⟨fun r hr => ?_, fun sp hs _ => by cases sp <;> first | rfl | simp at hs, rfl, rfl⟩
  cases r <;> first | rfl | exact congrArg BitVec.toNat hw | exact congrArg BitVec.toNat hh |
    exact congrArg BitVec.toNat hzlen | simp at hr

/-- What is no sample byte of the rows stays. -/
theorem Defiltered.other (h : Defiltered f s t 0 n) {a : Nat}
    (ha : ∀ y i, y < n → 1 ≤ i → i ≤ 4 * s.reg .dfW → a ≠ rowStart (s.reg .dfW) y + i) :
    t.byte .zbuf a = s.byte .zbuf a := by
  by_cases hbeyond : rowStart (s.reg .dfW) n ≤ a
  · exact h.out .zbuf a (.inr (by rw [Nat.zero_add]; exact hbeyond))
  · have hpos : 0 < recordLen (s.reg .dfW) := Nat.succ_pos _
    have hrow : a / recordLen (s.reg .dfW) < n := (Nat.div_lt_iff_lt_mul hpos).mpr (Nat.not_le.mp hbeyond)
    have hmod : a % recordLen (s.reg .dfW) ≤ 4 * s.reg .dfW := Nat.le_of_lt_succ (Nat.mod_lt a hpos)
    have hsplit : a = rowStart (s.reg .dfW) (a / recordLen (s.reg .dfW)) + a % recordLen (s.reg .dfW) :=
      (Nat.div_add_mod' a _).symm
    have hzero : a % recordLen (s.reg .dfW) = 0 := by
      by_contra hne
      exact ha _ _ hrow (Nat.pos_of_ne_zero hne) hmod hsplit
    rw [hzero, Nat.add_zero] at hsplit
    rw [hsplit]
    exact h.filters _

theorem Defiltered.rows_from_zero (h : Defiltered f s t 0 n) {y : Nat} (hy : y < n) :
    Reconstructs (predictorOf (f y)) (s.reg .dfW) y s.zbuf t.zbuf :=
  h.rows y (Nat.zero_le y) (by rw [Nat.zero_add]; exact hy)

/-- Settles O51: the three ways DFRUN goes, with what the rows up to its end are. -/
theorem dfrunReconstructsTheImage : Obligations.DfrunReconstructsTheImage := by
  intro s hidle w h
  refine ⟨fun hz => exec_raised hidle (if_pos hz), fun f hz => ⟨fun hf => ?_, fun y hy hf => ?_⟩⟩
  · obtain ⟨t, e, ht⟩ := defilterImage_ok f hz hf
    refine ⟨t, exec_ok hidle e, fun y => ht.rows_from_zero, fun a => ht.other, fun hh => ?_, fun hh => ?_, ht.frame⟩
    · obtain ⟨z, d, rfl, -, -, -, hlast⟩ := ht.state
      obtain ⟨hy, hft⟩ := hlast hh
      have hlt : 0 + h - 1 < 2 ^ 32 := by
        have hbound := s.defilter.dfH.isLt
        change h < 2 ^ 32 at hbound
        omega
      rw [Nat.zero_add] at hlt
      rw [show 0 + s.defilter.dfH.toNat - 1 = h - 1 by rw [Nat.zero_add]; rfl] at hy hft
      exact ⟨(congrArg BitVec.toNat hy).trans (toNat_ofNat_of_lt hlt), congrArg BitVec.toNat hft⟩
    · change s.defilter.dfH.toNat = 0 at hh
      rw [defilterImage, hh, Nat.zero_mul, if_neg (Nat.not_lt_zero _), defilterRows] at e
      injection e with _ e
      exact e.symm
  · intro ft hft
    obtain ⟨t, ht, e⟩ := defilterImage_reserved f hy hz hf hft
    have hdef := ht.defilter
    have hyt : y < t.reg .dfH := by rw [State.reg_dfH, hdef.2]; exact hy
    have hbyte : (fetchRow y t).reg .dfFt = ft := by
      change (t.zbuf.byte .zbuf (rowStart t.defilter.dfW.toNat y)).toNat = _
      rw [hdef.1]
      exact congrArg BitVec.toNat (ht.filters y)
    exact ⟨fetchRow y t, exec_raised hidle e, dfY_fetchRow hyt, hbyte, fun k => ht.rows_from_zero, fun a => ht.other,
      (ht.frame.trans (sameExcept_fetchRow y t)).mono (by decide) (by decide)⟩

/-! ### A reconstruction is determined by the filtered bytes -/

/-- The sample bytes of a buffer by row and offset. -/
def samples (w : Nat) (b : Buffer) (y i : Nat) : Byte := b.byte .zbuf (rowStart w y + i)

/-- `out` is the reconstruction of the filtered bytes `filt`, in `h` rows. -/
def IsRecon (f : Nat → FilterType) (w h : Nat) (filt out : Nat → Nat → Byte) : Prop :=
  ∀ y i, y < h → 1 ≤ i → i ≤ 4 * w →
    out y i = add8 (filt y i) (predictorOf (f y) (rawLeft out y i) (rawUp out y i) (rawUpleft out y i))

theorem rawLeft_samples (w : Nat) (b : Buffer) (y i : Nat) : rawLeft (samples w b) y i = leftOf b w y i := by
  unfold rawLeft leftOf samples
  split
  · rw [← Nat.add_sub_assoc (by omega)]
  · rfl

theorem rawUpleft_samples (w : Nat) (b : Buffer) (y i : Nat) : rawUpleft (samples w b) y i = upleftOf b w y i := by
  unfold rawUpleft upleftOf samples
  split
  · rw [← Nat.add_sub_assoc (by omega)]
  · rfl

/-- A buffer reconstructed row by row, as a picture. -/
theorem isRecon_samples {w h : Nat} {before after : Buffer}
    (hrows : ∀ y, y < h → Reconstructs (predictorOf (f y)) w y before after) :
    IsRecon f w h (samples w before) (samples w after) := by
  intro y i hy h1 h2
  rw [rawLeft_samples, rawUpleft_samples]
  exact hrows y hy i h1 h2

/-- The neighbours of a sample lie on its lane: two reconstructions whose filtered bytes agree on a lane agree there. -/
theorem isRecon_unique {w h lane : Nat} {filt filt' out out' : Nat → Nat → Byte} (hout : IsRecon f w h filt out)
    (hout' : IsRecon f w h filt' out')
    (hfilt : ∀ y i, y < h → 1 ≤ i → i ≤ 4 * w → i % 4 = lane → filt y i = filt' y i) (y : Nat) :
    ∀ i, y < h → 1 ≤ i → i ≤ 4 * w → i % 4 = lane → out y i = out' y i := by
  induction y using Nat.strong_induction_on with
  | _ y ihy =>
    intro i
    induction i using Nat.strong_induction_on with
    | _ i ihi =>
      intro hy h1 h2 hlane
      have hleft : rawLeft out y i = rawLeft out' y i := by
        unfold rawLeft
        split
        · exact ihi (i - 4) (by omega) hy (by omega) (by omega) (by omega)
        · rfl
      have hup : rawUp out y i = rawUp out' y i := by
        unfold rawUp
        split
        · exact ihy (y - 1) (by omega) i (by omega) h1 h2 hlane
        · rfl
      have hupleft : rawUpleft out y i = rawUpleft out' y i := by
        unfold rawUpleft
        split
        · exact ihy (y - 1) (by omega) (i - 4) (by omega) (by omega) (by omega) (by omega)
        · rfl
      rw [hout y i hy h1 h2, hout' y i hy h1 h2, hfilt y i hy h1 h2 hlane, hleft, hup, hupleft]

theorem add8_sub (a p : Byte) : add8 (a - p) p = a := by
  rw [← BitVec.toNat_inj, toNat_add8, BitVec.toNat_sub]
  have ha := a.isLt
  have hp := p.isLt
  omega

/-- A raw image is the reconstruction of its filtered bytes. -/
theorem isRecon_filterByte (f : Nat → FilterType) (w h : Nat) (raw : Nat → Nat → Byte) :
    IsRecon f w h (fun y i => filterByte (f y) raw y i) raw :=
  fun _ _ _ _ _ => (add8_sub _ _).symm

/-- Settles O52: DFRUN's result and the raw image are both the reconstruction of the filtered bytes. -/
theorem defilterInvertsTheFilter : Obligations.DefilterInvertsTheFilter := by
  intro s f raw hidle w h hz hf hfilt
  obtain ⟨t, e, ht⟩ := defilterImage_ok f hz hf
  refine ⟨t, exec_ok hidle e, fun y i hy h1 h2 => ?_⟩
  exact isRecon_unique (isRecon_samples fun y => ht.rows_from_zero) (isRecon_filterByte f w h raw)
    (fun y i hy h1 h2 _ => hfilt y i hy h1 h2) y i hy h1 h2 rfl

/-- Settles O53: on one lane the two results are reconstructions of the same filtered bytes. -/
theorem lanesReconstructIndependently : Obligations.LanesReconstructIndependently := by
  intro s s' lane hidle hidle' hw hh w h hz hz' hfilters hlane
  have hdefined : ∀ y, ∃ f, y < h → filterOf (s.byte .zbuf (rowStart w y)) = some f := fun y => by
    by_cases hy : y < h
    · obtain ⟨f, hf⟩ := filterOf_toNat.mpr (hfilters y hy).2
      exact ⟨f, fun _ => hf⟩
    · exact ⟨.none, fun hy' => absurd hy' hy⟩
  choose f hf using hdefined
  change s'.defilter.dfW.toNat = w at hw
  change s'.defilter.dfH.toNat = h at hh
  obtain ⟨t, e, ht⟩ := defilterImage_ok f hz hf
  obtain ⟨t', e', ht'⟩ := defilterImage_ok (s := s') f (by rw [hw, hh]; exact hz') fun y hy => by
    rw [hh] at hy
    rw [hw]
    exact (congrArg filterOf (hfilters y hy).1).trans (hf y hy)
  refine ⟨t, t', exec_ok hidle e, exec_ok hidle' e', fun y i hy h1 h2 hl => ?_⟩
  have hrows' : ∀ y, y < h → Reconstructs (predictorOf (f y)) w y s'.zbuf t'.zbuf := fun y hy => by
    rw [hh] at ht'
    have hrow := ht'.rows_from_zero hy
    rwa [State.reg_dfW, hw] at hrow
  exact isRecon_unique (isRecon_samples hrows') (isRecon_samples fun y => ht.rows_from_zero) hlane y i hy h1 h2 hl

end Sys2Proof.Machine
end

section
/-! The stages of the PNG sequence: CHUNKS, INFLATE, PXRUN. -/
namespace Sys2Proof.Machine

open Sys2Proof.Safety

/-! ### CHUNKS on a good stream -/

section
variable {s t : State} {body : List PngChunk}

/-- CHUNKS keeps all but its own registers and CBUF, where it completes. -/
theorem readChunks_frame (e : readChunks s = .ok () t) : SameExcept chunkRegs [.cbuf] s t := by
  have hheld := keeps_readChunks s
  have hrest := keepsRest_readChunks s
  rw [e] at hheld hrest
  exact sameExcept_chunks hheld hrest

/-- CBUF after the payloads of chunks, from empty. -/
theorem appendChunks_emptied (b : Buffer) (h : (idatBytes body).length < 2 ^ 64) :
    (appendChunks body b.emptied).len.toNat = (idatBytes body).length ∧
      (appendChunks body b.emptied).bytes .cbuf 0 (idatBytes body).length = idatBytes body := by
  have hzero : b.emptied.len.toNat = 0 := rfl
  obtain ⟨hlen, hbytes, -⟩ := appendChunks_spec body b.emptied (by rw [hzero, Nat.zero_add]; exact h)
  rw [hzero, Nat.zero_add] at hlen
  rw [hzero] at hbytes
  exact ⟨hlen, Buffer.bytes_eq rfl hbytes⟩

theorem ihdr_mem_of_head (hb : body ≠ []) (h : body = [] ∨ body.head?.map PngChunk.tag = some tagIHDR) :
    ∃ c ∈ body, c.tag = tagIHDR := by
  cases body with
  | nil => exact absurd rfl hb
  | cons c cs => exact ⟨c, List.mem_cons_self, by simpa using h⟩

theorem idat_lt {p : Config.Params} (hp : p.wf) (hg : GoodPrefix p body) : (idatBytes body).length < 2 ^ 64 :=
  Nat.lt_of_le_of_lt hg.2.2.2.2 hp.2.2.1

/-- The registers after a good stream. -/
theorem AfterStream.regs {iend : PngChunk} {p : Nat} (hp : s.params.wf) (hg : GoodStream s.params body iend)
    (h : AfterStream body iend (startChunks s) t p) :
    t.reg .clen = (idatBytes body).length ∧
      t.cbuf.bytes .cbuf 0 (idatBytes body).length = idatBytes body ∧
      t.ihdr = ihdrAfter s.ihdr body ∧ t.reg .ihdrSeen = 1 ∧
      t.reg .chLen = iend.payload.length ∧ t.reg .chTag = 0x49454E44 ∧ t.reg .chCrc = iend.crc.toNat ∧
      t.reg .pos = p := by
  obtain ⟨hbody, hpre, htag, hplen⟩ := hg
  obtain ⟨hlen, hbytes⟩ := appendChunks_emptied (body := body) s.cbuf (idat_lt hp hpre)
  have hcbuf : t.cbuf = appendChunks body s.cbuf.emptied := h.cbuf
  simp only [State.reg_clen, State.reg_chLen, State.reg_chTag, State.reg_chCrc, State.reg_ihdrSeen, hcbuf, h.chunk,
    if_pos (ihdr_mem_of_head hbody hpre.1), htag, toNat_ofNat_of_lt hplen]
  exact ⟨hlen, hbytes, h.ihdr, rfl, trivial, rfl, trivial, h.at'.pos⟩

end

/-- Settles O54: the loop over the stream, read off the state it leaves. -/
theorem chunksCollectsTheStream : Obligations.ChunksCollectsTheStream := by
  intro s body iend hidle hp hv hg hs
  obtain ⟨t, e, ht⟩ := readChunks_ok hp hv hg hs
  obtain ⟨hlen, hbytes, hihdr, hseen, hclen, htag, hcrc, hpos⟩ := ht.regs hp hg
  exact ⟨t, exec_ok hidle e, hlen, hbytes, hihdr, hseen, hclen, htag, hcrc, hpos, readChunks_frame e⟩

/-! ### How CHUNKS fails -/

section
variable {s t u : State} {p : Nat} {k : ErrKind} {info : Nat}

/-- CHUNKS fails as its first turn does. -/
theorem readChunks_first_raised (h : chunkTurn true (startChunks s) = .raised k info u) :
    readChunks s = .raised k info u := by
  rw [readChunks, chunkTurns, chunkLoop, h, Res.andThen_raised]

theorem sourceHolds_self {n : Nat} (h : p + n ≤ s.reg .srcLen) : SourceHolds s p (sourceBytes s p n) :=
  have hlen : (sourceBytes s p n).length = n := Buffer.bytes_length _ _ _ _
  ⟨by rw [hlen], by rw [hlen]; exact h⟩

/-- A read at a position below SRC_LEN gives the source's bytes there. -/
theorem At.read {n : Nat} (h : At s t p) (hv : s.reg .srcValid = 1) (hn : p + n ≤ s.reg .srcLen) :
    CanRead n t ∧ t.ahead n = sourceBytes s p n ∧ At s (t.past n) (p + n) := by
  have hlen : (sourceBytes s p n).length = n := Buffer.bytes_length _ _ _ _
  obtain ⟨hc, he⟩ := h.canRead hv (sourceHolds_self hn)
  have hpast := h.past hv (sourceHolds_self hn)
  rw [hlen] at hc he hpast
  exact ⟨hc, he, hpast⟩

/-- The state after a chunk header that is read at `p`. -/
structure HeadRead (s t u : State) (p : Nat) : Prop where
  at' : At s u (p + 8)
  len : u.chunk.chLen.toNat = beNat (sourceBytes s p 4)
  tag : u.chunk.chTag.toNat = beNat (sourceBytes s (p + 4) 4)
  seen : u.chunk.ihdrSeen = t.chunk.ihdrSeen
  ihdr : u.ihdr = t.ihdr
  cbuf : u.cbuf = t.cbuf

theorem At.parseChunk (h : At s t p) (hv : s.reg .srcValid = 1) (hn : p + 8 ≤ s.reg .srcLen) :
    ∃ u, parseChunk t = .ok () u ∧ HeadRead s t u p := by
  obtain ⟨hc, he, hpast⟩ := h.read hv hn
  refine ⟨_, parseChunk_ok hc, ⟨⟨hpast.pos, hpast.held.trans ⟨rfl, rfl, rfl, rfl, rfl, rfl, rfl⟩⟩, ?_, ?_, rfl, rfl, rfl⟩⟩
  · exact (toNat_beField_32 _ _).trans ((congrArg (beField · 0 4) he).trans (beField_bytes _ _ _ _ _ _ (by decide)))
  · exact (toNat_beField_32 _ _).trans ((congrArg (beField · 4 4) he).trans (beField_bytes _ _ _ _ _ _ (by decide)))

theorem tag_eq {x : Word} {n : Nat} (h : x.toNat = n) (y : Word) : x = y ↔ n = y.toNat := by
  rw [← BitVec.toNat_inj, h]

/-- A turn on an IHDR of fewer than 13 bytes. -/
theorem chunkTurn_ihdr_short {first : Bool} (e : parseChunk t = .ok () u) (h : HeadRead s t u p)
    (htag : beNat (sourceBytes s (p + 4) 4) = 0x49484452) (hlen : beNat (sourceBytes s p 4) < 13) :
    chunkTurn first t = .raised .truncatedStream (p + 8) u := by
  have hihdr : u.chunk.chTag = tagIHDR := (tag_eq h.tag tagIHDR).mpr htag
  rw [chunkTurn_head e, if_neg (fun hf => hf.2 hihdr), chunkPayload, if_pos hihdr, ihdrPayload, h.len, if_pos hlen,
    h.at'.pos, Res.andThen_raised]

/-- A turn on an IDAT that would pass CBUF_CAP. -/
theorem chunkTurn_idat_over {first : Bool} (e : parseChunk t = .ok () u) (h : HeadRead s t u p)
    (hfirst : first = false) (htag : beNat (sourceBytes s (p + 4) 4) = 0x49444154)
    (hcap : s.params.cbufCap < t.cbuf.len.toNat + beNat (sourceBytes s p 4)) :
    chunkTurn first t = .raised .unsupportedVariant (t.cbuf.len.toNat + beNat (sourceBytes s p 4)) u := by
  have hidat : u.chunk.chTag = tagIDAT := (tag_eq h.tag tagIDAT).mpr htag
  rw [chunkTurn_head e, if_neg (by simp [hfirst]), chunkPayload, if_neg (by rw [hidat]; decide), if_pos hidat, idatPayload,
    h.len, h.cbuf, h.at'.held.params, if_pos hcap, Res.andThen_raised]

end

section
variable {s : State} {body : List PngChunk}

/-- The state after chunks that CHUNKS goes through, seen from the state it began in. -/
theorem AfterChunks.regs {t : State} {p : Nat} (hp : s.params.wf) (hg : GoodPrefix s.params body)
    (h : AfterChunks body (startChunks s) t p) :
    t.reg .clen = (idatBytes body).length ∧ t.ihdr = ihdrAfter s.ihdr body := by
  have hcbuf : t.cbuf = appendChunks body s.cbuf.emptied := h.cbuf
  rw [State.reg_clen, hcbuf]
  exact ⟨(appendChunks_emptied s.cbuf (idat_lt hp hg)).1, h.ihdr⟩

/-- CHUNKS on a source that is not readable. -/
theorem chunks_invalid (hidle : Idle s) (hv : s.reg .srcValid = 0) : ChunksFails s .unreadableSource 0 fun u =>
    u.reg .pos = s.reg .pos ∧ u.reg .clen = 0 ∧ u.reg .ihdrSeen = 0 := by
  have hturn : chunkTurn true (startChunks s) = .raised .unreadableSource 0 (startChunks s) := by
    rw [chunkTurn, reads_invalid (s := startChunks s) (r := parseChunk (startChunks s)) rfl hv, Res.andThen_raised]
  exact chunksFails_of hidle (readChunks_first_raised hturn) ⟨rfl, rfl, rfl⟩

/-- CHUNKS on a first chunk that is not IHDR. -/
theorem chunks_not_ihdr (hidle : Idle s) (hc : CanRead 8 s)
    (htag : beNat (sourceBytes s (s.reg .pos + 4) 4) ≠ 0x49484452) :
    ChunksFails s .badSignature (beNat (sourceBytes s (s.reg .pos + 4) 4)) fun u =>
      u.reg .pos = s.reg .pos + 8 ∧ u.reg .clen = 0 ∧ u.reg .ihdrSeen = 0 := by
  have hat : At (startChunks s) (startChunks s) (s.reg .pos) := ⟨rfl, Held.refl _⟩
  obtain ⟨u, e, hu⟩ := hat.parseChunk hc.1 (pos_add_le hc (by decide))
  have hne : u.chunk.chTag ≠ tagIHDR := mt (tag_eq hu.tag tagIHDR).mp htag
  have hturn := chunkTurn_head (first := true) e
  rw [if_pos ⟨rfl, hne⟩, hu.tag] at hturn
  refine chunksFails_of hidle (readChunks_first_raised hturn) ⟨hu.at'.pos, ?_, ?_⟩
  · rw [State.reg_clen, hu.cbuf]; rfl
  · rw [State.reg_ihdrSeen, hu.seen]; rfl

/-- After chunks that CHUNKS goes through, the next header is read where they end. -/
theorem chunks_next_head (hp : s.params.wf) (hv : s.reg .srcValid = 1) (hg : GoodPrefix s.params body)
    (hs : SourceHolds s (s.reg .pos) (streamBytes body))
    (hn : s.reg .pos + (streamBytes body).length + 8 ≤ s.reg .srcLen) :
    ∃ t u, parseChunk t = .ok () u ∧ HeadRead s t u (s.reg .pos + (streamBytes body).length) ∧
      t.cbuf.len.toNat = (idatBytes body).length ∧
      u.reg .pos = s.reg .pos + (streamBytes body).length + 8 ∧ u.reg .clen = (idatBytes body).length ∧
      u.ihdr = ihdrAfter s.ihdr body ∧
      ∀ k info x, chunkTurn body.isEmpty t = .raised k info x → readChunks s = .raised k info x := by
  obtain ⟨t, ht, e⟩ := readChunks_raised hp hv hg hs
  obtain ⟨hclen, hihdr⟩ := ht.regs hp hg
  have hat : At s t (s.reg .pos + (streamBytes body).length) :=
    ⟨ht.at'.pos, ht.at'.held.src, ht.at'.held.srcValid, ht.at'.held.params, ht.at'.held.inputs, ht.at'.held.cfgFlip,
      ht.at'.held.stState, ht.at'.held.out⟩
  obtain ⟨u, eu, hu⟩ := hat.parseChunk hv hn
  refine ⟨t, u, eu, hu, hclen, hu.at'.pos, ?_, hu.ihdr.trans hihdr, e⟩
  rw [State.reg_clen, hu.cbuf]
  exact hclen

/-- CHUNKS at an IHDR or IDAT chunk that is not to be taken. -/
theorem chunks_refused (hidle : Idle s) (hp : s.params.wf) (hv : s.reg .srcValid = 1) (hg : GoodPrefix s.params body)
    (hs : SourceHolds s (s.reg .pos) (streamBytes body)) :
    let here := s.reg .pos + (streamBytes body).length
    let len := beNat (sourceBytes s here 4)
    let tag := beNat (sourceBytes s (here + 4) 4)
    here + 8 ≤ s.reg .srcLen →
    (tag = 0x49484452 → len < 13 → ChunksFails s .truncatedStream (here + 8) fun u =>
      u.reg .pos = here + 8 ∧ u.reg .clen = (idatBytes body).length ∧ u.ihdr = ihdrAfter s.ihdr body) ∧
    (body ≠ [] → tag = 0x49444154 → s.params.cbufCap < (idatBytes body).length + len →
      ChunksFails s .unsupportedVariant ((idatBytes body).length + len) fun u =>
        u.reg .pos = here + 8 ∧ u.reg .clen = (idatBytes body).length ∧ u.ihdr = ihdrAfter s.ihdr body) := by
  intro here len tag hn
  obtain ⟨t, u, e, hu, hclen, hpos, hclen', hihdr, hraise⟩ := chunks_next_head hp hv hg hs hn
  refine ⟨fun htag hlen => ?_, fun hb htag hcap => ?_⟩
  · exact chunksFails_of hidle (hraise _ _ _ (chunkTurn_ihdr_short e hu htag hlen)) ⟨hpos, hclen', hihdr⟩
  · have hfirst : body.isEmpty = false := by simpa using hb
    have hturn := chunkTurn_idat_over e hu hfirst htag (by rw [hclen]; exact hcap)
    rw [hclen] at hturn
    exact chunksFails_of hidle (hraise _ _ _ hturn) ⟨hpos, hclen', hihdr⟩

/-! ### A source that ends in a good stream -/

/-- Bytes fewer than a stream's end within one of its chunks. -/
theorem exists_cut_chunk : ∀ (l : List PngChunk) (n : Nat), n < (streamBytes l).length →
    ∃ pre c post, l = pre ++ c :: post ∧ (streamBytes pre).length ≤ n ∧
      n < (streamBytes pre).length + c.bytes.length
  | [], n, h => absurd h (Nat.not_lt_zero n)
  | c :: cs, n, h => by
    by_cases hc : n < c.bytes.length
    · exact ⟨[], c, cs, rfl, Nat.zero_le n, by simpa [streamBytes] using hc⟩
    · rw [streamBytes, List.length_append] at h
      obtain ⟨pre, d, post, rfl, h1, h2⟩ := exists_cut_chunk cs (n - c.bytes.length) (by omega)
      refine ⟨c :: pre, d, post, rfl, ?_, ?_⟩
      · rw [streamBytes, List.length_append]; omega
      · rw [streamBytes, List.length_append]; omega

theorem idatBytes_append (xs ys : List PngChunk) : idatBytes (xs ++ ys) = idatBytes xs ++ idatBytes ys := by
  induction xs with
  | nil => rfl
  | cons x xs ih =>
    simp only [List.cons_append, idatBytes, ih]
    split
    · rw [List.append_assoc]
    · rfl

/-- The chunks before one of a good stream's chunks are gone through, and that chunk is one that a whole turn takes. -/
theorem goodPrefix_of_split {p : Config.Params} {iend c : PngChunk} {pre post : List PngChunk}
    (hg : GoodStream p body iend) (h : body ++ [iend] = pre ++ c :: post) :
    GoodPrefix p pre ∧ c.payload.length < 2 ^ 32 ∧ (pre = [] → c.tag = tagIHDR) ∧
      (c.tag = tagIHDR → 13 ≤ c.payload.length ∧ IhdrOk p (ihdrOf c.payload)) ∧
      (c.tag = tagIDAT → (idatBytes pre).length + c.payload.length ≤ p.cbufCap) := by
  obtain ⟨hbody, ⟨hhead, hiend, hlen, hihdr, hcap⟩, htag, hplen⟩ := hg
  have hend : iend.tag ≠ tagIHDR ∧ iend.tag ≠ tagIDAT := by rw [htag]; decide
  rcases List.eq_nil_or_concat post with hpost | ⟨post', d, hpost⟩
  · rw [hpost] at h
    obtain ⟨rfl, hc⟩ := List.append_inj' h rfl
    obtain rfl : iend = c := (List.cons.inj hc).1
    exact ⟨⟨hhead, hiend, hlen, hihdr, hcap⟩, hplen, fun hpre => absurd hpre hbody, fun ht => absurd ht hend.1,
      fun ht => absurd ht hend.2⟩
  · rw [hpost, List.concat_eq_append, ← List.cons_append, ← List.append_assoc] at h
    obtain ⟨rfl, -⟩ := List.append_inj' h rfl
    have hc : c ∈ pre ++ c :: post' := by simp
    rw [idatBytes_append, List.length_append] at hcap
    refine ⟨⟨?_, fun x hx => hiend x (List.mem_append_left _ hx), fun x hx => hlen x (List.mem_append_left _ hx),
      fun x hx => hihdr x (List.mem_append_left _ hx), by omega⟩, hlen c hc, fun hpre => ?_, hihdr c hc, fun ht => ?_⟩
    · cases pre with
      | nil => exact .inl rfl
      | cons x xs => exact .inr (by simpa using hhead)
    · simpa [hpre] using hhead
    · rw [idatBytes, if_pos ht, List.length_append] at hcap
      omega

/-- CHUNKS on a good stream that the source ends in. -/
theorem chunks_truncated {iend : PngChunk} {n : Nat} (hidle : Idle s) (hp : s.params.wf) (hv : s.reg .srcValid = 1)
    (hg : GoodStream s.params body iend) (hn : n < (streamBytes (body ++ [iend])).length)
    (hs : SourceHolds s (s.reg .pos) ((streamBytes (body ++ [iend])).take n)) (he : s.reg .srcLen = s.reg .pos + n) :
    ∃ p, s.reg .pos ≤ p ∧ p ≤ s.reg .srcLen ∧ ChunksFails s .truncatedStream p fun u => u.reg .pos = p := by
  obtain ⟨pre, c, post, hsplit, h1, h2⟩ := exists_cut_chunk _ n hn
  obtain ⟨hpre, hlen, hfirst, hihdr, hidat⟩ := goodPrefix_of_split hg hsplit
  have hstream : (streamBytes (body ++ [iend])).take n =
      streamBytes pre ++ c.bytes.take (n - (streamBytes pre).length) := by
    rw [hsplit, streamBytes_append, streamBytes, List.take_append, List.take_of_length_le h1,
      List.take_append_of_le_length (by omega)]
  rw [hstream] at hs
  obtain ⟨hs1, hs2⟩ := sourceHolds_append.mp hs
  obtain ⟨t, ht, hraise⟩ := readChunks_raised hp hv hpre hs1
  obtain ⟨hclen, -⟩ := ht.regs hp hpre
  have hpos : t.reg .pos = s.reg .pos + (streamBytes pre).length := ht.at'.pos
  have hsrc : t.reg .srcLen = s.reg .srcLen := congrArg (fun b : Buffer => b.len.toNat) ht.at'.held.src
  have hparams : t.params = s.params := ht.at'.held.params
  obtain ⟨u, e, hlo, hhi⟩ := chunkTurn_cut (c := c) (s := t) (first := pre.isEmpty)
    ((congrArg BitVec.toNat ht.at'.held.srcValid).trans hv) hlen
    (by rw [hpos]; exact sourceHolds_congr (s := s) hs2 ht.at'.held.src) (by omega) (by omega)
    (fun hempty => hfirst (List.isEmpty_iff.mp hempty)) (by rw [hparams]; exact hihdr)
    (by rw [hparams, ← State.reg_clen, hclen]; exact hidat)
  exact ⟨u.reg .pos, by omega, by omega, chunksFails_of hidle (hraise _ _ _ e) rfl⟩

end

/-- Settles O55: the failures of the first turn, of the turn after chunks that go through, and of a turn that is cut short. -/
theorem chunksRequiresIhdrFirst : Obligations.ChunksRequiresIhdrFirst := fun _ hidle =>
  ⟨chunks_invalid hidle, chunks_not_ihdr hidle, fun _ => chunks_refused hidle, fun _ _ _ => chunks_truncated hidle⟩

/-! ### The gate -/

/-- `IhdrGate` fails with the info of the first check that is not passed, and changes nothing. -/
theorem ihdrGate_failures (s : State) :
    IhdrGateFailures s.params s.ihdr fun info => ihdrGate s = .raised .unsupportedVariant info s := by
  unfold IhdrGateFailures ihdrGate
  refine ⟨fun h1 => if_pos h1, fun h1 h2 => ?_, fun h1 h2 h3 => ?_, fun h1 h2 h3 h4 => ?_, fun h1 h2 h3 h4 h5 h6 => ?_⟩
  · exact (if_neg (not_not.mpr h1)).trans (if_pos h2)
  · exact (if_neg (not_not.mpr h1)).trans ((if_neg (not_not.mpr h2)).trans (if_pos h3))
  · exact (if_neg (not_not.mpr h1)).trans ((if_neg (not_not.mpr h2)).trans ((if_neg (not_not.mpr h3)).trans (if_pos h4)))
  · exact (if_neg (not_not.mpr h1)).trans ((if_neg (not_not.mpr h2)).trans ((if_neg (not_not.mpr h3)).trans
      ((if_neg (not_or.mpr ⟨h4, h5⟩)).trans (if_pos h6))))

/-- What holds of every info of a failing gate follows from what holds of the gate. -/
theorem ihdrGateFailures_imp {p : Config.Params} {h : Ihdr} {f g : Nat → Prop} (hf : IhdrGateFailures p h f)
    (hi : ∀ n, f n → g n) : IhdrGateFailures p h g := by
  obtain ⟨h1, h2, h3, h4, h5⟩ := hf
  exact ⟨fun a => hi _ (h1 a), fun a b => hi _ (h2 a b), fun a b c => hi _ (h3 a b c), fun a b c d => hi _ (h4 a b c d),
    fun a b c d e f => hi _ (h5 a b c d e f)⟩

/-- A turn on an IHDR whose 13 bytes are there and do not pass the gate. -/
theorem chunkTurn_gate {s t u : State} {p : Nat} {first : Bool} (hv : s.reg .srcValid = 1)
    (e : parseChunk t = .ok () u) (h : HeadRead s t u p) (htag : beNat (sourceBytes s (p + 4) 4) = 0x49484452)
    (hlen : 13 ≤ beNat (sourceBytes s p 4)) (hn : p + 21 ≤ s.reg .srcLen) :
    ∃ x, x.params = s.params ∧ x.ihdr = ihdrOf (sourceBytes s (p + 8) 13) ∧ x.reg .ihdrSeen = 1 ∧
      x.reg .pos = p + 21 ∧ x.cbuf = t.cbuf ∧
      ∀ info, ihdrGate x = .raised .unsupportedVariant info x →
        chunkTurn first t = .raised .unsupportedVariant info x := by
  have hihdr : u.chunk.chTag = tagIHDR := (tag_eq h.tag tagIHDR).mpr htag
  obtain ⟨hc, hbytes, hpast⟩ := h.at'.read (n := 13) hv (by omega)
  refine ⟨((u.past 13).setIhdr (ihdrOf (u.ahead 13))).setChunk { u.chunk with ihdrSeen := 1 }, h.at'.held.params,
    congrArg ihdrOf hbytes, rfl, hpast.pos, h.cbuf, fun info hgate => ?_⟩
  rw [chunkTurn_head e, if_neg (fun hf => hf.2 hihdr), chunkPayload, if_pos hihdr, ihdrPayload, h.len,
    if_neg (Nat.not_lt.mpr hlen), parseIhdr_ok hc, Res.andThen_ok, hgate, Res.andThen_raised, Res.andThen_raised]

/-- Settles O36: the checks in their order, and the turn of CHUNKS that applies them after chunks it goes through. -/
theorem ihdrGateChecksInOrder : Obligations.IhdrGateChecksInOrder := by
  intro s
  refine ⟨ihdrGate_failures s, ihdrGate_ok, fun body hidle hp hv hg hs => ?_⟩
  intro here h hn hlen htag
  obtain ⟨t, u, e, hu, hclen, -, -, -, hraise⟩ := chunks_next_head hp hv hg hs (by omega)
  obtain ⟨x, hparams, hihdr, hseen, hpos, hcbuf, hgate⟩ := chunkTurn_gate (first := body.isEmpty) hv e hu htag hlen hn
  have hfails := ihdrGate_failures x
  rw [hparams, hihdr] at hfails
  refine ihdrGateFailures_imp hfails fun info hi => ?_
  refine chunksFails_of hidle (hraise _ _ _ (hgate info hi)) ⟨hihdr, hseen, hpos, ?_⟩
  rw [State.reg_clen, hcbuf]
  exact hclen

/-! ### INFLATE -/

theorem inflateStream_none {s : State} (h : inflateOf s.params (s.cbuf.bytes .cbuf 0 (s.reg .clen)) = none) :
    inflateStream s = .raised .decompressionFailure 0 s := by
  rw [State.reg_clen] at h
  rw [inflateStream, h]

theorem inflateStream_some {s : State} {r : List Byte}
    (h : inflateOf s.params (s.cbuf.bytes .cbuf 0 (s.reg .clen)) = some r) :
    inflateStream s = if s.params.zbufCap < r.length then .raised .decompressionFailure r.length s
      else .ok () (s.setZbuf (s.zbuf.holding r)) := by
  rw [State.reg_clen] at h
  rw [inflateStream, h]

/-- An answer that fits is stored. -/
theorem inflateStream_ok {s : State} {r : List Byte}
    (h : inflateOf s.params (s.cbuf.bytes .cbuf 0 (s.reg .clen)) = some r) (hcap : r.length ≤ s.params.zbufCap) :
    inflateStream s = .ok () (s.setZbuf (s.zbuf.holding r)) :=
  (inflateStream_some h).trans (if_neg (Nat.not_lt.mpr hcap))

/-- Settles O56: the three answers of the capability. -/
theorem inflateStoresTheAnswer : Obligations.InflateStoresTheAnswer := by
  intro s arg hidle hp
  refine ⟨rfl, fun h => exec_raised hidle (inflateStream_none h),
    fun r h hcap => exec_raised hidle ((inflateStream_some h).trans (if_pos hcap)), fun r h hcap => ?_⟩
  exact ⟨_, exec_ok hidle (inflateStream_ok h hcap), toNat_ofNat_of_lt (Nat.lt_of_le_of_lt hcap hp.1),
    Buffer.holding_bytes _ _ r, sameExcept_setZbuf s _⟩

/-! ### PXRUN -/

/-- PIX after PXRUN. -/
abbrev extractedPix (s : State) : Buffer :=
  (pixelLoop s.cfgFlip s.defilter.dfW.toNat s.defilter.dfH.toNat s.zbuf s.defilter.dfH.toNat 0 s.pix.emptied).setLen
    (s.defilter.dfH.toNat * (4 * s.defilter.dfW.toNat))

theorem extractPixels_ok {s : State} (hz : s.reg .dfH * recordLen (s.reg .dfW) ≤ s.reg .zlen)
    (hcap : s.reg .dfH * (4 * s.reg .dfW) ≤ s.params.pixCap) :
    extractPixels s = .ok () (s.setPix (extractedPix s)) :=
  (if_neg (Nat.not_lt.mpr hz)).trans (if_neg (Nat.not_lt.mpr hcap))

theorem sourceRow_eq (s : State) (h r : Nat) :
    sourceRow s.cfgFlip h r = if s.reg .cfgFlip = 1 then h - 1 - r else r := by
  have hflip : s.cfgFlip = 1 ↔ s.reg .cfgFlip = 1 := (BitVec.toNat_inj (x := s.cfgFlip) (y := 1)).symm
  exact if_congr hflip rfl rfl

/-- Every byte of PIX after PXRUN. -/
theorem extractedPix_byte (s : State) {r j : Nat} (hr : r < s.reg .dfH) (hj : j < 4 * s.reg .dfW) :
    (extractedPix s).byte .pix (r * (4 * s.reg .dfW) + j) =
      s.byte .zbuf (rowStart (s.reg .dfW) (if s.reg .cfgFlip = 1 then s.reg .dfH - 1 - r else r) + 1 + j) := by
  have hbyte := rowsWritten_byte_in (len := 4 * s.reg .dfW) (k := r) (j := j) .pix
    (row := fun r => s.zbuf.bytes .zbuf (rowStart (s.reg .dfW) (sourceRow s.cfgFlip (s.reg .dfH) r) + 1)
      (4 * s.reg .dfW)) (s.reg .dfH) 0 s.pix.emptied (fun _ _ _ => Buffer.bytes_length _ _ _ _) (Nat.zero_le r)
    (by omega) hj
  rw [List.getElem?_eq_getElem (by rw [Buffer.bytes_length]; exact hj), Buffer.bytes_getElem, sourceRow_eq] at hbyte
  rw [extractedPix, Buffer.byte_setLen, pixelLoop_eq]
  exact Option.some.inj hbyte

theorem pixLen_extracted {s : State} (hp : s.params.wf) (hcap : s.reg .dfH * (4 * s.reg .dfW) ≤ s.params.pixCap) :
    (extractedPix s).len.toNat = s.reg .dfH * (4 * s.reg .dfW) :=
  toNat_ofNat_of_lt (Nat.lt_of_le_of_lt hcap hp.2.2.2.1)

/-- Settles O57: the two checks, and the row loop byte by byte. -/
theorem pxrunStripsAndOrdersTheRows : Obligations.PxrunStripsAndOrdersTheRows := by
  intro s arg hidle hp
  refine ⟨rfl, fun hz => exec_raised hidle (if_pos hz),
    fun hz hcap => exec_raised hidle ((if_neg (Nat.not_lt.mpr hz)).trans (if_pos hcap)), fun hz hcap => ?_⟩
  exact ⟨_, exec_ok hidle (extractPixels_ok hz hcap), pixLen_extracted hp hcap, fun r j hr hj => extractedPix_byte s hr hj,
    sameExcept_setPix s _⟩

/-- Settles O58: the same byte of ZBUF, which the one reads in row `h - 1 - r` and the other in row `r`. -/
theorem flipReversesTheRows : Obligations.FlipReversesTheRows := by
  rintro s _ hidle hp hflip rfl w h hz hcap
  refine ⟨_, _, exec_ok hidle (extractPixels_ok hz hcap),
    exec_ok (s := s.setCfgFlip 1) hidle (extractPixels_ok (s := s.setCfgFlip 1) hz hcap), rfl, fun r j hr hj => ?_⟩
  have hflipped := extractedPix_byte (s.setCfgFlip 1) hr hj
  have hplain := extractedPix_byte s (r := h - 1 - r) (j := j) (show h - 1 - r < h by omega) hj
  rw [if_neg (by rw [hflip]; decide)] at hplain
  exact hflipped.trans hplain.symm

end Sys2Proof.Machine
end

section
/-! DECPNG: its stages, where it stops, and what it leaves where it does not. -/
namespace Sys2Proof.Machine

open Sys2Proof.Safety

/-! ### The stages -/

/-- DECPNG ends well exactly through its five stages. -/
theorem decodePng_eq_ok {s t : State} {v : Unit} (h : decodePng s = .ok v t) :
    ∃ s1 s2 s3 s4 s5, checkSignature (startPng s) = .ok () s1 ∧ readChunks s1 = .ok () s2 ∧ inflateStream s2 = .ok () s3 ∧
      defilterImage (frameFromIhdr s3) = .ok () s4 ∧ extractPixels s4 = .ok () s5 ∧ t = completePng s5 := by
  obtain ⟨_, s1, e1, h1⟩ := Res.andThen_eq_ok.mp h
  obtain ⟨_, s2, e2, h2⟩ := Res.andThen_eq_ok.mp h1
  obtain ⟨_, s3, e3, h3⟩ := Res.andThen_eq_ok.mp h2
  obtain ⟨_, s4, e4, h4⟩ := Res.andThen_eq_ok.mp h3
  obtain ⟨_, s5, e5, h5⟩ := Res.andThen_eq_ok.mp h4
  injection h5 with _ h5
  exact ⟨s1, s2, s3, s4, s5, e1, e2, e3, e4, e5, h5.symm⟩

section
variable {s s1 s2 s3 s4 s5 t : State} {k : ErrKind} {n : Nat}

theorem decodePng_signature_raised (h : checkSignature (startPng s) = .raised k n t) : decodePng s = .raised k n t := by
  rw [decodePng, h, Res.andThen_raised]

theorem decodePng_chunks_raised (h1 : checkSignature (startPng s) = .ok () s1) (h : readChunks s1 = .raised k n t) :
    decodePng s = .raised k n t := by
  rw [decodePng, h1, Res.andThen_ok, h, Res.andThen_raised]

theorem decodePng_inflate_raised (h1 : checkSignature (startPng s) = .ok () s1) (h2 : readChunks s1 = .ok () s2)
    (h : inflateStream s2 = .raised k n t) : decodePng s = .raised k n t := by
  rw [decodePng, h1, Res.andThen_ok, h2, Res.andThen_ok, h, Res.andThen_raised]

theorem decodePng_defilter_raised (h1 : checkSignature (startPng s) = .ok () s1) (h2 : readChunks s1 = .ok () s2)
    (h3 : inflateStream s2 = .ok () s3) (h : defilterImage (frameFromIhdr s3) = .raised k n t) :
    decodePng s = .raised k n t := by
  rw [decodePng, h1, Res.andThen_ok, h2, Res.andThen_ok, h3, Res.andThen_ok, h, Res.andThen_raised]

theorem decodePng_ok (h1 : checkSignature (startPng s) = .ok () s1) (h2 : readChunks s1 = .ok () s2)
    (h3 : inflateStream s2 = .ok () s3) (h4 : defilterImage (frameFromIhdr s3) = .ok () s4)
    (h5 : extractPixels s4 = .ok () s5) : decodePng s = .ok () (completePng s5) := by
  rw [decodePng, h1, Res.andThen_ok, h2, Res.andThen_ok, h3, Res.andThen_ok, h4, Res.andThen_ok, h5, Res.andThen_ok]

end

/-! ### The signature -/

/-- After the signature. -/
abbrev signatureRead (s : State) : State := (startPng s).setPos 8

theorem sameExcept_startPng (s : State) : SameExcept [.stDone, .pixLen, .zlen, .pos] [.zbuf, .pix] s (startPng s) :=
  ⟨fun r hr => by cases r <;> first | rfl | simp at hr, fun sp hs _ => by cases sp <;> first | rfl | simp at hs,
    rfl, rfl⟩

theorem sameExcept_signatureRead (s : State) :
    SameExcept [.stDone, .pixLen, .zlen, .pos] [.zbuf, .pix] s (signatureRead s) :=
  ((sameExcept_startPng s).trans (sameExcept_setPos _ 8)).mono (by decide) (by decide)

theorem checkSignature_read {s : State} (hv : s.reg .srcValid = 1) (hl : 8 ≤ s.reg .srcLen) :
    checkSignature (startPng s) = if sourceBytes s 0 8 = s.params.pngSig then .ok () (signatureRead s)
      else .raised .badSignature (beField (sourceBytes s 0 8) 0 4) (signatureRead s) := by
  have hc : CanRead 8 (startPng s) := ⟨hv, hl⟩
  rw [checkSignature, curRead_ok hc]
  rfl

theorem sourceHolds_signature {s : State} {bs : List Byte} (hp : s.params.wf)
    (h : SourceHolds s 0 (s.params.pngSig ++ bs)) :
    8 ≤ s.reg .srcLen ∧ sourceBytes s 0 8 = s.params.pngSig ∧ SourceHolds s 8 bs := by
  obtain ⟨hsig, hrest⟩ := sourceHolds_append.mp h
  have hlen : s.params.pngSig.length = 8 := hp.2.2.2.2.2
  rw [hlen, Nat.zero_add] at hrest
  obtain ⟨hbytes, hle⟩ := hsig
  rw [hlen] at hbytes hle
  exact ⟨by omega, hbytes, hrest⟩

theorem checkSignature_ok {s : State} {bs : List Byte} (hv : s.reg .srcValid = 1) (hp : s.params.wf)
    (h : SourceHolds s 0 (s.params.pngSig ++ bs)) : checkSignature (startPng s) = .ok () (signatureRead s) := by
  obtain ⟨hl, hbytes, -⟩ := sourceHolds_signature hp h
  exact (checkSignature_read hv hl).trans (if_pos hbytes)

/-- What the statement on DECPNG says of a failure at the signature. -/
abbrev SignatureFails (s : State) (k : ErrKind) (info p : Nat) : Prop :=
  ∃ u, exec .decpng s = .next (takeFailure k info u) ∧ u.reg .pos = p ∧ u.reg .zlen = 0 ∧
    SameExcept [.stDone, .pixLen, .zlen, .pos] [.zbuf, .pix] s u

theorem decpng_invalid {s : State} (hidle : Idle s) (hv : s.reg .srcValid = 0) :
    SignatureFails s .unreadableSource 0 0 :=
  ⟨startPng s, exec_raised hidle (decodePng_signature_raised (reads_invalid (s := startPng s) rfl hv)), rfl, rfl,
    sameExcept_startPng s⟩

theorem decpng_short {s : State} (hidle : Idle s) (hv : s.reg .srcValid = 1) (hl : s.reg .srcLen < 8) :
    SignatureFails s .truncatedStream 0 0 :=
  ⟨startPng s, exec_raised hidle (decodePng_signature_raised (reads_short (s := startPng s) rfl hv hl)), rfl, rfl,
    sameExcept_startPng s⟩

theorem decpng_badSignature {s : State} (hidle : Idle s) (hv : s.reg .srcValid = 1) (hl : 8 ≤ s.reg .srcLen)
    (hsig : sourceBytes s 0 8 ≠ s.params.pngSig) :
    SignatureFails s .badSignature (beNat (sourceBytes s 0 4)) 8 := by
  have e := (checkSignature_read hv hl).trans (if_neg hsig)
  have hinfo : beField (sourceBytes s 0 8) 0 4 = beNat (sourceBytes s 0 4) := beField_bytes _ _ _ _ _ _ (by decide)
  rw [hinfo] at e
  exact ⟨signatureRead s, exec_raised hidle (decodePng_signature_raised e), rfl, rfl, sameExcept_signatureRead s⟩

/-! ### A stage's failure is DECPNG's -/

/-- A command and its body: where it ends FAULTED from IDLE its body raised, and where it ends in IDLE its body ended well. -/
theorem command_ends {body : State → Res Unit} {s t : State} (hkeeps : Keeps (body s) s) (h : command body s = .next t) :
    (Idle s → t.reg .stState = 1 → ∃ k n u, body s = .raised k n u ∧ t = takeFailure k n u) ∧
      (t.reg .stState = 0 → Idle s ∧ body s = .ok () t) := by
  rcases command_cases h with ⟨hf, rfl⟩ | ⟨hidle, hb⟩ | ⟨hidle, k, n, u, hb, rfl⟩
  · exact ⟨fun hi _ => absurd (hf.symm.trans hi) (by decide), fun hi => absurd (hf.symm.trans hi) (by decide)⟩
  · rw [hb] at hkeeps
    have hi : t.reg .stState = 0 := (congrArg BitVec.toNat hkeeps.stState).trans hidle
    exact ⟨fun _ hf => absurd (hf.symm.trans hi) (by decide), fun _ => ⟨hidle, hb⟩⟩
  · exact ⟨fun _ _ => ⟨k, n, u, hb, rfl⟩, fun hi => by cases hi⟩

/-- After the signature, the stages as commands one after another. -/
theorem decpng_stages {s : State} (hidle : Idle s) (hsig : checkSignature (startPng s) = .ok () (signatureRead s)) :
    ∃ t v x, exec .chunks (signatureRead s) = .next t ∧ exec .inflate t = .next v ∧
      exec .dfrun (frameFromIhdr v) = .next x ∧
      (t.reg .stState = 1 → exec .decpng s = .next t) ∧
      (t.reg .stState = 0 → v.reg .stState = 1 → exec .decpng s = .next v) ∧
      (v.reg .stState = 0 → x.reg .stState = 1 → exec .decpng s = .next x) := by
  obtain ⟨t, et⟩ : ∃ t, command readChunks (signatureRead s) = .next t := ⟨_, rfl⟩
  obtain ⟨v, ev⟩ : ∃ v, command inflateStream t = .next v := ⟨_, rfl⟩
  obtain ⟨x, ex⟩ : ∃ x, command defilterImage (frameFromIhdr v) = .next x := ⟨_, rfl⟩
  obtain ⟨tfail, tok⟩ := command_ends (keeps_readChunks _) et
  obtain ⟨vfail, vok⟩ := command_ends (keeps_inflateStream t) ev
  obtain ⟨xfail, -⟩ := command_ends (keeps_defilterImage (frameFromIhdr v)) ex
  refine ⟨t, v, x, et, ev, ex, fun ht => ?_, fun ht hv => ?_, fun hv hx => ?_⟩
  · obtain ⟨k, n, u, e, rfl⟩ := tfail hidle ht
    exact exec_raised hidle (decodePng_chunks_raised hsig e)
  · obtain ⟨k, n, u, e, rfl⟩ := vfail ht hv
    exact exec_raised hidle (decodePng_inflate_raised hsig (tok ht).2 e)
  · obtain ⟨ht, e3⟩ := vok hv
    obtain ⟨k, n, u, e, rfl⟩ := xfail hv hx
    exact exec_raised hidle (decodePng_defilter_raised hsig (tok ht).2 e3 e)

/-! ### The gate in the chunk loop -/

/-- The IHDR registers have passed the gate. -/
def Gated (s : State) : Prop := IhdrOk s.params s.ihdr

/-- A part of CHUNKS keeps the IHDR registers and the parameters. -/
theorem gated_curRead {s : State} (n : Nat) (h : Gated s) : (curRead n s).Post Gated fun _ => True :=
  curRead_post (fun _ => h) trivial

theorem gated_ihdrPayload (len : Nat) (s : State) : (ihdrPayload len s).Post Gated fun _ => True := by
  unfold ihdrPayload
  split
  · trivial
  · refine Res.Post.andThen (Q := fun _ => True) ((keeps_parseIhdr s).mono (fun _ _ => trivial) fun _ _ => trivial)
      fun _ t _ => ?_
    refine Res.Post.andThen (Q := Gated) ?_ fun _ u hu => (gated_curRead _ hu).andThen fun _ _ => id
    cases e : ihdrGate t with
    | ok v u =>
      obtain ⟨rfl, hok⟩ := ihdrGate_eq_ok e
      exact hok
    | raised k n u => trivial

theorem gated_chunkPayload {tag : Word} (len : Nat) {s : State} (h : tag ≠ tagIHDR → Gated s) :
    (chunkPayload tag len s).Post Gated fun _ => True := by
  unfold chunkPayload
  split
  · exact gated_ihdrPayload len s
  rename_i htag
  split
  · unfold idatPayload
    split
    · trivial
    · exact (gated_curRead len (h htag)).andThen fun _ _ ht => ht
  · exact (gated_curRead len (h htag)).andThen fun _ _ ht => ht

theorem gated_chunkTurn {first : Bool} {s : State} (h : first = false → Gated s) :
    (chunkTurn first s).Post Gated fun _ => True := by
  refine Res.Post.andThen (Q := fun t => first = false → Gated t) ?_ fun _ t ht => ?_
  · exact Res.Post.andThen (Q := fun t => first = false → Gated t) (curRead_post (fun _ => h) trivial) fun _ _ ht => ht
  · simp only
    split
    · trivial
    · rename_i hfirst
      refine Res.Post.andThen (gated_chunkPayload _ fun htag => ht ?_) fun _ u hu =>
        Res.Post.andThen (Q := Gated) ((gated_curRead 4 hu).andThen fun _ _ hw => hw) fun _ _ hw => hw
      by_contra hne
      exact hfirst ⟨by simpa using hne, htag⟩

theorem gated_chunkLoop : ∀ (n : Nat) (first : Bool) (s : State), (first = false → Gated s) →
    (chunkLoop n first s).Post Gated fun _ => True
  | 0, _, _, _ => trivial
  | n + 1, first, _, h => (gated_chunkTurn h).andThen fun stop t ht => by
      split
      · exact ht
      · exact gated_chunkLoop n false t fun _ => ht

/-- CHUNKS completes only with IHDR registers that pass the gate. -/
theorem readChunks_gated {s t : State} {v : Unit} (h : readChunks s = .ok v t) : IhdrOk t.params t.ihdr := by
  have hpost := gated_chunkLoop (chunkTurns (startChunks s)) true (startChunks s) nofun
  rw [show chunkLoop _ true (startChunks s) = .ok v t from h] at hpost
  exact hpost

/-! ### The image -/

theorem inflateStream_eq_ok {s t : State} {v : Unit} (h : inflateStream s = .ok v t) : ∃ z, t = s.setZbuf z := by
  unfold inflateStream at h
  split at h
  · cases h
  split at h
  · cases h
  · injection h with _ h
    exact ⟨_, h.symm⟩

theorem extractPixels_eq_ok {s t : State} {v : Unit} (h : extractPixels s = .ok v t) :
    s.reg .dfH * recordLen (s.reg .dfW) ≤ s.reg .zlen ∧ s.reg .dfH * (4 * s.reg .dfW) ≤ s.params.pixCap ∧
      t = s.setPix (extractedPix s) := by
  unfold extractPixels at h
  simp only at h
  split at h
  · cases h
  split at h
  · cases h
  · rename_i hz hcap
    injection h with _ h
    exact ⟨Nat.not_lt.mp hz, Nat.not_lt.mp hcap, h.symm⟩

/-- An image that the gate passes fits PIX and has at least one pixel. -/
theorem ihdrOk_need {p : Config.Params} {h : Ihdr} (hok : IhdrOk p h) :
    h.ihHeight.toNat * (4 * h.ihWidth.toNat) ≤ p.pixCap ∧ 4 ≤ h.ihHeight.toNat * (4 * h.ihWidth.toNat) := by
  obtain ⟨-, -, -, hw, hh, hcap⟩ := hok
  have hneed : h.need = h.ihHeight.toNat * (4 * h.ihWidth.toNat) := by unfold Ihdr.need; ring
  have hw1 : 1 ≤ h.ihWidth.toNat := Nat.pos_of_ne_zero fun e => hw (BitVec.eq_of_toNat_eq e)
  have hh1 : 1 ≤ h.ihHeight.toNat := Nat.pos_of_ne_zero fun e => hh (BitVec.eq_of_toNat_eq e)
  refine ⟨hneed ▸ hcap, ?_⟩
  calc 4 = 1 * (4 * 1) := rfl
    _ ≤ h.ihHeight.toNat * (4 * h.ihWidth.toNat) := Nat.mul_le_mul hh1 (Nat.mul_le_mul_left 4 hw1)

/-- DECPNG that completes, after CHUNKS: the frame of the IHDR registers, and PIX of as many bytes as it has. -/
theorem extractPixels_frame {s3 s4 s5 : State} (hp : s3.params.wf) (e4 : defilterImage (frameFromIhdr s3) = .ok () s4)
    (e5 : extractPixels s4 = .ok () s5) :
    s5.reg .pixLen = s3.ihdr.ihHeight.toNat * (4 * s3.ihdr.ihWidth.toNat) := by
  obtain ⟨-, f, hdef, -⟩ := defilterImage_eq_ok e4
  obtain ⟨-, hcap, rfl⟩ := extractPixels_eq_ok e5
  have hparams : s4.params = s3.params := by
    have hkeeps := keeps_defilterImage (frameFromIhdr s3)
    rw [e4] at hkeeps
    exact hkeeps.params
  obtain ⟨hw, hh⟩ := hdef.defilter
  refine (pixLen_extracted (hparams ▸ hp) hcap).trans ?_
  rw [State.reg_dfW, State.reg_dfH, hw, hh]
  rfl

/-! ### Two outcomes -/

/-- A body that ends well keeps the parameters. -/
theorem Keeps.params_eq {α : Type} {r : Res α} {s t : State} {v : α} (h : Keeps r s) (e : r = .ok v t) :
    t.params = s.params := by
  rw [e] at h
  exact h.params

theorem keeps_colourIfDeep (s : State) : Keeps (colourIfDeep s) s := by
  unfold colourIfDeep
  split
  · exact keeps_parseBmpColour s
  · exact Held.refl s

theorem pixLen_decodeBmp {s t : State} {v : Unit} (hp : s.params.wf) (h : decodeBmp s = .ok v t) :
    3 ≤ t.reg .pixLen := by
  obtain ⟨s1, s2, s3, s4, s5, e1, e2, -, e4, e5, e6, rfl⟩ := decodeBmp_eq_ok.mp h
  obtain ⟨hg, hc⟩ := readRows_eq_ok e5
  obtain ⟨b, e, -, -, -⟩ := readRows_ok hg hc
  obtain rfl : rowsRead b (rowsAt s3) = s4 := by
    rw [e] at e5; injection e5
  obtain ⟨-, rfl⟩ := swapChannels_eq_ok e6
  have hparams : (rowsAt s3).params = s.params :=
    calc s3.params = s2.params := (keeps_colourIfDeep s2).params_eq e4
      _ = s1.params := (keeps_parseBmpInfo s1).params_eq e2
      _ = s.params := (keeps_parseBmpFile (startBmp s)).params_eq e1
  have hlen := (rowsRead_spec b (hparams ▸ hp) hg hc).2.1
  have hneed := (bmpOk_need_pos hg).1
  rw [← hlen] at hneed
  exact hneed.trans (Nat.le_of_eq (congrArg BitVec.toNat (swapLoop_len _ _ _ _)).symm)

theorem keeps_checkSignature (s : State) : Keeps (checkSignature s) s :=
  (keeps_curRead 8 s).andThen fun _ t => by
    split
    · exact Held.refl t
    · exact Held.refl t

theorem pixLen_decodePng {s t : State} {v : Unit} (hp : s.params.wf) (h : decodePng s = .ok v t) :
    3 ≤ t.reg .pixLen := by
  obtain ⟨s1, s2, s3, s4, s5, e1, e2, e3, e4, e5, rfl⟩ := decodePng_eq_ok h
  have hparams : s2.params = s.params :=
    calc s2.params = s1.params := (keeps_readChunks s1).params_eq e2
      _ = s.params := (keeps_checkSignature (startPng s)).params_eq e1
  have hok := readChunks_gated e2
  obtain ⟨z, rfl⟩ := inflateStream_eq_ok e3
  have hlen := extractPixels_frame (s3 := s2.setZbuf z) (hparams ▸ hp) e4 e5
  have hneed := (ihdrOk_need hok).2
  change 3 ≤ s5.reg .pixLen
  rw [hlen]
  exact Nat.le_of_succ_le hneed

/-- A command whose body marks the result as done where it ends well. -/
theorem decode_outcomes {i : Instr} {s : State} (hidle : Idle s) (hk : i.format = .k) (hclr : i ≠ .clr)
    (hpost : (bodyOf i s).Post (fun t => Held s { t with out := s.out } ∧ t.status.stDone = 1) (Held s))
    (hlen : ∀ v t, bodyOf i s = .ok v t → 3 ≤ t.reg .pixLen) :
    ∃ t, exec i s = .next t ∧
      ((t.reg .stDone = 1 ∧ t.reg .stState = 0 ∧ 3 ≤ t.reg .pixLen) ∨
       (t.reg .stDone = 0 ∧ t.reg .stState = 1 ∧ t.reg .pixLen = 0 ∧ 1 ≤ t.reg .stErr ∧ t.reg .stErr ≤ 5)) := by
  cases e : bodyOf i s with
  | ok v t =>
    rw [e] at hpost
    obtain ⟨hheld, hdone⟩ := hpost
    exact ⟨t, exec_ok hidle e hk hclr, .inl ⟨congrArg BitVec.toNat hdone,
      (congrArg BitVec.toNat hheld.stState).trans hidle, hlen v t e⟩⟩
  | raised k n u =>
    obtain ⟨hlow, hhigh⟩ := k.code_range
    exact ⟨takeFailure k n u, exec_raised hidle e hk hclr, .inr ⟨rfl, rfl, rfl, hlow, hhigh⟩⟩

/-- Settles O12: the body of a whole decode ends well with a picture, or it raises. -/
theorem wholeDecodeHasTwoOutcomes : Obligations.WholeDecodeHasTwoOutcomes := by
  rintro i s hidle hp (rfl | rfl)
  · exact decode_outcomes hidle rfl nofun (decodeBmp_post s) fun _ _ => pixLen_decodeBmp hp
  · exact decode_outcomes hidle rfl nofun (decodePng_post s) fun _ _ => pixLen_decodePng hp

end Sys2Proof.Machine
end

section
/-! DECPNG on a well-formed image. -/
namespace Sys2Proof.Machine

open Sys2Proof.Safety

variable {s t x : State} {f : Nat → FilterType} {w h : Nat}

theorem sameExcept_completePng (s : State) : SameExcept [.stDone, .outW, .outH] [] s (completePng s) :=
  ⟨fun r hr => by cases r <;> first | rfl | simp at hr, fun sp _ _ => by cases sp <;> rfl, rfl, rfl⟩

/-- What a reconstruction leaves besides ZBUF and the defilter registers. -/
theorem Defiltered.others {y n : Nat} (hd : Defiltered f s x y n) :
    x.ihdr = s.ihdr ∧ x.cbuf = s.cbuf ∧ x.cursor = s.cursor ∧ x.params = s.params := by
  obtain ⟨z, d, rfl, -⟩ := hd.state
  exact ⟨rfl, rfl, rfl, rfl⟩

/-- A reconstruction is one of every buffer with the same filtered bytes. -/
theorem reconstructs_congr_before {pred : Byte → Byte → Byte → Byte} {y : Nat} {b c after : Buffer}
    (hr : Reconstructs pred w y b after)
    (hbc : ∀ i, 1 ≤ i → i ≤ 4 * w → b.byte .zbuf (rowStart w y + i) = c.byte .zbuf (rowStart w y + i)) :
    Reconstructs pred w y c after := fun i h1 h2 => by
  rw [hr i h1 h2, hbc i h1 h2]

/-- Two buffers that hold the same bytes give them alike. -/
theorem holding_byte_eq (b c : Buffer) {r : List Byte} {j : Nat} (hj : j < r.length) :
    (b.holding r).byte .zbuf j = (c.holding r).byte .zbuf j := by
  rw [Buffer.holding_byte _ _ _ _ hj, Buffer.holding_byte _ _ _ _ hj]

/-- DFRUN on an answer that holds the image with defined filter types. -/
theorem defilterImage_holding {b : Buffer} {r : List Byte} (hz : s.zbuf = b.holding r) (hw : s.reg .dfW = w)
    (hh : s.reg .dfH = h) (hr : r.length < 2 ^ 64) (hsize : h * recordLen w ≤ r.length)
    (hfilters : ∀ y, y < h → (r[rowStart w y]?).bind filterOf = some (f y)) :
    ∃ x, defilterImage s = .ok () x ∧ Defiltered f s x 0 h ∧
      ∀ (c : Buffer) (y : Nat), y < h → Reconstructs (predictorOf (f y)) w y (c.holding r) x.zbuf := by
  subst hw hh
  have hlen : s.zbuf.len.toNat = r.length := by rw [hz]; exact toNat_ofNat_of_lt hr
  have hin : ∀ y i, y < s.reg .dfH → i ≤ 4 * s.reg .dfW → rowStart (s.reg .dfW) y + i < r.length := fun y i hy hi => by
    have hrow := rowStart_lt (w := s.reg .dfW) hy
    have htop : rowStart (s.reg .dfW) (s.reg .dfH) ≤ r.length := hsize
    omega
  obtain ⟨x, e, hx⟩ := defilterImage_ok f (s := s) (by rw [hlen]; exact hsize) fun y hy => by
    have hlt : rowStart (s.reg .dfW) y < r.length := hin y 0 hy (Nat.zero_le _)
    have hbyte := hfilters y hy
    rw [List.getElem?_eq_getElem hlt] at hbyte
    rw [hz, ← State.reg_dfW, Buffer.holding_byte _ _ _ _ hlt]
    exact hbyte
  refine ⟨x, e, hx, fun c y hy => reconstructs_congr_before (hx.rows_from_zero hy) fun i _ hi => ?_⟩
  rw [hz]
  exact holding_byte_eq b c (hin y i hy hi)

/-- The stages of DECPNG on a well-formed image: `t` after CHUNKS, `x` after DFRUN. -/
theorem decodePng_image {body : List PngChunk} {iend : PngChunk} {r : List Byte} (hp : s.params.wf)
    (hv : s.reg .srcValid = 1) (hg : GoodStream s.params body iend)
    (hs : SourceHolds s 0 (s.params.pngSig ++ streamBytes (body ++ [iend])))
    (hanswer : inflateOf s.params (idatBytes body) = some r) (hcap : r.length ≤ s.params.zbufCap)
    (hsize : (ihdrAfter s.ihdr body).ihHeight.toNat * recordLen (ihdrAfter s.ihdr body).ihWidth.toNat ≤ r.length)
    (hfilters : ∀ y, y < (ihdrAfter s.ihdr body).ihHeight.toNat →
      (r[rowStart (ihdrAfter s.ihdr body).ihWidth.toNat y]?).bind filterOf = some (f y)) :
    ∃ t x, SameExcept chunkRegs [.cbuf] (signatureRead s) t ∧ t.params = s.params ∧ t.ihdr = ihdrAfter s.ihdr body ∧
      t.reg .clen = (idatBytes body).length ∧ t.reg .pos = 8 + (streamBytes (body ++ [iend])).length ∧
      Defiltered f (frameFromIhdr (t.setZbuf (t.zbuf.holding r))) x 0 (ihdrAfter s.ihdr body).ihHeight.toNat ∧
      (∀ (c : Buffer) (y : Nat), y < (ihdrAfter s.ihdr body).ihHeight.toNat →
        Reconstructs (predictorOf (f y)) (ihdrAfter s.ihdr body).ihWidth.toNat y (c.holding r) x.zbuf) ∧
      x.reg .dfH * (4 * x.reg .dfW) ≤ s.params.pixCap ∧
      decodePng s = .ok () (completePng (x.setPix (extractedPix x))) := by
  have hr : r.length < 2 ^ 64 := Nat.lt_of_le_of_lt hcap hp.1
  obtain ⟨-, -, hstream⟩ := sourceHolds_signature hp hs
  obtain ⟨t, e2, ht⟩ := readChunks_ok (s := signatureRead s) hp hv hg (sourceHolds_congr (s := s) hstream rfl)
  obtain ⟨hclen, hbytes, hihdr, -, -, -, -, hpos⟩ := ht.regs (s := signatureRead s) hp hg
  change t.ihdr = ihdrAfter s.ihdr body at hihdr
  have hparams : t.params = s.params := (keeps_readChunks (signatureRead s)).params_eq e2
  have e3 : inflateStream t = .ok () (t.setZbuf (t.zbuf.holding r)) :=
    inflateStream_ok (by rw [hparams, hclen, hbytes]; exact hanswer) (by rw [hparams]; exact hcap)
  have hw : (frameFromIhdr (t.setZbuf (t.zbuf.holding r))).reg .dfW = (ihdrAfter s.ihdr body).ihWidth.toNat := by
    rw [← hihdr]; rfl
  have hh : (frameFromIhdr (t.setZbuf (t.zbuf.holding r))).reg .dfH = (ihdrAfter s.ihdr body).ihHeight.toNat := by
    rw [← hihdr]; rfl
  obtain ⟨x, e4, hx, hrec⟩ := defilterImage_holding (b := t.zbuf) rfl hw hh hr hsize hfilters
  have hxw : x.reg .dfW = (ihdrAfter s.ihdr body).ihWidth.toNat := by
    rw [← hw, State.reg_dfW, State.reg_dfW, hx.defilter.1]
  have hxh : x.reg .dfH = (ihdrAfter s.ihdr body).ihHeight.toNat := by
    rw [← hh, State.reg_dfH, State.reg_dfH, hx.defilter.2]
  have hxz : x.reg .zlen = r.length := by
    rw [State.reg_zlen, hx.len]
    exact toNat_ofNat_of_lt hr
  have hpix : x.reg .dfH * (4 * x.reg .dfW) ≤ s.params.pixCap := by
    have hneed := (ihdrOk_need (readChunks_gated e2)).1
    rwa [hparams, hihdr, ← hxw, ← hxh] at hneed
  have hxp : x.params = s.params := hx.others.2.2.2.trans hparams
  have e5 : extractPixels x = .ok () (x.setPix (extractedPix x)) :=
    extractPixels_ok (by rw [hxw, hxh, hxz]; exact hsize) (by rw [hxp]; exact hpix)
  exact ⟨t, x, readChunks_frame e2, hparams, hihdr, hclen, hpos, hx, hrec, hpix,
    decodePng_ok (checkSignature_ok hv hp hs) e2 e3 e4 e5⟩

/-- What DECPNG may change where it completes. -/
theorem sameExcept_decpng {b : Buffer} {n : Nat} (ht : SameExcept chunkRegs [.cbuf] (signatureRead s) t)
    (hx : Defiltered f (frameFromIhdr (t.setZbuf b)) x 0 n) :
    SameExcept [.stDone, .outW, .outH, .pixLen, .zlen, .clen, .pos, .dfW, .dfH, .dfY, .dfFt, .ihWidth, .ihHeight,
      .ihDepth, .ihCtype, .ihComp, .ihFilter, .ihInterlace, .ihdrSeen, .chLen, .chTag, .chCrc] [.cbuf, .zbuf, .pix] s
      (completePng (x.setPix (extractedPix x))) := by
  have hchunks := (sameExcept_signatureRead s).trans ht
  have hframe := (hchunks.trans (sameExcept_setZbuf t b)).trans
    (sameExcept_setDefilter (t.setZbuf b) { t.defilter with dfW := t.ihdr.ihWidth, dfH := t.ihdr.ihHeight })
  have hpixels := (hframe.trans hx.frame).trans (sameExcept_setPix x (extractedPix x))
  exact (hpixels.trans (sameExcept_completePng _)).mono (by decide) (by decide)

/-- Settles O59: the signature, the stages' failures, and the stages one after another on a well-formed image. -/
theorem decpngDecodesAWellFormedImage : Obligations.DecpngDecodesAWellFormedImage := by
  intro s hidle fails u
  refine ⟨decpng_invalid hidle, decpng_short hidle, decpng_badSignature hidle, fun hv hs hp => ?_,
    fun body iend r f hp hv hg hs hanswer hcap => ?_⟩
  · exact decpng_stages hidle (checkSignature_ok (bs := []) hv hp (by rw [List.append_nil]; exact hs))
  · intro head w h hsize hfilters
    obtain ⟨t, x, hchunks, hparams, hihdr, hclen, hpos, hx, hrec, hpix, e⟩ :=
      decodePng_image hp hv hg hs hanswer hcap hsize hfilters
    have hpost := decodePng_post s
    rw [e] at hpost
    obtain ⟨hheld, hdone⟩ := hpost
    obtain ⟨hxihdr, hxcbuf, hxcursor, hxparams⟩ := hx.others
    have hhead : x.ihdr = head := hxihdr.trans hihdr
    have hxw : x.reg .dfW = w :=
      (congrArg BitVec.toNat hx.defilter.1).trans (congrArg (fun i : Ihdr => i.ihWidth.toNat) hihdr)
    have hxh : x.reg .dfH = h :=
      (congrArg BitVec.toNat hx.defilter.2).trans (congrArg (fun i : Ihdr => i.ihHeight.toNat) hihdr)
    have hzlen : x.reg .zlen = r.length := by
      rw [State.reg_zlen, hx.len]
      exact toNat_ofNat_of_lt (Nat.lt_of_le_of_lt hcap hp.1)
    have hflip : x.reg .cfgFlip = s.reg .cfgFlip := congrArg BitVec.toNat hheld.cfgFlip
    have hpixLen := pixLen_extracted (s := x) (hxparams.trans hparams ▸ hp) (by rw [hxparams.trans hparams]; exact hpix)
    have hpixels := fun y j => extractedPix_byte x (r := y) (j := j)
    rw [hxw, hxh] at hpixLen
    simp only [hxw, hxh, hflip] at hpixels
    exact ⟨_, exec_ok hidle e, congrArg BitVec.toNat hdone, (congrArg BitVec.toNat hheld.stState).trans hidle,
      congrArg (fun i : Ihdr => i.ihWidth.toNat) hhead, congrArg (fun i : Ihdr => i.ihHeight.toNat) hhead, hpixLen,
      hrec s.zbuf, hpixels, hhead, hzlen, (congrArg (fun b : Buffer => b.len.toNat) hxcbuf).trans hclen,
      (congrArg (fun c : Cursor => c.pos.toNat) hxcursor).trans hpos, hxw, hxh, sameExcept_decpng hchunks hx⟩

end Sys2Proof.Machine
end

section
/-! What a result depends on: two states that agree on the source go through a command alike. -/
namespace Sys2Proof.Machine

open Sys2Proof.Safety

variable {α β : Type} {Q Q' : State → State → Prop}

/-! ### Results alike -/

/-- Both end well, with the same value and states that `Q` relates, or both raise the same failure. -/
def Res.Alike (Q : State → State → Prop) : Res α → Res α → Prop
  | .ok v s, .ok v' s' => v' = v ∧ Q s s'
  | .raised k n _, .raised k' n' _ => k' = k ∧ n' = n
  | _, _ => False

theorem Res.Alike.andThen {r r' : Res α} {f f' : α → State → Res β} (h : r.Alike Q r')
    (hf : ∀ v t t', Q t t' → (f v t).Alike Q' (f' v t')) : (r.andThen f).Alike Q' (r'.andThen f') := by
  cases r <;> cases r'
  case ok.ok v t v' t' =>
    obtain ⟨rfl, hq⟩ := h
    exact hf v' t t' hq
  case raised.raised => exact h
  all_goals exact absurd h id

theorem Res.Alike.mono {r r' : Res α} (h : r.Alike Q r') (hQ : ∀ t t', Q t t' → Q' t t') : r.Alike Q' r' := by
  cases r <;> cases r'
  case ok.ok => exact ⟨h.1, hQ _ _ h.2⟩
  all_goals exact h

theorem Res.Alike.ite {c : Prop} [Decidable c] {r r' x x' : Res α} (h : c → r.Alike Q r') (hn : ¬ c → x.Alike Q x') :
    (if c then r else x).Alike Q (if c then r' else x') := by
  by_cases hc : c
  · rw [if_pos hc, if_pos hc]; exact h hc
  · rw [if_neg hc, if_neg hc]; exact hn hc

/-- Where one of two results alike ends well, so does the other. -/
theorem Res.Alike.ok {r r' : Res α} {v : α} {t : State} (h : r.Alike Q r') (e : r = .ok v t) :
    ∃ t', r' = .ok v t' ∧ Q t t' := by
  subst e
  cases r' with
  | ok v' t' =>
    obtain ⟨rfl, hq⟩ := h
    exact ⟨t', rfl, hq⟩
  | raised => exact absurd h id

/-- Where one of two results alike raises, the other raises the same. -/
theorem Res.Alike.raised {r r' : Res α} {k : ErrKind} {n : Nat} {t : State} (h : r.Alike Q r')
    (e : r = .raised k n t) : ∃ t', r' = .raised k n t' := by
  subst e
  cases r' with
  | ok => exact absurd h id
  | raised k' n' t' =>
    obtain ⟨rfl, rfl⟩ := h
    exact ⟨t', rfl⟩

/-! ### The same source -/

/-- Two states with the same parameters and source, read at the same position. -/
structure SameSource (s s' : State) : Prop where
  params : s'.params = s.params
  byte : ∀ a, s'.src.byte .src a = s.src.byte .src a
  len : s'.src.len = s.src.len
  srcValid : s'.cursor.srcValid = s.cursor.srcValid
  pos : s'.cursor.pos = s.cursor.pos

variable {s s' : State}

theorem SameSource.past (h : SameSource s s') (n : Nat) : SameSource (s.past n) (s'.past n) :=
  ⟨h.params, h.byte, h.len, h.srcValid, congrArg (fun p : Long => BitVec.ofNat 64 (p.toNat + n)) h.pos⟩

/-- What begins with a read goes on alike, with the bytes read. -/
theorem SameSource.read {n : Nat} {f f' : List Byte → State → Res α} (h : SameSource s s')
    (hf : ∀ v, v.length = n → (f v (s.past n)).Alike Q (f' v (s'.past n))) :
    ((curRead n s).andThen f).Alike Q ((curRead n s').andThen f') := by
  have hbytes : s'.src.bytes .src s.cursor.pos.toNat n = s.src.bytes .src s.cursor.pos.toNat n :=
    Buffer.bytes_congr fun j _ _ => h.byte j
  unfold curRead
  rw [h.srcValid, h.len, h.pos, hbytes]
  split
  · exact ⟨rfl, rfl⟩
  split
  · exact ⟨rfl, rfl⟩
  · have hgo := hf (s.ahead n) (Buffer.bytes_length _ _ _ _)
    rw [State.past, State.past, h.pos] at hgo
    exact hgo

theorem SameSource.skip {n : Nat} (h : SameSource s s') (hQ : Q (s.past n) (s'.past n)) :
    (curSkip n s).Alike Q (curSkip n s') :=
  h.read fun _ _ => ⟨rfl, hQ⟩

/-- Two buffers that agree below an address agree below the end of what is written there. -/
theorem byte_writeBytes_congr {sp : Space} {b b' : Buffer} {a : Nat} (vs : List Byte)
    (h : ∀ x, x < a → b'.byte sp x = b.byte sp x) {x : Nat} (hx : x < a + vs.length) :
    (b'.writeBytes a vs).byte sp x = (b.writeBytes a vs).byte sp x := by
  by_cases ha : x < a
  · rw [Buffer.byte_writeBytes_out _ _ _ _ _ (.inl ha), Buffer.byte_writeBytes_out _ _ _ _ _ (.inl ha), h x ha]
  · obtain ⟨j, rfl⟩ := Nat.exists_eq_add_of_le (Nat.not_lt.mp ha)
    rw [Buffer.byte_writeBytes_in _ _ _ _ _ (by omega), Buffer.byte_writeBytes_in _ _ _ _ _ (by omega)]

/-! ### The BMP headers -/

/-- Two states in which DECBMP or its commands have read the same headers, BI_SIZE aside. -/
structure SameBmp (s s' : State) : Prop extends SameSource s s' where
  declOff : s'.bmpFile.declOff = s.bmpFile.declOff
  info : s'.bmpInfo.withSize 0 = s.bmpInfo.withSize 0

theorem alike_parseBmpFile (h : SameSource s s') :
    (parseBmpFile s).Alike (fun t t' => SameSource t t' ∧ t'.bmpFile.declOff = t.bmpFile.declOff) (parseBmpFile s') :=
  h.read fun _ _ => .ite (fun _ => ⟨rfl, { h.past _ with }, rfl⟩) fun _ => ⟨rfl, rfl⟩

theorem alike_parseBmpInfo (h : SameSource s s') (hoff : s'.bmpFile.declOff = s.bmpFile.declOff) :
    (parseBmpInfo s).Alike SameBmp (parseBmpInfo s') :=
  h.read fun _ _ => ⟨rfl, { h.past _ with declOff := hoff, info := rfl }⟩

/-- What does not look at BI_SIZE is the same of both headers. -/
theorem SameBmp.eq {f : BmpInfo → α} (h : SameBmp s s') (hf : ∀ i x, f (i.withSize x) = f i) :
    f s'.bmpInfo = f s.bmpInfo :=
  (hf _ 0).symm.trans ((congrArg f h.info).trans (hf _ 0))

theorem SameBmp.biBitcount (h : SameBmp s s') : s'.bmpInfo.biBitcount = s.bmpInfo.biBitcount :=
  h.eq fun _ _ => rfl

theorem SameBmp.need (h : SameBmp s s') : s'.bmpInfo.need = s.bmpInfo.need := h.eq fun _ _ => rfl

theorem alike_bmpGate (h : SameBmp s s') : (bmpGate s).Alike SameBmp (bmpGate s') := by
  have hcomp : s'.bmpInfo.biCompression = s.bmpInfo.biCompression := h.eq fun _ _ => rfl
  have hwidth : s'.bmpInfo.width = s.bmpInfo.width := h.eq fun _ _ => rfl
  have hheight : s'.bmpInfo.height = s.bmpInfo.height := h.eq fun _ _ => rfl
  unfold bmpGate
  simp only [h.params, h.biBitcount, hcomp, hwidth, hheight, h.need]
  exact .ite (fun _ => ⟨rfl, rfl⟩) fun _ => .ite (fun _ => ⟨rfl, rfl⟩) fun _ => .ite (fun _ => ⟨rfl, rfl⟩) fun _ =>
    .ite (fun _ => ⟨rfl, rfl⟩) fun _ => ⟨rfl, h⟩

theorem alike_colourIfDeep (h : SameBmp s s') : (colourIfDeep s).Alike SameBmp (colourIfDeep s') := by
  unfold colourIfDeep parseBmpColour
  rw [h.biBitcount, h.params]
  exact .ite (fun _ => h.toSameSource.read fun _ _ => ⟨rfl, { h.past _ with declOff := h.declOff, info := h.info }⟩)
    fun _ => ⟨rfl, h⟩

/-- The cursor at the declared offset, whether the header is recomputed or not. -/
theorem SameBmp.rowsAt (h : SameBmp s s') : SameBmp (rowsAt s) (rowsAt s') :=
  { h with pos := congrArg (fun x : Word => BitVec.ofNat 64 x.toNat) h.declOff }

theorem SameBmp.seek (h : SameBmp s s') : SameBmp (Machine.rowsAt s) (s'.setPos s'.bmpFile.declOff.toNat) :=
  { h with pos := congrArg (fun x : Word => BitVec.ofNat 64 x.toNat) h.declOff }

/-! ### The pixels -/

/-- Two states with the same bytes in PIX. -/
structure SamePix (s s' : State) : Prop where
  pixLen : s'.pix.len = s.pix.len
  pixels : ∀ a, a < s.pix.len.toNat → s'.pix.byte .pix a = s.pix.byte .pix a

/-- The row loop reads the same rows. -/
theorem alike_bmpRowLoop (rowBytes pad : Nat) : ∀ (n r : Nat) (s s' : State), SameBmp s s' →
    (∀ a, a < r * rowBytes → s'.pix.byte .pix a = s.pix.byte .pix a) →
    (bmpRowLoop rowBytes pad n r s).Alike (fun t t' => SameBmp t t' ∧ t.bmpInfo = s.bmpInfo ∧
      ∀ a, a < (r + n) * rowBytes → t'.pix.byte .pix a = t.pix.byte .pix a) (bmpRowLoop rowBytes pad n r s')
  | 0, _, _, _, h, hb => ⟨rfl, h, rfl, hb⟩
  | n + 1, r, s, s', h, hb => h.toSameSource.read fun v hv => by
      have hwrite : SameSource ((s.past rowBytes).setPix (s.pix.writeBytes (r * rowBytes) v))
          ((s'.past rowBytes).setPix (s'.pix.writeBytes (r * rowBytes) v)) := { h.past rowBytes with }
      refine (hwrite.skip (Q := fun t t' => SameBmp t t' ∧ t.bmpInfo = s.bmpInfo ∧
        ∀ a, a < (r + 1) * rowBytes → t'.pix.byte .pix a = t.pix.byte .pix a)
        ⟨{ hwrite.past pad with declOff := h.declOff, info := h.info }, rfl, fun a ha => ?_⟩).andThen ?_
      · refine byte_writeBytes_congr v hb ?_
        rwa [hv, ← Nat.succ_mul]
      · intro _ t t' ⟨ht, hinfo, hbt⟩
        have hloop := alike_bmpRowLoop rowBytes pad n (r + 1) t t' ht hbt
        rw [hinfo, Nat.add_right_comm] at hloop
        exact hloop

theorem alike_bmpPixels (h : SameBmp s s') :
    (bmpPixels s.bmpInfo s).Alike (fun t t' => SameBmp t t' ∧ t.bmpInfo = s.bmpInfo ∧
      ∀ a, a < s.bmpInfo.need → t'.pix.byte .pix a = t.pix.byte .pix a) (bmpPixels s'.bmpInfo s') := by
  have hpad : s'.bmpInfo.pad = s.bmpInfo.pad := h.eq fun _ _ => rfl
  have hrowBytes : s'.bmpInfo.rowBytes = s.bmpInfo.rowBytes := h.eq fun _ _ => rfl
  have hrows : s'.bmpInfo.rows = s.bmpInfo.rows := h.eq fun _ _ => rfl
  unfold bmpPixels
  rw [hpad, h.need, hrowBytes, hrows]
  refine .ite (fun _ => h.toSameSource.read fun v hv => ⟨rfl,
    { h.past s.bmpInfo.need with declOff := h.declOff, info := h.info }, rfl, fun a ha => ?_⟩) fun _ => ?_
  · exact byte_writeBytes_congr v (fun x hx => absurd hx (Nat.not_lt_zero x)) (by rwa [hv, Nat.zero_add])
  · have hloop := alike_bmpRowLoop s.bmpInfo.rowBytes s.bmpInfo.pad s.bmpInfo.rows 0 s s' h fun a ha =>
      absurd (by rwa [Nat.zero_mul] at ha) (Nat.not_lt_zero a)
    rw [Nat.zero_add, Nat.mul_comm] at hloop
    exact hloop

theorem alike_readRows (h : SameBmp s s') :
    (readRows s).Alike (fun t t' => SameBmp t t' ∧ SamePix t t') (readRows s') := by
  refine (alike_bmpGate h).andThen fun _ t t' ht => ?_
  have hbegun : SameBmp (rowsBegun t) (rowsBegun t') := { ht with }
  refine (alike_bmpPixels hbegun).andThen fun _ x x' ⟨hx, hinfo, hbytes⟩ => ⟨rfl, { hx with }, ?_, fun a ha => ?_⟩
  · exact congrArg (BitVec.ofNat 64) hx.need
  · have hneed : x.bmpInfo.need = t.bmpInfo.need := congrArg BmpInfo.need hinfo
    refine hbytes a (Nat.lt_of_lt_of_le ha ?_)
    exact (BitVec.toNat_ofNat _ _).trans_le ((Nat.mod_le _ _).trans (Nat.le_of_eq hneed))

/-- Two buffers that agree below an address agree there after whole pixels below it are swapped. -/
theorem swapLoop_congr {bpp top : Nat} (hb : 3 ≤ bpp) : ∀ (n p : Nat) (b b' : Buffer), (p + n) * bpp ≤ top →
    (∀ a, a < top → b'.byte .pix a = b.byte .pix a) →
    ∀ a, a < top → (swapLoop bpp n p b').byte .pix a = (swapLoop bpp n p b).byte .pix a
  | 0, _, _, _, _, h => h
  | n + 1, p, b, b', htop, h => by
    have hpixel : p * bpp + bpp ≤ top := by
      have hle : (p + 1) * bpp ≤ (p + (n + 1)) * bpp := Nat.mul_le_mul_right _ (by omega)
      rw [Nat.succ_mul] at hle
      omega
    refine swapLoop_congr hb n (p + 1) _ _ (by rwa [Nat.add_right_comm]) fun a ha => ?_
    simp only [swapPixel, Buffer.byte_write]
    rw [h a ha, h (p * bpp) (by omega), h (p * bpp + 2) (by omega)]

theorem alike_swapChannels (h : SameBmp s s') (hp : SamePix s s') :
    (swapChannels s).Alike (fun t t' => SameBmp t t' ∧ SamePix t t') (swapChannels s') := by
  have hbpp : s'.bmpInfo.bpp = s.bmpInfo.bpp := h.eq fun _ _ => rfl
  unfold swapChannels
  simp only [h.biBitcount, hbpp, hp.pixLen]
  refine .ite (fun _ => ⟨rfl, rfl⟩) fun hd => ⟨rfl, { h with }, ?_, fun a ha => ?_⟩
  · exact (swapLoop_len _ _ _ _).trans (hp.pixLen.trans (swapLoop_len _ _ _ _).symm)
  · have hlen : (swappedPix s).len = s.pix.len := swapLoop_len _ _ _ _
    refine swapLoop_congr (three_le_bpp (by tauto)) _ 0 s.pix s'.pix ?_ hp.pixels a (hlen ▸ ha)
    rw [Nat.zero_add]
    exact Nat.div_mul_le_self _ _

/-! ### DECBMP and its commands -/

theorem sameSource_start (hp : s'.params = s.params) (hb : ∀ a, s'.byte .src a = s.byte .src a)
    (hl : s'.reg .srcLen = s.reg .srcLen) (hv : s'.reg .srcValid = s.reg .srcValid) (n : Nat) :
    SameSource (s.setPos n) (s'.setPos n) :=
  ⟨hp, hb, BitVec.eq_of_toNat_eq hl, BitVec.eq_of_toNat_eq hv, rfl⟩

theorem alike_decodeBmp (h : SameSource (startBmp s) (startBmp s')) :
    (decodeBmp s).Alike (fun t t' => SamePix t t' ∧ t'.out = t.out) (decodeBmp s') := by
  refine (alike_parseBmpFile h).andThen fun _ _ _ ⟨h1, hoff⟩ => ?_
  refine (alike_parseBmpInfo h1 hoff).andThen fun _ _ _ h2 => ?_
  refine (alike_bmpGate h2).andThen fun _ _ _ h3 => ?_
  refine (alike_colourIfDeep h3).andThen fun _ t t' h4 => ?_
  refine Res.Alike.andThen (Q := SameBmp) ⟨rfl, h4.rowsAt⟩ fun _ _ _ h5 => ?_
  refine (alike_readRows h5).andThen fun _ _ _ ⟨h6, hpix⟩ => ?_
  refine (alike_swapChannels h6 hpix).andThen fun _ x x' ⟨h7, hpix'⟩ => ⟨rfl, { hpix' with }, ?_⟩
  have hw : x'.bmpInfo.biWidth = x.bmpInfo.biWidth := h7.eq fun _ _ => rfl
  have hh : x'.bmpInfo.biHeight = x.bmpInfo.biHeight := h7.eq fun _ _ => rfl
  change Output.mk _ _ = Output.mk _ _
  rw [hw, hh]

/-- One command of a sequence, where its body ends well. -/
theorem runAll_ok {i : Instr} {t : State} (hidle : Idle s) (e : bodyOf i s = .ok () t)
    (hk : i.format = .k := by rfl) (hclr : i ≠ .clr := by nofun) :
    (∀ is, runAll (i :: is) s = runAll is t) ∧ Idle t := by
  have hpost := bodyOf_post i s
  rw [e] at hpost
  refine ⟨fun is => ?_, (congrArg BitVec.toNat hpost.2).trans hidle⟩
  rw [runAll, exec_ok hidle e hk hclr]

/-- PBMPC in a sequence, at 32 bits per pixel only. -/
theorem runAll_colour {t : State} (hidle : Idle s) (e : colourIfDeep s = .ok () t) :
    (∀ is, runAll ((if s.reg .biBitcount = 32 then [.pbmpc] else []) ++ is) s = runAll is t) ∧ Idle t := by
  have hdeep : s.reg .biBitcount = 32 ↔ s.bmpInfo.biBitcount = 32 :=
    BitVec.toNat_inj (x := s.bmpInfo.biBitcount) (y := 32)
  unfold colourIfDeep at e
  split at e
  · rename_i h32
    rw [if_pos (hdeep.mpr h32)]
    exact runAll_ok (i := .pbmpc) hidle e
  · rename_i h32
    rw [if_neg (mt hdeep.mp h32)]
    cases e
    exact ⟨fun _ => rfl, hidle⟩

theorem colourIfDeep_eq_ok {t : State} (h : colourIfDeep s = .ok () t) :
    t.bmpInfo = s.bmpInfo := by
  unfold colourIfDeep at h
  split at h
  · obtain ⟨-, rfl⟩ := parseBmpColour_eq_ok h
    rfl
  · cases h
    rfl

/-- The headers that DECBMP leaves are those it read, BI_SIZE and BF_OFFBITS aside. -/
theorem rows_headers {s3 s4 s5 : State} (e5 : readRows (rowsAt s3) = .ok () s4) (e6 : swapChannels s4 = .ok () s5) :
    s5.reg .biBitcount = s3.reg .biBitcount ∧ s5.reg .declOff = s3.reg .declOff := by
  obtain ⟨hg, hc⟩ := readRows_eq_ok e5
  obtain ⟨b, e, -, -, -⟩ := readRows_ok hg hc
  obtain rfl : rowsRead b (rowsAt s3) = s4 := by
    rw [e] at e5; injection e5
  obtain ⟨-, rfl⟩ := swapChannels_eq_ok e6
  exact ⟨rfl, rfl⟩

/-- Settles O42: each command of the sequence goes through as DECBMP's own phase does. -/
theorem decbmpEqualsItsCommandSequence : Obligations.DecbmpEqualsItsCommandSequence := by
  intro s t hidle hp e hdone
  have hbody : decodeBmp s = .ok () t := by
    rcases command_cases e with ⟨hf, -⟩ | ⟨-, hb⟩ | ⟨-, k, n, u, -, rfl⟩
    · exact absurd (hf.symm.trans hidle) (by decide)
    · exact hb
    · exact absurd hdone Nat.zero_ne_one
  obtain ⟨s1, s2, s3, s4, s5, e1, e2, -, e4, e5, e6, rfl⟩ := decodeBmp_eq_ok.mp hbody
  obtain ⟨hbits, hoff⟩ := rows_headers e5 e6
  have hstart : SameSource (startBmp s) (s.setPos 0) := ⟨rfl, fun _ => rfl, rfl, rfl, rfl⟩
  obtain ⟨u1, f1, h1, hoff1⟩ := (alike_parseBmpFile hstart).ok e1
  obtain ⟨u2, f2, h2⟩ := (alike_parseBmpInfo h1 hoff1).ok e2
  obtain ⟨u3, f3, h3⟩ := (alike_colourIfDeep h2).ok e4
  obtain ⟨u4, f4, h4, hpix4⟩ := (alike_readRows h3.seek).ok e5
  obtain ⟨u5, f5, h5, hpix5⟩ := (alike_swapChannels h4 hpix4).ok e6
  obtain ⟨r0, i0⟩ := runAll_ok (i := .seek 0) hidle rfl
  obtain ⟨r1, i1⟩ := runAll_ok (i := .pbmpf) i0 f1
  obtain ⟨r2, i2⟩ := runAll_ok (i := .pbmpi) i1 f2
  obtain ⟨r3, i3⟩ := runAll_colour i2 f3
  obtain ⟨r4, i4⟩ := runAll_ok (i := .seek (u3.reg .declOff)) i3 rfl
  obtain ⟨r5, i5⟩ := runAll_ok (i := .bxrows) i4 f4
  obtain ⟨r6, i6⟩ := runAll_ok (i := .bxswap) i5 f5
  have hdeep : (completeBmp s5).reg .biBitcount = u2.reg .biBitcount := by
    have h32 : s3.reg .biBitcount = s2.reg .biBitcount :=
      congrArg (fun h : BmpInfo => h.biBitcount.toNat) (colourIfDeep_eq_ok e4)
    exact (hbits.trans h32).trans (congrArg BitVec.toNat h2.biBitcount).symm
  have hdecl : (completeBmp s5).reg .declOff = u3.reg .declOff :=
    hoff.trans (congrArg BitVec.toNat h3.declOff).symm
  refine ⟨u5, ?_, congrArg BitVec.toNat hpix5.pixLen, congrArg BitVec.toNat h5.pos, i6, hpix5.pixels⟩
  rw [hdeep, hdecl, List.append_assoc]
  exact (r0 _).trans ((r1 _).trans ((r2 _).trans ((r3 _).trans ((r4 _).trans ((r5 _).trans (r6 []))))))

end Sys2Proof.Machine
end

section
/-! A whole decode depends on the source, the parameters and the flip flag. -/
namespace Sys2Proof.Machine

open Sys2Proof.Safety

variable {s s' : State}

/-! ### CHUNKS -/

/-- Two states in CHUNKS with the same bytes in CBUF and, once `known`, the same IHDR registers. -/
structure SamePng (known : Prop) (s s' : State) : Prop extends SameSource s s' where
  cfgFlip : s'.cfgFlip = s.cfgFlip
  clen : s'.cbuf.len = s.cbuf.len
  compressed : ∀ a, a < s.cbuf.len.toNat → s'.cbuf.byte .cbuf a = s.cbuf.byte .cbuf a
  ihdr : known → s'.ihdr = s.ihdr

variable {known : Prop}

theorem SamePng.past (h : SamePng known s s') (n : Nat) : SamePng known (s.past n) (s'.past n) :=
  { h with toSameSource := h.toSameSource.past n }

theorem alike_ihdrGate (h : SamePng True s s') : (ihdrGate s).Alike (SamePng True) (ihdrGate s') := by
  unfold ihdrGate
  simp only [h.params, h.ihdr trivial]
  exact .ite (fun _ => ⟨rfl, rfl⟩) fun _ => .ite (fun _ => ⟨rfl, rfl⟩) fun _ => .ite (fun _ => ⟨rfl, rfl⟩) fun _ =>
    .ite (fun _ => ⟨rfl, rfl⟩) fun _ => .ite (fun _ => ⟨rfl, rfl⟩) fun _ => ⟨rfl, h⟩

theorem alike_ihdrPayload (len : Nat) (h : SamePng known s s') :
    (ihdrPayload len s).Alike (SamePng True) (ihdrPayload len s') := by
  unfold ihdrPayload
  rw [h.pos]
  refine .ite (fun _ => ⟨rfl, rfl⟩) fun _ => ?_
  have hparse : (parseIhdr s).Alike (SamePng True) (parseIhdr s') :=
    h.toSameSource.read fun _ _ => ⟨rfl, { h.past 13 with ihdr := fun _ => rfl }⟩
  exact hparse.andThen fun _ _ _ ht => (alike_ihdrGate ht).andThen fun _ _ _ hu => hu.toSameSource.skip (hu.past _)

theorem alike_idatPayload (len : Nat) (h : SamePng True s s') :
    (idatPayload len s).Alike (SamePng True) (idatPayload len s') := by
  unfold idatPayload
  rw [h.params, h.clen]
  refine .ite (fun _ => ⟨rfl, rfl⟩) fun _ => h.toSameSource.read fun v hv => ⟨rfl, { h.past len with
    clen := ?_, compressed := fun a ha => ?_ }⟩
  · exact congrArg (fun n : Long => BitVec.ofNat 64 (n.toNat + len)) h.clen
  · have hlt : a < s.cbuf.len.toNat + v.length := by
      rw [hv]
      exact Nat.lt_of_lt_of_le ha ((BitVec.toNat_ofNat _ _).trans_le (Nat.mod_le _ _))
    change (s'.cbuf.writeBytes s'.cbuf.len.toNat v).byte .cbuf a = _
    rw [h.clen]
    exact byte_writeBytes_congr v h.compressed hlt

theorem alike_chunkPayload (tag : Word) (len : Nat) (h : SamePng known s s') (hk : tag ≠ tagIHDR → known) :
    (chunkPayload tag len s).Alike (SamePng True) (chunkPayload tag len s') := by
  refine .ite (fun _ => alike_ihdrPayload len h) fun htag => ?_
  have hk' : SamePng True s s' := { h with ihdr := fun _ => h.ihdr (hk htag) }
  exact .ite (fun _ => alike_idatPayload len hk') fun _ => hk'.toSameSource.skip (hk'.past len)

theorem alike_chunkCrc (h : SamePng True s s') : (chunkCrc s).Alike (SamePng True) (chunkCrc s') :=
  h.toSameSource.read fun _ _ => ⟨rfl, { h.past 4 with }⟩

theorem alike_chunkTurn (first : Bool) (h : SamePng (first = false) s s') :
    (chunkTurn first s).Alike (SamePng True) (chunkTurn first s') := by
  refine Res.Alike.andThen (Q := fun t t' => SamePng (first = false) t t' ∧ t'.chunk.chTag = t.chunk.chTag ∧
    t'.chunk.chLen = t.chunk.chLen) (h.toSameSource.read fun _ _ => ⟨rfl, { h.past 8 with }, rfl, rfl⟩) ?_
  intro _ t t' ⟨ht, htag, hlen⟩
  simp only [htag, hlen]
  refine .ite (fun _ => ⟨rfl, rfl⟩) fun hfirst => ?_
  refine (alike_chunkPayload _ _ ht fun hne => ?_).andThen fun _ _ _ hu =>
    (alike_chunkCrc hu).andThen fun _ _ _ hw => ⟨rfl, hw⟩
  by_contra hf
  exact hfirst ⟨by simpa using hf, hne⟩

theorem alike_chunkLoop : ∀ (n : Nat) (first : Bool) (s s' : State), SamePng (first = false) s s' →
    (chunkLoop n first s).Alike (SamePng True) (chunkLoop n first s')
  | 0, _, _, _, h => ⟨rfl, congrArg BitVec.toNat h.pos⟩
  | n + 1, first, _, _, h => (alike_chunkTurn first h).andThen fun _ _ _ ht =>
      .ite (fun _ => ⟨rfl, ht⟩) fun _ => alike_chunkLoop n false _ _ { ht with ihdr := fun _ => ht.ihdr trivial }

theorem alike_readChunks (h : SameSource s s') (hflip : s'.cfgFlip = s.cfgFlip) :
    (readChunks s).Alike (SamePng True) (readChunks s') := by
  have hstart : SamePng (true = false) (startChunks s) (startChunks s') :=
    { h with cfgFlip := hflip, clen := rfl, compressed := fun a ha => absurd ha (Nat.not_lt_zero a), ihdr := nofun }
  have hturns : chunkTurns (startChunks s') = chunkTurns (startChunks s) := by
    rw [chunkTurns, chunkTurns, hstart.len, hstart.pos]
  rw [readChunks, readChunks, hturns]
  exact alike_chunkLoop _ _ _ _ hstart

/-! ### The image -/

/-- Two states with the same image in ZBUF, frame and IHDR registers. -/
structure SameImage (s s' : State) : Prop where
  params : s'.params = s.params
  cfgFlip : s'.cfgFlip = s.cfgFlip
  ihdr : s'.ihdr = s.ihdr
  zlen : s'.zbuf.len = s.zbuf.len
  stored : ∀ a, a < s.zbuf.len.toNat → s'.zbuf.byte .zbuf a = s.zbuf.byte .zbuf a
  dfW : s'.defilter.dfW = s.defilter.dfW
  dfH : s'.defilter.dfH = s.defilter.dfH

theorem alike_inflateStream (h : SamePng True s s') :
    (inflateStream s).Alike (fun t t' => SameImage (frameFromIhdr t) (frameFromIhdr t')) (inflateStream s') := by
  have hbytes : s'.cbuf.bytes .cbuf 0 s.cbuf.len.toNat = s.cbuf.bytes .cbuf 0 s.cbuf.len.toNat :=
    Buffer.bytes_congr fun j _ hj => h.compressed j (by omega)
  unfold inflateStream
  rw [h.params, h.clen, hbytes]
  split
  · exact ⟨rfl, rfl⟩
  rename_i r _
  refine .ite (fun _ => ⟨rfl, rfl⟩) fun _ => ⟨rfl, h.params, h.cfgFlip, h.ihdr trivial, rfl, fun a ha => ?_,
    congrArg Ihdr.ihWidth (h.ihdr trivial), congrArg Ihdr.ihHeight (h.ihdr trivial)⟩
  have hlt : a < r.length := Nat.lt_of_lt_of_le ha ((BitVec.toNat_ofNat _ _).trans_le (Nat.mod_le _ _))
  exact holding_byte_eq s'.zbuf s.zbuf hlt

theorem sameImage_reconRow {pred : Byte → Byte → Byte → Byte} {y : Nat} (h : SameImage s s')
    (hy : rowStart s.defilter.dfW.toNat (y + 1) ≤ s.zbuf.len.toNat) :
    SameImage (reconRow pred y s) (reconRow pred y s') := by
  have hstart := rowStart_succ s.defilter.dfW.toNat y
  refine { h with zlen := ?_, stored := fun a ha => ?_ }
  · exact (reconLoop_len _ _ _ _ _ _).trans (h.zlen.trans (reconLoop_len _ _ _ _ _ _).symm)
  · have hlen : a < s.zbuf.len.toNat := (congrArg BitVec.toNat (reconLoop_len _ _ _ _ _ _)) ▸ ha
    have hloop := reconLoop_congr (pred := pred) (w := s.defilter.dfW.toNat) (y := y) (4 * s.defilter.dfW.toNat) 1
      s'.zbuf s.zbuf (by omega) (by omega) h.stored a hlen
    change (reconLoop pred s'.defilter.dfW.toNat y (4 * s'.defilter.dfW.toNat) 1 s'.zbuf).byte .zbuf a = _
    rw [h.dfW]
    exact hloop

theorem sameImage_applyFilter (f : FilterType) {y : Nat} (h : SameImage s s')
    (hy : rowStart s.defilter.dfW.toNat (y + 1) ≤ s.zbuf.len.toNat) :
    SameImage (applyFilter f y s) (applyFilter f y s') := by
  cases f with
  | none => exact h
  | sub => exact sameImage_reconRow h hy
  | up => exact sameImage_reconRow h hy
  | average => exact sameImage_reconRow h hy
  | paeth => exact sameImage_reconRow h hy

theorem alike_defilterRow (y : Nat) (h : SameImage s s') : (defilterRow y s).Alike SameImage (defilterRow y s') := by
  unfold defilterRow
  rw [h.dfH, h.zlen, h.dfW]
  refine .ite (fun _ => ⟨rfl, rfl⟩) fun _ => .ite (fun _ => ⟨rfl, rfl⟩) fun hz => ?_
  have hwhole : rowStart s.defilter.dfW.toNat (y + 1) ≤ s.zbuf.len.toNat := Nat.not_lt.mp hz
  have hft : (fetchRow y s').defilter.dfFt = (fetchRow y s).defilter.dfFt := by
    change s'.zbuf.byte .zbuf (rowStart s'.defilter.dfW.toNat y) = _
    rw [h.dfW]
    refine h.stored _ (Nat.lt_of_lt_of_le ?_ hwhole)
    rw [rowStart_succ]
    omega
  rw [hft]
  split
  · exact ⟨rfl, sameImage_applyFilter _ (s := fetchRow y s) (s' := fetchRow y s') { h with } hwhole⟩
  · exact ⟨rfl, rfl⟩

theorem alike_defilterRows : ∀ (n y : Nat) (s s' : State), SameImage s s' →
    (defilterRows n y s).Alike SameImage (defilterRows n y s')
  | 0, _, _, _, h => ⟨rfl, h⟩
  | n + 1, y, _, _, h => (alike_defilterRow y h).andThen fun _ _ _ ht => alike_defilterRows n (y + 1) _ _ ht

theorem alike_defilterImage (h : SameImage s s') : (defilterImage s).Alike SameImage (defilterImage s') := by
  unfold defilterImage
  rw [h.zlen, h.dfH, h.dfW]
  exact .ite (fun _ => ⟨rfl, rfl⟩) fun _ => alike_defilterRows _ _ _ _ h

/-- The row loop of PXRUN writes the same rows where it reads the same rows. -/
theorem pixelLoop_congr {flip : Bit} {w h : Nat} {z z' : Buffer}
    (hz : ∀ r, r < h → z'.bytes .zbuf (rowStart w r + 1) (4 * w) = z.bytes .zbuf (rowStart w r + 1) (4 * w)) :
    ∀ (n r : Nat) (b b' : Buffer), r + n ≤ h → (∀ a, a < r * (4 * w) → b'.byte .pix a = b.byte .pix a) →
      ∀ a, a < (r + n) * (4 * w) → (pixelLoop flip w h z' n r b').byte .pix a = (pixelLoop flip w h z n r b).byte .pix a
  | 0, _, _, _, _, hb => hb
  | n + 1, r, b, b', hr, hb => by
    have hrow : sourceRow flip h r < h := by
      unfold sourceRow
      split <;> omega
    rw [pixelLoop, pixelLoop, hz _ hrow, ← Nat.add_assoc, Nat.add_right_comm]
    refine pixelLoop_congr hz n (r + 1) _ _ (by omega) fun a ha => byte_writeBytes_congr _ hb ?_
    rwa [Buffer.bytes_length, ← Nat.succ_mul]

/-- The same image gives the same pixels. -/
theorem alike_extractPixels (h : SameImage s s') :
    (extractPixels s).Alike (fun t t' => SamePix t t' ∧ t'.ihdr = t.ihdr) (extractPixels s') := by
  unfold extractPixels
  simp only [h.params, h.zlen, h.dfH, h.dfW, h.cfgFlip]
  refine .ite (fun _ => ⟨rfl, rfl⟩) fun hz => .ite (fun _ => ⟨rfl, rfl⟩) fun _ => ⟨rfl, ⟨rfl, fun a ha => ?_⟩, h.ihdr⟩
  have hlt : a < (0 + s.defilter.dfH.toNat) * (4 * s.defilter.dfW.toNat) := by
    rw [Nat.zero_add]
    exact Nat.lt_of_lt_of_le ha ((BitVec.toNat_ofNat _ _).trans_le (Nat.mod_le _ _))
  have hwhole : rowStart s.defilter.dfW.toNat s.defilter.dfH.toNat ≤ s.zbuf.len.toNat := Nat.not_lt.mp hz
  refine pixelLoop_congr (fun r hr => Buffer.bytes_congr fun j _ hj => h.stored j ?_) _ 0 _ _ (Nat.zero_add _).le
    (fun x hx => absurd hx (by rw [Nat.zero_mul]; exact Nat.not_lt_zero x)) a hlt
  have hrow := rowStart_lt (w := s.defilter.dfW.toNat) hr
  omega

/-! ### The decodes -/

theorem alike_checkSignature (h : SameSource s s') (hflip : s'.cfgFlip = s.cfgFlip) :
    (checkSignature s).Alike (fun t t' => SameSource t t' ∧ t'.cfgFlip = t.cfgFlip) (checkSignature s') := by
  refine h.read fun v _ => ?_
  rw [show (s'.past 8).params = (s.past 8).params from h.params]
  exact .ite (fun _ => ⟨rfl, h.past 8, hflip⟩) fun _ => ⟨rfl, rfl⟩

theorem alike_decodePng (h : SameSource (startPng s) (startPng s')) (hflip : s'.cfgFlip = s.cfgFlip) :
    (decodePng s).Alike (fun t t' => SamePix t t' ∧ t'.out = t.out) (decodePng s') := by
  refine (alike_checkSignature h hflip).andThen fun _ _ _ ⟨h1, hflip1⟩ => ?_
  refine (alike_readChunks h1 hflip1).andThen fun _ _ _ h2 => ?_
  refine (alike_inflateStream h2).andThen fun _ _ _ h3 => ?_
  refine (alike_defilterImage h3).andThen fun _ _ _ h4 => ?_
  refine (alike_extractPixels h4).andThen fun _ _ _ ⟨hpix, hihdr⟩ => ⟨rfl, { hpix with }, ?_⟩
  exact congrArg (fun i : Ihdr => Output.mk i.ihWidth i.ihHeight) hihdr

/-- Two whole decodes whose bodies end alike. -/
theorem exec_alike {i : Instr} (hidle : Idle s) (hidle' : Idle s') (hk : i.format = .k) (hclr : i ≠ .clr)
    (hpost : ∀ s, (bodyOf i s).Post (fun t => Held s { t with out := s.out } ∧ t.status.stDone = 1) (Held s))
    (h : (bodyOf i s).Alike (fun t t' => SamePix t t' ∧ t'.out = t.out) (bodyOf i s')) :
    ∃ t t', exec i s = .next t ∧ exec i s' = .next t' ∧
      t'.reg .stDone = t.reg .stDone ∧ t'.reg .stState = t.reg .stState ∧ t'.reg .pixLen = t.reg .pixLen ∧
      (t.reg .stState = 1 → t'.reg .stErr = t.reg .stErr ∧ t'.reg .stErrinfo = t.reg .stErrinfo) ∧
      (t.reg .stDone = 1 → t'.reg .outW = t.reg .outW ∧ t'.reg .outH = t.reg .outH ∧
        ∀ a, a < t.reg .pixLen → t'.byte .pix a = t.byte .pix a) := by
  have hs := hpost s
  have hs' := hpost s'
  cases e : bodyOf i s with
  | ok v t =>
    obtain ⟨t', e', hpix, hout⟩ := h.ok e
    rw [e] at hs
    rw [e'] at hs'
    have hi : t.reg .stState = 0 := (congrArg BitVec.toNat hs.1.stState).trans hidle
    have hi' : t'.reg .stState = 0 := (congrArg BitVec.toNat hs'.1.stState).trans hidle'
    exact ⟨t, t', exec_ok hidle e hk hclr, exec_ok hidle' e' hk hclr, congrArg BitVec.toNat (hs'.2.trans hs.2.symm),
      hi'.trans hi.symm, congrArg BitVec.toNat hpix.pixLen, fun hf => absurd (hf.symm.trans hi) (by decide),
      fun _ => ⟨congrArg (fun o : Output => o.outW.toNat) hout, congrArg (fun o : Output => o.outH.toNat) hout,
        hpix.pixels⟩⟩
  | raised k n u =>
    obtain ⟨u', e'⟩ := h.raised e
    exact ⟨_, _, exec_raised hidle e hk hclr, exec_raised hidle' e' hk hclr, rfl, rfl, rfl, fun _ => ⟨rfl, rfl⟩,
      fun hd => absurd hd Nat.zero_ne_one⟩

/-- Settles O60: each phase of the one decode goes through as that of the other. -/
theorem decodeDependsOnTheSourceOnly : Obligations.DecodeDependsOnTheSourceOnly := by
  rintro s s' i hidle hidle' - hp hi hb hl hv
  rcases hi with rfl | ⟨rfl, hflip⟩
  · exact exec_alike hidle hidle' rfl nofun decodeBmp_post (alike_decodeBmp { sameSource_start hp hb hl hv 0 with })
  · exact exec_alike hidle hidle' rfl nofun decodePng_post
      (alike_decodePng { sameSource_start hp hb hl hv 0 with } (BitVec.eq_of_toNat_eq hflip))

end Sys2Proof.Machine
end
